-- ==== Sys2Proof/Word.lean ====
section
/-! DEFINITION. The words of the DDPico receive-path block: the byte (R10) and the 8-bit command word (R81). -/

namespace Sys2Proof

/-- An unsigned 8-bit value 0..255 (R10). Bit 0 is the least significant bit (R11). -/
abbrev Byte := BitVec 8

/-- The spec's operation code (R81): bits 7..4 select the unit, bits 3..0 the operation. -/
abbrev CommandWord := BitVec 8

end Sys2Proof
end

