-- ==== Sys2Proof/Syntax.lean ====
section
/-! DEFINITION. The operations (R81, one constructor per row of spec/opcode_table.json) and the operands that travel
beside a command word on the units' ports (R40 to R43). -/

namespace Sys2Proof

/-- The closed enumeration of operations (R81). Operands travel on the unit's port, not in the word, so no
constructor carries any. -/
inductive Instr where
  | decPush         -- DEC.PUSH         0x10  R84
  | decFrame        -- DEC.FRAME        0x11  R85
  | fqWrite         -- FQ.WRITE         0x20  R99
  | fqRead          -- FQ.READ          0x21  R101
  | fqSpace         -- FQ.SPACE         0x22  R104
  | fqHasData       -- FQ.HASDATA       0x23  R105
  | fqUsage         -- FQ.USAGE         0x24  R106
  | pcParse         -- PC.PARSE         0x30  R110
  | bsLimit         -- BS.LIMIT         0x40  R119
  | hostBegin       -- HOST.BEGIN       0xF0  R130
  | hostEnd         -- HOST.END         0xF1  R131
  | hostRxByte      -- HOST.RX_BYTE     0xF2  R133
  | hostRenderTick  -- HOST.RENDER_TICK 0xF3  R134
  deriving DecidableEq, Repr

/-- The three agents that take steps (R6). -/
inductive Agent where
  | rx
  | render
  | env
  deriving DecidableEq, Repr

/-- The buffers agent RENDER can name as an operand (R45): the pipeline's read buffer `host.rbuf` (R37), another
read destination of the caller's, and the caller's pixel buffer. -/
inductive BufName where
  | rbuf
  | dst
  | pix
  deriving DecidableEq, Repr

/-- A buffer operand: `size` cells of a buffer from index `base` on. A Packet's payload is such a view (R58). -/
structure View where
  buf  : BufName
  base : Nat
  size : Nat
  deriving DecidableEq, Repr

/-- What the issuing agent drives on the ports (R40 to R43): the agent, and each port's request operands. Lengths,
counts and scales are naturals, as R119 and R10 say; the port widths of R40 to R43 are `Ports.fit` in WellFormed. -/
structure Ports where
  /-- The agent that issues the transaction (R6). -/
  agent       : Agent
  /-- Byte port: `in_byte` (R40). -/
  inByte      : Byte
  /-- Write port: `wr_data[0 .. wr_len)` (R41); `none` is a cell holding no value (R16). -/
  wrData      : List (Option Byte)
  /-- Read port: `rd_max` (R41). -/
  rdMax       : Nat
  /-- Read port: the destination buffer (R41). -/
  rdDst       : View
  /-- PC port: the buffer (R42). -/
  pcBuf       : View
  /-- PC port: `length` (R42). -/
  pcLength    : Nat
  /-- BS port: the pixel buffer (R43). -/
  bsPix       : View
  /-- BS port: `count` (R43). -/
  bsCount     : Nat
  /-- BS port: `totalLEDs` (R43). -/
  bsTotal     : Nat
  /-- BS port: `threshold` (R43). -/
  bsThreshold : Nat
  /-- BS port: `maxScale` (R43). -/
  bsMaxScale  : Nat
  /-- BS port: `minScale` (R43). -/
  bsMinScale  : Nat
  deriving DecidableEq, Repr

end Sys2Proof
end

