-- ==== Sys2Proof/WellFormed.lean ====
section
/-! DEFINITION. Which operands fit the ports (R40 to R43, D50). Every `Instr` is well-formed: the type is the closed
enumeration of R81 and carries no field. What can be ill-formed is the operand beside it. The step does not refuse
an operand wider than its port: R10 and R119 make lengths and counts naturals without a width (log entry 9). -/

namespace Sys2Proof

/-- The operands that `i`'s port carries fit the widths R40 to R43 give it. -/
def Ports.fit (i : Instr) (p : Ports) : Bool :=
  match i with
  | .decPush | .decFrame | .fqSpace | .fqHasData | .fqUsage => true
  | .hostBegin | .hostEnd | .hostRxByte | .hostRenderTick => true
  | .fqWrite => decide (p.wrData.length < 2 ^ 16)
  | .fqRead => decide (p.rdMax < 2 ^ 16)
  | .pcParse => decide (p.pcLength < 2 ^ 16)
  | .bsLimit =>
    decide (p.bsCount < 2 ^ 16) && decide (p.bsTotal < 2 ^ 16) && decide (p.bsThreshold < 2 ^ 16) &&
      decide (p.bsMaxScale < 2 ^ 8) && decide (p.bsMinScale < 2 ^ 8)

end Sys2Proof
end

