-- ==== Sys2Proof/Decode.lean ====
section
/-! DEFINITION. The decoder of command words, total, refusing by name (R81, R82), and after it the encoder. -/

namespace Sys2Proof

/-- Why a command word is no operation (R82). -/
inductive DecodeError where
  | undefinedOperation (w : CommandWord)
  | noWord
  deriving DecidableEq, Repr

/-- The unit field, bits 7..4 (R81). -/
def commandUnit (w : CommandWord) : Nat := (w.extractLsb' 4 4).toNat

/-- The operation field, bits 3..0 (R81). -/
def commandOp (w : CommandWord) : Nat := (w.extractLsb' 0 4).toNat

/-- The operation a command word spells (R81); every other word spells none (R82). -/
def decodeWord (w : CommandWord) : Except DecodeError Instr :=
  match commandUnit w, commandOp w with
  | 0x1, 0x0 => .ok .decPush
  | 0x1, 0x1 => .ok .decFrame
  | 0x2, 0x0 => .ok .fqWrite
  | 0x2, 0x1 => .ok .fqRead
  | 0x2, 0x2 => .ok .fqSpace
  | 0x2, 0x3 => .ok .fqHasData
  | 0x2, 0x4 => .ok .fqUsage
  | 0x3, 0x0 => .ok .pcParse
  | 0x4, 0x0 => .ok .bsLimit
  | 0xF, 0x0 => .ok .hostBegin
  | 0xF, 0x1 => .ok .hostEnd
  | 0xF, 0x2 => .ok .hostRxByte
  | 0xF, 0x3 => .ok .hostRenderTick
  | _, _ => .error (.undefinedOperation w)

/-- Decoding from a list of command words: the first word's operation and the words after it. -/
def decodeBytes : List CommandWord → Except DecodeError (Instr × List CommandWord)
  | [] => .error .noWord
  | w :: rest =>
    match decodeWord w with
    | .ok i => .ok (i, rest)
    | .error e => .error e

/-- The command word laid out in `nbits` bits of `w`, numbered as spec/opcode_table.json numbers them: the bits from
`nbits` up are 0, and a command word is the low 8 (R81). -/
def tableWord (nbits w : Nat) : CommandWord := BitVec.ofNat 8 (w % 2 ^ nbits)

/-- What the decoder reads from an instruction of `nbits` bits whose bits are `w`. -/
def decodeTableWord (nbits w : Nat) : Option Instr :=
  match decodeBytes [tableWord nbits w] with
  | .ok (i, _) => some i
  | .error _ => none

/-- The unit number of each operation (R81). -/
def Instr.unit : Instr → BitVec 4
  | .decPush | .decFrame => 0x1#4
  | .fqWrite | .fqRead | .fqSpace | .fqHasData | .fqUsage => 0x2#4
  | .pcParse => 0x3#4
  | .bsLimit => 0x4#4
  | .hostBegin | .hostEnd | .hostRxByte | .hostRenderTick => 0xF#4

/-- The operation number of each operation within its unit (R81). -/
def Instr.op : Instr → BitVec 4
  | .decPush | .fqWrite | .pcParse | .bsLimit | .hostBegin => 0x0#4
  | .decFrame | .fqRead | .hostEnd => 0x1#4
  | .fqSpace | .hostRxByte => 0x2#4
  | .fqHasData | .hostRenderTick => 0x3#4
  | .fqUsage => 0x4#4

/-- The command word of an operation: unit in bits 7..4, operation in bits 3..0 (R81). -/
def encode (i : Instr) : CommandWord := i.unit ++ i.op

end Sys2Proof
end

