-- ==== Sys2Proof/Config.lean ====
section
/-! DEFINITION. What a construction of the block fixes (R7, R33, R36), and the model's one free value (R55).
The named source constants, the suggested values and the bounds of R8 stand in Sys2Proof/Machine/Params.lean. -/

namespace Sys2Proof

/-- `TRUNC_RUN_POLICY` (R7, R91): what Unstuff does with a run that promises more bytes than remain. -/
inductive TruncPolicy where
  | fail
  | copyAvailable
  deriving DecidableEq, Repr

/-- One entry of `CHANNELS` (R36): destination id, pixel count, output handle. -/
structure Channel where
  id     : Byte
  pixels : Nat
  out    : Nat
  deriving DecidableEq, Repr

/-- The construction parameters (R7, R33). They are plain data in the state, so that a statement about every
state is a statement about every configuration; R166 lists the configuration among the elements that reset sets. -/
structure Config where
  /-- `ACC_CAP`: capacity of the accumulation buffer, in bytes. -/
  accCap              : Nat
  /-- `DEC_CAP`: capacity of the decode buffer, in bytes. -/
  decCap              : Nat
  /-- `Q_CAP`: capacity of the queue's byte ring. -/
  qCap                : Nat
  /-- `RENDER_BUF_CAP`: size of the render loop's read buffer and the `maxLength` it passes. -/
  renderBufCap        : Nat
  /-- `CTR_WIDTH`: width of each statistics counter, in bits. -/
  ctrWidth            : Nat
  /-- `ACC_OVERFLOW_KEEP_BYTE` (R89). -/
  accOverflowKeepByte : Bool
  /-- `TRUNC_RUN_POLICY` (R91). -/
  truncPolicy         : TruncPolicy
  /-- `FULL_SCALE_IDENTITY` (R125). -/
  fullScaleIdentity   : Bool
  /-- `CHANNELS` (R36), in table order. -/
  channels            : List Channel
  deriving DecidableEq, Repr

/-- The `draw` of R16 and R55: a free value, under no law. A read of a counter by an agent that does not write it
takes `freeDraw n` for a fresh `n` (log entry 6). It has no body, so nothing can be proved of it. -/
opaque Config.freeDraw : Nat → Nat

end Sys2Proof
end

