-- ==== Sys2Proof/Machine/Params.lean ====
section
/-! DEFINITION. The source's named constants (R7), the bounds of a configuration (R8) and the configuration of the
model's reset state (log entry 1). -/

namespace Sys2Proof

/-- `HDR_SIZE` (R7): the packet header's size in bytes. -/
def hdrSize : Nat := 10

/-- `VERSION_MARKER` (R7, R72): the required value of flags bits 7..6. -/
def versionMarker : BitVec 2 := 0b01#2

/-- `MAX_PAYLOAD` (R7, R77): the largest accepted payload length. -/
def maxPayload : Nat := 1440

/-- `BS_THRESHOLD` (R7): the default `threshold` of BS.LIMIT. -/
def bsThresholdDefault : Nat := 4

/-- `BS_MAX_SCALE` (R7): the default `maxScale` of BS.LIMIT. -/
def bsMaxScaleDefault : Nat := 255

/-- `BS_MIN_SCALE` (R7): the default `minScale` of BS.LIMIT. -/
def bsMinScaleDefault : Nat := 102

/-- The channel part of R8: every pixel count in 0..65535, no destination id twice. Ids are bytes by type. -/
def channelsValid (chs : List Channel) : Bool :=
  chs.all (fun ch => decide (ch.pixels ≤ 65535)) && decide ((chs.map Channel.id).Nodup)

/-- The bounds of R8. A configuration outside them is refused (`badConfig`, R154). -/
def Config.valid (c : Config) : Bool :=
  decide (1 ≤ c.accCap) && decide (c.accCap ≤ 65535) &&
  decide (1 ≤ c.decCap) && decide (c.decCap ≤ 65535) &&
  decide (3 ≤ c.qCap) && decide (c.qCap ≤ 65537) &&
  decide (1 ≤ c.renderBufCap) && decide (c.renderBufCap ≤ 65535) &&
  decide (1 ≤ c.ctrWidth) && channelsValid c.channels

/-- The configuration the reset state is constructed with: the defaults and suggestions of R7 and, for what R7 leaves
OPEN, the configuration of the spec's program PROG-1 (95_test_vectors.md). DESIGN CHOICE, log entry 1. -/
def Config.suggested : Config where
  accCap := 2057
  decCap := 2048
  qCap := 4096
  renderBufCap := 2048
  ctrWidth := 32
  accOverflowKeepByte := false
  truncPolicy := .fail
  fullScaleIdentity := true
  channels := [{ id := 1, pixels := 10, out := 0 }]

end Sys2Proof
end

