-- ==== Sys2Proof/Machine/State.lean ====
section
/-! DEFINITION. The state of the block and of the host pipeline around it (10_state.md), plain data, and the state after
reset (R166). -/

namespace Sys2Proof.Machine

/-- A buffer's cells: the (index, byte) pairs of the cells that hold a value, in rising order of index. A cell that is
not listed holds `⊥`, no value (R16, R57). -/
abbrev Memory := List Host.Cell

/-- `ModelFault(kind)` (R153), closed: the caller broke a contract. The real block has no such signal. Every fault ends
the run, which errs toward unprovable: SAFE. -/
inductive Fault where
  /-- Raised by DEC.FRAME while `dec.frame_valid` is false (R85, R169). Safe. -/
  | frameNotValid
  /-- Raised by any operation that would move a `⊥` cell into a result (R57). Safe. -/
  | readUnwritten
  /-- Raised by FQ.READ, PC.PARSE and BS.LIMIT on a buffer with fewer cells than the length operand (R153). Safe. -/
  | bufferTooSmall
  deriving DecidableEq, Repr

/-- `refuse(kind)` (R154), closed: a request the model gives no meaning. Each errs toward unprovable: SAFE. -/
inductive Refusal where
  /-- Raised by `exec`'s arm of an instruction that has no meaning yet. No arm answers it. Safe. -/
  | notModelled (mnemonic : String)
  /-- Raised by the fetch of a command word outside R81's table (R82). Safe. -/
  | undefinedOperation (w : CommandWord)
  /-- Raised by every instruction issued by an agent its port does not admit (R82, R107). Safe. -/
  | wrongAgent
  /-- Raised by BS.LIMIT when not `minScale <= maxScale <= 255` (R126). Safe. -/
  | badScaleParams
  /-- Raised by construction, and by a step, on a configuration outside R8's bounds. Safe. -/
  | badConfig
  deriving DecidableEq, Repr

/-- The reason codes of R150, closed. Internal: the real block returns only the response. -/
inductive Reason where
  | decEmpty | decOverflow | decTruncated | decZeroLength | decAccOverflow
  | fqEmptyPayload | fqNoSpace
  | fqEmpty | fqZeroLength | fqTooLong | fqShortQueue
  | short | version | dataType | payloadLength | truncated
  | unknownDest | startBeyond
  deriving DecidableEq, Repr

/-- `dec.*` (R20 to R24). -/
structure Dec where
  /-- `dec.acc` (R20). -/
  acc        : Memory
  /-- `dec.acc_len` (R21). -/
  accLen     : Nat
  /-- `dec.out` (R22). -/
  out        : Memory
  /-- `dec.out_len` (R23). -/
  outLen     : Nat
  /-- `dec.frame_valid` (R24). -/
  frameValid : Bool
  deriving DecidableEq, Repr

/-- `fq.lock` (R31). -/
inductive Lock where
  | free
  | held (a : Agent)
  deriving DecidableEq, Repr

/-- `fq.*` (R27 to R31). -/
structure Fq where
  /-- `fq.ring` (R27). -/
  ring : Memory
  /-- `fq.rd` (R28). -/
  rd   : Nat
  /-- `fq.wr` (R28). -/
  wr   : Nat
  /-- `fq.used` (R29). -/
  used : Nat
  /-- `fq.lock` (R31): taken and released inside each FQ operation, so an operation reads it and leaves it as it is. -/
  lock : Lock
  deriving DecidableEq, Repr

/-- `host.state` (R34). -/
inductive RunState where
  | stopped
  | running
  deriving DecidableEq, Repr

/-- The Packet record (R79). `payload` is a view of the parsed buffer, in place (R58). -/
structure Packet where
  flags      : Byte
  version    : BitVec 2
  push       : Bool
  sequence   : BitVec 4
  dataType   : Byte
  dest       : Byte
  offset     : Nat
  payloadLen : Nat
  payload    : View
  pixelCount : Nat
  deriving DecidableEq, Repr

/-- Where agent RX stands inside HOST.RX_BYTE, whose sub-operations are separate transactions (R133): which one comes next.
R19 calls a loop's position host state. -/
inductive RxPosition where
  /-- Not inside HOST.RX_BYTE. -/
  | idle
  /-- DEC.PUSH said that a frame is ready; DEC.FRAME comes next. -/
  | frame
  /-- DEC.FRAME gave this frame; FQ.WRITE comes next. -/
  | write (frame : List Byte)
  /-- FQ.WRITE answered, with the reason of a refusal; its counter comes next. -/
  | count (why : Option Reason)
  deriving DecidableEq, Repr

/-- Where agent RENDER stands inside HOST.RENDER_TICK (R134, R19): what comes next. -/
inductive TickPosition where
  /-- Not inside HOST.RENDER_TICK. -/
  | idle
  /-- FQ.HASDATA said true; FQ.READ comes next. -/
  | read
  /-- FQ.READ wrote `n` bytes; PC.PARSE comes next. -/
  | parse (n : Nat)
  /-- The packet is routed to a channel; BS.LIMIT comes next. -/
  | scale (p : Packet) (ch : Channel)
  /-- BS.LIMIT completed; the LED driver calls come next. -/
  | pixels (p : Packet) (ch : Channel)
  /-- The LED driver calls are issued; `stats.packets_processed` comes next, once a flush has returned (R145). -/
  | count
  /-- The packet is dropped; `stats.dropped_render` comes next. -/
  | drop (r : Reason)
  deriving DecidableEq, Repr

/-- `host.*` (R34, R37), and the positions of the two loops (R19). -/
structure HostState where
  /-- `host.state` (R34). -/
  state   : RunState
  /-- `host.stop` (R34). -/
  stop    : Bool
  /-- `host.rx_drain` (R34, R132). -/
  rxDrain : Nat
  /-- `host.rbuf` (R37), `RENDER_BUF_CAP` cells. -/
  rbuf    : Memory
  /-- Where agent RX stands inside HOST.RX_BYTE (R133). -/
  rxAt    : RxPosition
  /-- Where agent RENDER stands inside HOST.RENDER_TICK (R134). -/
  tickAt  : TickPosition
  deriving DecidableEq, Repr

/-- `stats.*` (R35), each below `2^CTR_WIDTH`. -/
structure Stats where
  framesReceived   : Nat
  droppedRx        : Nat
  packetsProcessed : Nat
  droppedRender    : Nat
  deriving DecidableEq, Repr

/-- The name of one statistics counter (R35). -/
inductive Counter where
  | framesReceived | droppedRx | packetsProcessed | droppedRender
  deriving DecidableEq, Repr

/-- One LED driver call (R38). -/
inductive LedCall where
  | setPixel (out index : Nat) (r g b : Byte)
  | flush (out : Nat)
  deriving DecidableEq, Repr

/-- `env.*` (R38, R39) and the flush the driver has not yet returned from (R145). -/
structure EnvState where
  /-- `env.led_log` (R38), in issue order. -/
  ledLog       : List LedCall
  /-- `env.input` (R39), oldest first. -/
  input        : List Byte
  /-- The output whose `flush()` has not returned: the render tick that called it is not finished (R145, log entry 11). -/
  flushPending : Option Nat
  deriving DecidableEq, Repr

/-- A caller's buffer (R45): how many cells it has, and those that hold a value. -/
structure Buf where
  size  : Nat
  cells : Memory
  deriving DecidableEq, Repr

/-- Agent RENDER's own buffers beside `host.rbuf` (R45): a read destination and a pixel buffer. -/
structure Caller where
  dst : Buf
  pix : Buf
  deriving DecidableEq, Repr

/-- What the last transaction put on its port (R40 to R44). -/
inductive Response where
  /-- No transaction has answered yet. -/
  | none
  /-- DEC.PUSH: `frame_ready`. -/
  | frameReady (ready : Bool)
  /-- DEC.FRAME: `frame_len` and the frame's bytes. -/
  | frame (len : Nat) (bytes : List Byte)
  /-- FQ.WRITE: `wr_ok`. -/
  | wrOk (ok : Bool)
  /-- FQ.READ: `rd_len` and the bytes written to the destination; 0 is "no frame". -/
  | read (n : Nat) (bytes : List Byte)
  /-- FQ.SPACE: `space`. -/
  | space (n : Nat)
  /-- FQ.HASDATA: `has_data`. -/
  | hasData (b : Bool)
  /-- FQ.USAGE: `usage`, in percent. -/
  | usage (n : Nat)
  /-- PC.PARSE: success. -/
  | packet (p : Packet)
  /-- PC.PARSE: `Fail`. -/
  | parseFail
  /-- BS.LIMIT and the HOST operations: completion. -/
  | done
  /-- The LED driver calls of a tick that did not flush, or the return of a flush: the tick goes on (R134, R145). -/
  | underway
  /-- HOST.RENDER_TICK called `flush()`, which has not returned (R145). -/
  | flushing
  /-- The operation was not enabled, so no step of it was taken (R133, R145, R31, log entry 5). -/
  | waits
  /-- A counter read (R55). -/
  | counter (n : Nat)
  deriving DecidableEq, Repr

/-- One entry of the schedule: who moves next, and how (R144). -/
inductive Move where
  /-- An agent issues the operation a command word spells, with its operands on the ports (R5, R81). -/
  | request (w : CommandWord) (p : Ports)
  /-- An agent inside a HOST operation takes its next transaction (R5, R133, R134). -/
  | proceed (a : Agent)
  /-- ENV appends bytes to `env.input` (R39). -/
  | supply (bytes : List Byte)
  /-- The LED driver's pending `flush()` returns (R145). -/
  | flushReturn
  /-- RENDER fills its read destination with these cells. -/
  | placeDst (cells : List (Option Byte))
  /-- RENDER fills its pixel buffer with these cells. -/
  | placePix (cells : List (Option Byte))
  /-- An agent reads a statistics counter (R55). -/
  | readCounter (a : Agent) (c : Counter)
  deriving DecidableEq, Repr

/-- The whole state: the configuration (R166's last row), the block, the host pipeline, the environment, the ports, and
the model's own fields `reason`, `draws` and `sched`. -/
structure State where
  cfg    : Config
  dec    : Dec
  fq     : Fq
  host   : HostState
  stats  : Stats
  env    : EnvState
  caller : Caller
  ports  : Ports
  resp   : Response
  /-- The reason code of the last transaction's failure, none if it did not fail (R150). -/
  reason : Option Reason
  /-- How many free values have been drawn (R55, log entry 6). -/
  draws  : Nat
  /-- The agents' pending moves, the next one first (R144, log entry 3). -/
  sched  : List Move
  deriving DecidableEq, Repr

/-- What the ports carry before any request: zeros, empty buffers and BS.LIMIT's defaults (R83). DESIGN CHOICE, log
entry 4. -/
def portsAtReset : Ports where
  agent := .env
  inByte := 0
  wrData := []
  rdMax := 0
  rdDst := { buf := .rbuf, base := 0, size := 0 }
  pcBuf := { buf := .rbuf, base := 0, size := 0 }
  pcLength := 0
  bsPix := { buf := .pix, base := 0, size := 0 }
  bsCount := 0
  bsTotal := 0
  bsThreshold := bsThresholdDefault
  bsMaxScale := bsMaxScaleDefault
  bsMinScale := bsMinScaleDefault

/-- The state after reset of a block constructed with configuration `c` (R165, R166). -/
def State.resetWith (c : Config) : State where
  cfg := c
  dec := { acc := [], accLen := 0, out := [], outLen := 0, frameValid := false }
  fq := { ring := [], rd := 0, wr := 0, used := 0, lock := .free }
  host := { state := .stopped, stop := false, rxDrain := 0, rbuf := [], rxAt := .idle, tickAt := .idle }
  stats := { framesReceived := 0, droppedRx := 0, packetsProcessed := 0, droppedRender := 0 }
  env := { ledLog := [], input := [], flushPending := none }
  caller := { dst := { size := 0, cells := [] }, pix := { size := 0, cells := [] } }
  ports := portsAtReset
  resp := .none
  reason := none
  draws := 0
  sched := []

/-- The machine right after reset (R166), constructed with `Config.suggested` (log entry 1). -/
def State.reset : State := State.resetWith Config.suggested

end Sys2Proof.Machine
end

