-- ==== Sys2Proof/Machine/Ops.lean ====
section
/-! DEFINITION. The named operations over buffers and over the state's fields, the result of an operation, and the gate
every operation passes: the port's agent (R82) and whether the operation is enabled now (R31, R133, R134, R145). The block
takes no exception and returns from none (R148, R157, R158): a contract broken by a caller is a `Fault` (R153), a request without
a meaning a `Refusal` (R154), and both end the run; `Stop` is the one place they are raised through. -/

namespace Sys2Proof.Machine

/-- The two ways an operation ends without a response (R16). -/
inductive Stop where
  | fault (f : Fault)
  | refuse (r : Refusal)
  deriving DecidableEq, Repr

/-- What an operation gives: a value, or a stop. -/
abbrev Res (α : Type) := Except Stop α

/-- A stop or a next state, as the host's outcome. -/
def outcomeOf (r : Res State) : Host.Outcome State Fault Refusal :=
  match r with
  | .ok t => .next t
  | .error (.fault f) => .fault f
  | .error (.refuse e) => .refused e

/-! Cells (R15, R16, R52). -/

/-- The cell at index `a`: its byte, or none for `⊥`. -/
def Memory.read : Memory → Nat → Option Byte
  | [], _ => none
  | (x, v) :: m, a => if a = x then some v else Memory.read m a

/-- `name[a] <- b`, keeping the indices in rising order. -/
def Memory.write : Memory → Nat → Byte → Memory
  | [], a, b => [(a, b)]
  | (x, v) :: m, a, b =>
    if a < x then (a, b) :: (x, v) :: m
    else if a = x then (a, b) :: m
    else (x, v) :: Memory.write m a b

/-- The canonical form: indices strictly rising. A cell holding no value is never listed, so there is no entry equal to
what an unlisted index reads as. -/
abbrev Memory.wf (m : Memory) : Prop := m.Pairwise (fun x y => x.1 < y.1)

/-- Every listed index exists in a buffer of `cap` cells. -/
abbrev Memory.below (m : Memory) (cap : Nat) : Prop := ∀ c ∈ m, c.1 < cap

/-- The bytes of the `n` cells from index `a` on, or none if one of them holds `⊥`. -/
def Memory.readCells (m : Memory) (a : Nat) : Nat → Option (List Byte)
  | 0 => some []
  | n + 1 =>
    match Memory.read m a, Memory.readCells m (a + 1) n with
    | some b, some bs => some (b :: bs)
    | _, _ => none

/-- `MemRead(space, a, n)` (R15) on a buffer of `cap` cells. A cell past the end does not exist and holds no value. -/
def Memory.readSpan (cap : Nat) (m : Memory) (a n : Nat) : Option (List Byte) :=
  if a + n ≤ cap then Memory.readCells m a n else none

/-- `MemWrite(space, a, len(bs), bs)` (R15). -/
def Memory.writeSpan (m : Memory) (a : Nat) : List Byte → Memory
  | [] => m
  | b :: bs => Memory.writeSpan (Memory.write m a b) (a + 1) bs

/-- The `n` ring bytes from index `p` on, each index taken mod `cap` (R52). -/
def Memory.readRing (cap : Nat) (m : Memory) (p : Nat) : Nat → Option (List Byte)
  | 0 => some []
  | n + 1 =>
    match Memory.read m (p % cap), Memory.readRing cap m (p + 1) n with
    | some b, some bs => some (b :: bs)
    | _, _ => none

/-- Writes ring bytes from index `p` on, each index taken mod `cap` (R52). -/
def Memory.writeRing (cap : Nat) (m : Memory) (p : Nat) : List Byte → Memory
  | [] => m
  | b :: bs => Memory.writeRing cap (Memory.write m (p % cap) b) (p + 1) bs

/-- The cells of a sequence in which none is `⊥`, from index `a` on. -/
def Memory.place (m : Memory) (a : Nat) : List (Option Byte) → Memory
  | [] => m
  | none :: cs => Memory.place m (a + 1) cs
  | some b :: cs => Memory.place (Memory.write m a b) (a + 1) cs

/-- A caller's buffer whose cells are the given ones. -/
def Buf.ofCells (cs : List (Option Byte)) : Buf := { size := cs.length, cells := Memory.place [] 0 cs }

/-! Fields of the state. -/

def State.setDec (s : State) (d : Dec) : State := { s with dec := d }
def State.setFq (s : State) (q : Fq) : State := { s with fq := q }
def State.setHost (s : State) (h : HostState) : State := { s with host := h }
def State.setStats (s : State) (n : Stats) : State := { s with stats := n }
def State.setEnv (s : State) (e : EnvState) : State := { s with env := e }
def State.setCaller (s : State) (c : Caller) : State := { s with caller := c }
def State.setPorts (s : State) (p : Ports) : State := { s with ports := p }
def State.setDraws (s : State) (n : Nat) : State := { s with draws := n }
def State.setSched (s : State) (ms : List Move) : State := { s with sched := ms }

/-- Agent RX's position inside HOST.RX_BYTE (R133). -/
def State.rxGoTo (s : State) (p : RxPosition) : State := s.setHost { s.host with rxAt := p }

/-- Agent RENDER's position inside HOST.RENDER_TICK (R134). -/
def State.tickGoTo (s : State) (p : TickPosition) : State := s.setHost { s.host with tickAt := p }

/-- Puts an operation's response on its port, with the reason code of a failure (R44, R150). -/
def State.respond (s : State) (r : Response) (why : Option Reason) : State := { s with resp := r, reason := why }

/-! Counters (R35). -/

/-- One increment of a `CTR_WIDTH`-bit counter, modulo `2^CTR_WIDTH` (R35). -/
def bump (c : Config) (n : Nat) : Nat := (n + 1) % 2 ^ c.ctrWidth

def State.countReceived (s : State) : State :=
  s.setStats { s.stats with framesReceived := bump s.cfg s.stats.framesReceived }

def State.countDroppedRx (s : State) : State :=
  s.setStats { s.stats with droppedRx := bump s.cfg s.stats.droppedRx }

def State.countProcessed (s : State) : State :=
  s.setStats { s.stats with packetsProcessed := bump s.cfg s.stats.packetsProcessed }

def State.countDroppedRender (s : State) : State :=
  s.setStats { s.stats with droppedRender := bump s.cfg s.stats.droppedRender }

/-- The reported "packets dropped" (R35): both drop fields, mod `2^CTR_WIDTH`. -/
def State.reportedDropped (s : State) : Nat := (s.stats.droppedRx + s.stats.droppedRender) % 2 ^ s.cfg.ctrWidth

/-! The gate of every operation. -/

/-- Which agent an operation's port admits (R40 to R43, R82, R107, R130 to R134). -/
def admits (i : Instr) (a : Agent) : Bool :=
  match i with
  | .decPush | .decFrame | .fqWrite | .hostRxByte => a == .rx
  | .fqRead | .pcParse | .bsLimit | .hostRenderTick => a == .render
  | .fqSpace | .fqHasData | .fqUsage => a == .rx || a == .render
  | .hostBegin | .hostEnd => a == .env

/-- The operations whose step takes `fq.lock` (R31, R53). HOST.RX_BYTE begins with DEC.PUSH and HOST.RENDER_TICK with
FQ.HASDATA. -/
def takesLock (i : Instr) : Bool :=
  match i with
  | .fqWrite | .fqRead | .fqSpace | .fqHasData | .fqUsage | .hostRenderTick => true
  | .decPush | .decFrame | .pcParse | .bsLimit | .hostBegin | .hostEnd | .hostRxByte => false

/-- HOST.RX_BYTE is enabled only when a byte is there and the receive loop runs or still drains (R133). -/
def State.rxEnabled (s : State) : Bool :=
  !s.env.input.isEmpty && (s.host.state == .running || decide (0 < s.host.rxDrain))

/-- An agent may begin an operation: RX is not inside HOST.RX_BYTE (R133), RENDER neither inside a tick nor waiting for a
flush (R134, R145). ENV has no operation of several transactions. -/
def State.agentFree (a : Agent) (s : State) : Bool :=
  match a with
  | .rx => s.host.rxAt == .idle
  | .render => s.host.tickAt == .idle && s.env.flushPending.isNone
  | .env => true

/-- Whether the agent on the ports may begin operation `i` now: the queue's lock is free if `i`'s step needs it (R31), the agent
is free, and HOST.RX_BYTE has its own condition (R133). -/
def State.enabled (i : Instr) (s : State) : Bool :=
  (!takesLock i || s.fq.lock == .free) &&
  s.agentFree s.ports.agent &&
  (!(i == .hostRxByte) || s.rxEnabled)

/-- Operation `i` runs on its operands in state `s`: the agent's port admits it and it is enabled. -/
def State.ready (i : Instr) (s : State) : Bool := admits i s.ports.agent && s.enabled i

/-- An operation that is not enabled: no step of it is taken, and every element of the machine stays as it is
(log entry 5). -/
def State.stays (s : State) : State := s.respond .waits none

/-- Every operation: refusals first (R155), then whether it is enabled, then its own body. -/
def issue (i : Instr) (s : State) (body : Res State) : Host.Outcome State Fault Refusal :=
  if admits i s.ports.agent then
    if s.enabled i then outcomeOf body else .next s.stays
  else .refused .wrongAgent

end Sys2Proof.Machine
end

