-- ==== Sys2Proof/Machine/Flags.lean ====
section
/-! DEFINITION. The block has no flag register (R44). Here stand the byte-order helpers (R15, R47, R48), the bit fields of
the packet header (R72, R73), and every status decision: which failure of R150 an operation answers, in R150's order. -/

namespace Sys2Proof.Machine

/-- `be16(a, b)` (R15). -/
def be16 (a b : Byte) : Nat := a.toNat * 256 + b.toNat

/-- `be32(a, b, c, d)` (R15). -/
def be32 (a b c d : Byte) : Nat := ((a.toNat * 256 + b.toNat) * 256 + c.toNat) * 256 + d.toNat

/-- `L[15:8]` (R47). -/
def hiByte (n : Nat) : Byte := BitVec.ofNat 8 (n / 256)

/-- `L[7:0]` (R47). -/
def loByte (n : Nat) : Byte := BitVec.ofNat 8 n

/-- Flags bits 7..6 (R72). -/
def flagsVersion (f : Byte) : BitVec 2 := f.extractLsb' 6 2

/-- Flags bit 0, the push flag (R72). -/
def flagsPush (f : Byte) : Bool := f.getLsbD 0

/-- Sequence byte bits 3..0 (R73). -/
def sequenceOf (b : Byte) : BitVec 4 := b.extractLsb' 0 4

/-- The data types PC.PARSE accepts (R74, R113). -/
def dataTypeOk (b : Byte) : Bool := b == 0x00#8 || b == 0x01#8

/-- The payload lengths PC.PARSE accepts (R77, R114). -/
def payloadLenOk (n : Nat) : Bool := decide (1 ≤ n) && decide (n ≤ maxPayload)

/-- FQ.WRITE's refusal (R100), `L = 0` tested first (R150): none if the entry fits. -/
def fqWriteReason (c : Config) (used len : Nat) : Option Reason :=
  if len = 0 then some .fqEmptyPayload
  else if c.qCap < len ∨ c.qCap - used < len + 2 then some .fqNoSpace
  else none

/-- FQ.READ's corruption conditions on a header length (R103), in R150's order. -/
def fqReadReason (len maxLength used : Nat) : Option Reason :=
  if len = 0 then some .fqZeroLength
  else if maxLength < len then some .fqTooLong
  else if used - 2 < len then some .fqShortQueue
  else none

/-- The scale domain of BS.LIMIT (R126). -/
def scaleParamsOk (maxScale minScale : Nat) : Bool := decide (minScale ≤ maxScale) && decide (maxScale ≤ 255)

end Sys2Proof.Machine
end

