-- ==== Sys2Proof/Machine/Operands.lean ====
section
/-! DEFINITION. The operand forms: a byte sequence on the write port (R41), and a buffer operand, a view of one of
RENDER's buffers, with the checks R153 gives (`BufferTooSmall` before anything is read, `ReadUnwritten` at the first `⊥`
cell read, R155). -/

namespace Sys2Proof.Machine

/-- A named buffer: its size and its cells. `host.rbuf` has `RENDER_BUF_CAP` cells (R37). -/
def State.buf (s : State) (b : BufName) : Buf :=
  match b with
  | .rbuf => { size := s.cfg.renderBufCap, cells := s.host.rbuf }
  | .dst => s.caller.dst
  | .pix => s.caller.pix

/-- Replaces the cells of a named buffer; its size stays. -/
def State.setCells (s : State) (b : BufName) (m : Memory) : State :=
  match b with
  | .rbuf => s.setHost { s.host with rbuf := m }
  | .dst => s.setCaller { s.caller with dst := { s.caller.dst with cells := m } }
  | .pix => s.setCaller { s.caller with pix := { s.caller.pix with cells := m } }

/-- How many cells a buffer operand really has: those of the view that exist in its buffer. -/
def State.viewCells (s : State) (v : View) : Nat := min v.size ((s.buf v.buf).size - v.base)

/-- `BufferTooSmall` (R153): the operand must have at least `n` cells. -/
def State.checkView (s : State) (v : View) (n : Nat) : Res Unit :=
  if n ≤ s.viewCells v then .ok () else .error (.fault .bufferTooSmall)

/-- The byte of cell `k` of a buffer operand; `⊥` is `ReadUnwritten` (R57). -/
def State.viewByte (s : State) (v : View) (k : Nat) : Res Byte :=
  match Memory.read (s.buf v.buf).cells (v.base + k) with
  | some b => .ok b
  | none => .error (.fault .readUnwritten)

/-- The bytes of the first `n` cells of a buffer operand. -/
def State.viewBytes (s : State) (v : View) (n : Nat) : Res (List Byte) :=
  match Memory.readCells (s.buf v.buf).cells v.base n with
  | some bs => .ok bs
  | none => .error (.fault .readUnwritten)

/-- Writes bytes into the first cells of a buffer operand. -/
def State.writeView (s : State) (v : View) (bs : List Byte) : State :=
  s.setCells v.buf (Memory.writeSpan (s.buf v.buf).cells v.base bs)

/-- The whole of `host.rbuf` as an operand (R134). -/
def rbufView (c : Config) : View := { buf := .rbuf, base := 0, size := c.renderBufCap }

/-- The bytes of a sequence on the write port; a `⊥` among them is `ReadUnwritten` (R99, R57). -/
def payloadBytes : List (Option Byte) → Res (List Byte)
  | [] => .ok []
  | none :: _ => .error (.fault .readUnwritten)
  | some b :: cs =>
    match payloadBytes cs with
    | .ok bs => .ok (b :: bs)
    | .error e => .error e

end Sys2Proof.Machine
end

