-- ==== Sys2Proof/Machine/Bs.lean ====
section
/-! DEFINITION. The brightness scaler: BS.LIMIT (R119 to R128). -/

namespace Sys2Proof.Machine

/-- A pixel is lit when any of its three bytes is non-zero (R120). -/
def pixelLit (r g b : Byte) : Bool := r != 0 || g != 0 || b != 0

/-- The number of lit pixels among the whole triplets of a byte sequence (R120). -/
def litCount : List Byte → Nat
  | r :: g :: b :: px => (if pixelLit r g b then 1 else 0) + litCount px
  | _ => 0

/-- The scale of a call (R121, R122), the two tests in that order. -/
def selectScale (lit totalLEDs threshold maxScale minScale : Nat) : Nat :=
  if lit ≤ threshold then maxScale
  else if totalLEDs ≤ lit then minScale
  else maxScale - (lit - threshold) * (maxScale - minScale) / (totalLEDs - threshold)

/-- `(c × scale) >> 8` (R124). -/
def scaleByte (scale : Nat) (c : Byte) : Byte := BitVec.ofNat 8 ((c.toNat * scale) >>> 8)

/-- The bytes of the call's pixels after it (R119, R125). -/
def scalePixels (c : Config) (scale : Nat) (px : List Byte) : List Byte :=
  if scale = 255 ∧ c.fullScaleIdentity then px else px.map (scaleByte scale)

/-- `BS.LIMIT pix, count, totalLEDs, threshold, maxScale, minScale` (R119): the parameters (R126), then the buffer's size,
then its cells (R155). Every one of the `3 × count` cells is read, and written in place. -/
def State.limit (s : State) (pix : View) (count totalLEDs threshold maxScale minScale : Nat) : Res State :=
  if scaleParamsOk maxScale minScale then
    match s.checkView pix (3 * count) with
    | .error e => .error e
    | .ok () =>
      match s.viewBytes pix (3 * count) with
      | .error e => .error e
      | .ok px =>
        .ok (s.writeView pix
          (scalePixels s.cfg (selectScale (litCount px) totalLEDs threshold maxScale minScale) px))
  else .error (.refuse .badScaleParams)

def bsLimit (s : State) : Res State :=
  match s.limit s.ports.bsPix s.ports.bsCount s.ports.bsTotal s.ports.bsThreshold s.ports.bsMaxScale
      s.ports.bsMinScale with
  | .error e => .error e
  | .ok t => .ok (t.respond .done none)

/-- BS.LIMIT, command word 0x40, agent RENDER (R119). -/
def execBsLimit (s : State) : Host.Outcome State Fault Refusal := issue .bsLimit s (bsLimit s)

end Sys2Proof.Machine
end

