-- ==== Sys2Proof/Machine/Stuffing.lean ====
section
/-! DEFINITION. The wire frame's runs: Unstuff (R86), DEC's internal function, and the reference encoder Stuff (R68),
which the block does not contain and which statements and test vectors use. -/

namespace Sys2Proof.Machine

/-- Copies `k` bytes of a run verbatim (R86's inner loop): the input left and the output so far. A run that promises more
than remains follows `TRUNC_RUN_POLICY` (R91); a byte past `cap` is an overflow (R90). -/
def copyRun (pol : TruncPolicy) (cap : Nat) : Nat → List Byte → List Byte → Except Reason (List Byte × List Byte)
  | 0, inp, o => .ok (inp, o)
  | _ + 1, [], o =>
    match pol with
    | .fail => .error .decTruncated
    | .copyAvailable => .ok ([], o)
  | k + 1, b :: inp, o =>
    if o.length = cap then .error .decOverflow else copyRun pol cap k inp (o ++ [b])

/-- The implicit zero of a run (R67, R86): inserted when the code is below 0xFF and more input remains. -/
def implicitZero (cap : Nat) (code : Byte) (inp o : List Byte) : Except Reason (List Byte) :=
  if code ≠ 0xFF#8 ∧ inp ≠ [] then
    if o.length = cap then .error .decOverflow else .ok (o ++ [0x00#8])
  else .ok o

/-- R86's outer loop, on fuel: one unit a run. Every run consumes its code byte, so the input's length suffices. -/
def unstuffLoop (pol : TruncPolicy) (cap : Nat) : Nat → List Byte → List Byte → Except Reason (List Byte)
  | 0, _, o => .ok o
  | _ + 1, [], o => .ok o
  | fuel + 1, code :: inp, o =>
    if code = 0x00#8 then .ok o
    else
      match copyRun pol cap (code.toNat - 1) inp o with
      | .error r => .error r
      | .ok (inp', o') =>
        match implicitZero cap code inp' o' with
        | .error r => .error r
        | .ok o'' => unstuffLoop pol cap fuel inp' o''

/-- `Unstuff(in, cap)` (R86): the frame, or the reason of the failure met first. -/
def unstuff (pol : TruncPolicy) (cap : Nat) (inp : List Byte) : Except Reason (List Byte) :=
  unstuffLoop pol cap inp.length inp []

/-- The segments of a byte sequence: split at every 0x00 (R68). There is always at least one. -/
def splitZeros : List Byte → List (List Byte)
  | [] => [[]]
  | b :: bs =>
    if b = 0x00#8 then [] :: splitZeros bs
    else
      match splitZeros bs with
      | s :: ss => (b :: s) :: ss
      | [] => [[b]]

/-- `chunks(s)` (R68) on fuel: one unit a full chunk. -/
def chunksLoop : Nat → List Byte → List Byte
  | 0, s => BitVec.ofNat 8 (s.length + 1) :: s
  | fuel + 1, s =>
    if 254 ≤ s.length then 0xFF#8 :: s.take 254 ++ chunksLoop fuel (s.drop 254)
    else BitVec.ofNat 8 (s.length + 1) :: s

/-- `chunks(s)` (R68): the runs of one segment. -/
def chunks (s : List Byte) : List Byte := chunksLoop s.length s

/-- `Stuff(D)` (R68). -/
def stuff (d : List Byte) : List Byte := (splitZeros d).flatMap chunks

/-- `WIRE(D)` (R83): the stuffed sequence and its delimiter. -/
def wire (d : List Byte) : List Byte := stuff d ++ [0x00#8]

end Sys2Proof.Machine
end

