-- ==== Sys2Proof/Machine/Dec.lean ====
section
/-! DEFINITION. The frame decoder: DEC.PUSH (R84) and DEC.FRAME (R85). -/

namespace Sys2Proof.Machine

/-- The state after a delimiter that produces no frame (R94). -/
def Dec.noFrame (d : Dec) : Dec := { d with accLen := 0, out := [], outLen := 0, frameValid := false }

/-- The state after a delimiter that produces the frame `bs` (R84). Cells of `dec.out` past it keep what they held (log entry
16). -/
def Dec.expose (d : Dec) (bs : List Byte) : Dec :=
  { d with accLen := 0, out := Memory.writeSpan d.out 0 bs, outLen := bs.length, frameValid := true }

/-- DEC.PUSH of the delimiter (R84, R87 to R94): the state, `frame_ready`, and the reason of a failure. -/
def Dec.pushDelimiter (c : Config) (d : Dec) : Res (Dec × Bool × Option Reason) :=
  if d.accLen = 0 then .ok (d.noFrame, false, some .decEmpty)
  else
    match Memory.readSpan c.accCap d.acc 0 d.accLen with
    | none => .error (.fault .readUnwritten)
    | some inp =>
      match unstuff c.truncPolicy c.decCap inp with
      | .error r => .ok (d.noFrame, false, some r)
      | .ok [] => .ok (d.noFrame, false, some .decZeroLength)
      | .ok (b :: bs) => .ok (d.expose (b :: bs), true, none)

/-- The end of the frame window, the first line of R84's pseudocode: `dec.frame_valid <- false`, and `dec.out_len` with it, since
it is nonzero exactly while `dec.frame_valid` is true (R23, R26). DEDUCED, log entry 7. -/
def Dec.closeWindow (d : Dec) : Dec := { d with outLen := 0, frameValid := false }

/-- DEC.PUSH of a data byte (R84, R89): the window closes, and the byte is appended or the accumulation discarded. -/
def Dec.pushData (c : Config) (d : Dec) (b : Byte) : Dec × Option Reason :=
  if d.accLen < c.accCap then
    ({ d.closeWindow with acc := Memory.write d.acc d.accLen b, accLen := d.accLen + 1 }, none)
  else if c.accOverflowKeepByte then
    ({ d.closeWindow with acc := Memory.write d.acc 0 b, accLen := 1 }, some .decAccOverflow)
  else ({ d.closeWindow with accLen := 0 }, some .decAccOverflow)

/-- `DEC.PUSH b -> frame_ready` (R84). -/
def Dec.push (c : Config) (d : Dec) (b : Byte) : Res (Dec × Bool × Option Reason) :=
  if b = 0x00#8 then d.pushDelimiter c
  else .ok ((d.pushData c b).1, false, (d.pushData c b).2)

/-- `DEC.FRAME -> frame_len, frame` (R85). -/
def Dec.frame (c : Config) (d : Dec) : Res (List Byte) :=
  if d.frameValid then
    match Memory.readSpan c.decCap d.out 0 d.outLen with
    | some bs => .ok bs
    | none => .error (.fault .readUnwritten)
  else .error (.fault .frameNotValid)

/-- The DEC phase (R25), derived from `dec.acc_len` and not stored. -/
inductive Phase where
  | idle
  | accumulating
  deriving DecidableEq, Repr

def Dec.phase (d : Dec) : Phase := if d.accLen = 0 then .idle else .accumulating

/-- DEC.PUSH as a step of the state. -/
def decPush (s : State) : Res State :=
  match s.dec.push s.cfg s.ports.inByte with
  | .error e => .error e
  | .ok (d, ready, why) => .ok ((s.setDec d).respond (.frameReady ready) why)

/-- DEC.FRAME as a step of the state. -/
def decFrame (s : State) : Res State :=
  match s.dec.frame s.cfg with
  | .error e => .error e
  | .ok bs => .ok (s.respond (.frame s.dec.outLen bs) none)

/-- DEC.PUSH, command word 0x10, agent RX (R84). -/
def execDecPush (s : State) : Host.Outcome State Fault Refusal := issue .decPush s (decPush s)

/-- DEC.FRAME, command word 0x11, agent RX (R85). -/
def execDecFrame (s : State) : Host.Outcome State Fault Refusal := issue .decFrame s (decFrame s)

end Sys2Proof.Machine
end

