-- ==== Sys2Proof/Machine/Fq.lean ====
section
/-! DEFINITION. The bounded frame queue: FQ.WRITE (R99), FQ.READ (R101), FQ.SPACE (R104), FQ.HASDATA (R105) and FQ.USAGE
(R106). Each is one step under `fq.lock`, which `State.enabled` finds free and the operation releases again (R31, R53). -/

namespace Sys2Proof.Machine

/-- A queue entry (R70): the payload's length, 16 bits big-endian (R47), then the payload. -/
def queueEntry (payload : List Byte) : List Byte := hiByte payload.length :: loByte payload.length :: payload

/-- `FQ.WRITE payload -> ok` (R99, R100): the state and the reason of a refusal. -/
def Fq.write (c : Config) (q : Fq) (payload : List (Option Byte)) : Res (Fq × Option Reason) :=
  match fqWriteReason c q.used payload.length with
  | some r => .ok (q, some r)
  | none =>
    match payloadBytes payload with
    | .error e => .error e
    | .ok bs =>
      .ok ({ q with
              ring := Memory.writeRing c.qCap q.ring q.wr (queueEntry bs)
              wr := (q.wr + 2 + bs.length) % c.qCap
              used := q.used + 2 + bs.length }, none)

/-- The queue reset of a corrupt or oversized entry (R103). -/
def Fq.emptied (q : Fq) : Fq := { q with rd := q.wr, used := 0 }

/-- `FQ.READ maxLength -> n, bytes` on the queue alone (R101 to R103): the state, the bytes read (none: no frame), and the
reason of a 0. -/
def Fq.read (c : Config) (q : Fq) (maxLength : Nat) : Res (Fq × List Byte × Option Reason) :=
  if q.used < 2 then .ok (q, [], some .fqEmpty)
  else
    match Memory.readRing c.qCap q.ring q.rd 2 with
    | some [h, l] =>
      match fqReadReason (be16 h l) maxLength q.used with
      | some r => .ok (q.emptied, [], some r)
      | none =>
        match Memory.readRing c.qCap q.ring (q.rd + 2) (be16 h l) with
        | none => .error (.fault .readUnwritten)
        | some bs =>
          .ok ({ q with rd := (q.rd + 2 + be16 h l) % c.qCap, used := q.used - 2 - be16 h l }, bs, none)
    | _ => .error (.fault .readUnwritten)

/-- `FQ.SPACE` (R104). -/
def Fq.space (c : Config) (q : Fq) : Nat := c.qCap - q.used

/-- `FQ.HASDATA` (R105). -/
def Fq.hasData (q : Fq) : Bool := decide (0 < q.used)

/-- `FQ.USAGE` (R106), the floor of the percentage. -/
def Fq.usage (c : Config) (q : Fq) : Nat := q.used * 100 / c.qCap

/-- FQ.WRITE as a step of the state, for a payload. -/
def State.fqWrite (s : State) (payload : List (Option Byte)) : Res (State × Option Reason) :=
  match s.fq.write s.cfg payload with
  | .error e => .error e
  | .ok (q, why) => .ok (s.setFq q, why)

/-- FQ.READ as a step of the state: the destination is checked first (R155), and its cells past the bytes read stay. -/
def State.fqRead (s : State) (maxLength : Nat) (dst : View) : Res (State × List Byte × Option Reason) :=
  match s.checkView dst maxLength with
  | .error e => .error e
  | .ok () =>
    match s.fq.read s.cfg maxLength with
    | .error e => .error e
    | .ok (q, bs, why) => .ok ((s.setFq q).writeView dst bs, bs, why)

def fqWrite (s : State) : Res State :=
  match s.fqWrite s.ports.wrData with
  | .error e => .error e
  | .ok (t, why) => .ok (t.respond (.wrOk why.isNone) why)

def fqRead (s : State) : Res State :=
  match s.fqRead s.ports.rdMax s.ports.rdDst with
  | .error e => .error e
  | .ok (t, bs, why) => .ok (t.respond (.read bs.length bs) why)

/-- FQ.WRITE, command word 0x20, agent RX (R99). -/
def execFqWrite (s : State) : Host.Outcome State Fault Refusal := issue .fqWrite s (fqWrite s)

/-- FQ.READ, command word 0x21, agent RENDER (R101). -/
def execFqRead (s : State) : Host.Outcome State Fault Refusal := issue .fqRead s (fqRead s)

/-- FQ.SPACE, command word 0x22, agent RX or RENDER (R104). -/
def execFqSpace (s : State) : Host.Outcome State Fault Refusal :=
  issue .fqSpace s (.ok (s.respond (.space (s.fq.space s.cfg)) none))

/-- FQ.HASDATA, command word 0x23, agent RX or RENDER (R105). -/
def execFqHasData (s : State) : Host.Outcome State Fault Refusal :=
  issue .fqHasData s (.ok (s.respond (.hasData s.fq.hasData) none))

/-- FQ.USAGE, command word 0x24, agent RX or RENDER (R106). -/
def execFqUsage (s : State) : Host.Outcome State Fault Refusal :=
  issue .fqUsage s (.ok (s.respond (.usage (s.fq.usage s.cfg)) none))

end Sys2Proof.Machine
end

