-- ==== Sys2Proof/Machine/Pc.lean ====
section
/-! DEFINITION. The protocol codec: PC.PARSE (R110 to R118). -/

namespace Sys2Proof.Machine

/-- The Packet of a buffer whose header passed every check (R79, R116): it reads the bytes 1 and 3 to 7 too. -/
def State.packetOf (s : State) (v : View) (flags dtype : Byte) (plen : Nat) : Res Packet :=
  match s.viewByte v 1, s.viewByte v 3, s.viewByte v 4, s.viewByte v 5, s.viewByte v 6, s.viewByte v 7 with
  | .ok sq, .ok dest, .ok o3, .ok o2, .ok o1, .ok o0 =>
    .ok { flags := flags
          version := flagsVersion flags
          push := flagsPush flags
          sequence := sequenceOf sq
          dataType := dtype
          dest := dest
          offset := be32 o3 o2 o1 o0
          payloadLen := plen
          payload := { buf := v.buf, base := v.base + hdrSize, size := plen }
          pixelCount := plen / 3 }
  | _, _, _, _, _, _ => .error (.fault .readUnwritten)

/-- The checks that need the two length bytes (R114, R115), the last of R117's order. -/
def State.parseLengths (s : State) (v : View) (length : Nat) (flags dtype : Byte) : Res (Except Reason Packet) :=
  match s.viewByte v 8, s.viewByte v 9 with
  | .ok h, .ok l =>
    if payloadLenOk (be16 h l) then
      if length < hdrSize + be16 h l then .ok (.error .truncated)
      else
        match s.packetOf v flags dtype (be16 h l) with
        | .ok p => .ok (.ok p)
        | .error e => .error e
    else .ok (.error .payloadLength)
  | _, _ => .error (.fault .readUnwritten)

/-- R110's pseudocode, the checks in R117's order: a Packet, or the reason of the first check that fails. A header byte
is read only when its check is reached. -/
def State.parseHeader (s : State) (v : View) (length : Nat) : Res (Except Reason Packet) :=
  if length < hdrSize then .ok (.error .short)
  else
    match s.viewByte v 0 with
    | .error e => .error e
    | .ok flags =>
      if flagsVersion flags ≠ versionMarker then .ok (.error .version)
      else
        match s.viewByte v 2 with
        | .error e => .error e
        | .ok dtype =>
          if dataTypeOk dtype then s.parseLengths v length flags dtype
          else .ok (.error .dataType)

/-- `PC.PARSE buf, length -> Packet | Fail` (R110): the buffer's size is checked first (R155). -/
def State.parse (s : State) (v : View) (length : Nat) : Res (Except Reason Packet) :=
  match s.checkView v length with
  | .error e => .error e
  | .ok () => s.parseHeader v length

def pcParse (s : State) : Res State :=
  match s.parse s.ports.pcBuf s.ports.pcLength with
  | .error e => .error e
  | .ok (.error r) => .ok (s.respond .parseFail (some r))
  | .ok (.ok p) => .ok (s.respond (.packet p) none)

/-- PC.PARSE, command word 0x30, agent RENDER (R110). -/
def execPcParse (s : State) : Host.Outcome State Fault Refusal := issue .pcParse s (pcParse s)

end Sys2Proof.Machine
end

