-- ==== Sys2Proof/Machine/HostLoop.lean ====
section
/-! DEFINITION. The host pipeline, the environment model of 48_host_pipeline.md: HOST.BEGIN (R130), HOST.END (R131),
HOST.RX_BYTE (R133) and HOST.RENDER_TICK (R134). The last two issue several transactions, each a step of its own (R5, R133): the
operation's command word takes the first, and `proceed` each later one, so the other agents may move in between. -/

namespace Sys2Proof.Machine

/-- All four counters at 0 (R130). -/
def Stats.zero : Stats := { framesReceived := 0, droppedRx := 0, packetsProcessed := 0, droppedRender := 0 }

/-- `HOST.BEGIN` (R130). -/
def hostBegin (s : State) : Res State :=
  if s.host.state = .running then .ok (s.respond .done none)
  else
    .ok (((s.setStats Stats.zero).setHost { s.host with state := .running, stop := false, rxDrain := 0 }).respond
      .done none)

/-- `HOST.END` (R131). -/
def hostEnd (s : State) : Res State :=
  if s.host.state = .stopped then .ok (s.respond .done none)
  else
    .ok ((s.setHost { s.host with state := .stopped, stop := true, rxDrain := s.env.input.length }).respond .done none)

/-- Takes the oldest input byte; while Stopped it also uses up one of the bytes left to drain (R132, R133). -/
def State.takeInput (s : State) (rest : List Byte) : State :=
  (s.setEnv { s.env with input := rest }).setHost
    (if s.host.state = .stopped then { s.host with rxDrain := s.host.rxDrain - 1 } else s.host)

/-- `HOST.RX_BYTE` (R133), its first step: the byte is taken and DEC.PUSH consumes it (log entry 10). Without a frame the
operation is over.
The empty-input case is never enabled. -/
def hostRxByte (s : State) : Res State :=
  match s.env.input with
  | [] => .ok s.stays
  | b :: rest =>
    match (s.takeInput rest).dec.push s.cfg b with
    | .error e => .error e
    | .ok (d, true, _) => .ok ((((s.takeInput rest).setDec d).rxGoTo .frame).respond (.frameReady true) none)
    | .ok (d, false, why) => .ok (((s.takeInput rest).setDec d).respond .done why)

/-- HOST.RX_BYTE's DEC.FRAME. -/
def rxFrame (s : State) : Res State :=
  match s.dec.frame s.cfg with
  | .error e => .error e
  | .ok frame => .ok ((s.rxGoTo (.write frame)).respond (.frame s.dec.outLen frame) none)

/-- HOST.RX_BYTE's FQ.WRITE. -/
def rxWrite (frame : List Byte) (s : State) : Res State :=
  match s.fqWrite (frame.map some) with
  | .error e => .error e
  | .ok (t, why) => .ok ((t.rxGoTo (.count why)).respond (.wrOk why.isNone) why)

/-- RX's counter of a frame that FQ.WRITE accepted, or refused. -/
def State.countFrame (s : State) (why : Option Reason) : State :=
  match why with
  | none => s.countReceived
  | some _ => s.countDroppedRx

/-- HOST.RX_BYTE's last line: the counter. -/
def rxCount (why : Option Reason) (s : State) : State := ((s.countFrame why).rxGoTo .idle).respond .done why

/-- The next step of an RX inside HOST.RX_BYTE. -/
def rxProceed (s : State) : Res State :=
  match s.host.rxAt with
  | .idle => .ok s.stays
  | .frame => rxFrame s
  | .write frame => rxWrite frame s
  | .count why => .ok (rxCount why s)

/-- `Lookup(id)` (R136). Ids are unique (R8), so the first entry with the id is the only one. -/
def lookupChannel (chs : List Channel) (id : Byte) : Option Channel := chs.find? (fun ch => ch.id == id)

/-- The pixel writes (R140): one call per whole triplet, in rising order from pixel `start`. -/
def setPixels (out start : Nat) : List Byte → List LedCall
  | r :: g :: b :: px => .setPixel out start r g b :: setPixels out (start + 1) px
  | _ => []

/-- Appends LED driver calls to `env.led_log` (R38). -/
def State.ledCalls (s : State) (calls : List LedCall) : State :=
  s.setEnv { s.env with ledLog := s.env.ledLog ++ calls }

/-- `flush()` of an output, when the push flag is set (R141): the call is issued, and its return is awaited (R145). -/
def State.flushIf (s : State) (push : Bool) (out : Nat) : State :=
  if push then s.setEnv { s.env with ledLog := s.env.ledLog ++ [.flush out], flushPending := some out } else s

/-- `cnt` (R138): the packet's pixels that the channel has room for. -/
def clampedCount (p : Packet) (ch : Channel) : Nat := min p.pixelCount (ch.pixels - p.offset / 3)

/-- What comes after a parsed packet (R136, R137): it is dropped, or routed to its channel. -/
def routePacket (chs : List Channel) (p : Packet) : TickPosition :=
  match lookupChannel chs p.dest with
  | none => .drop .unknownDest
  | some ch => if ch.pixels ≤ p.offset / 3 then .drop .startBeyond else .scale p ch

/-- `HOST.RENDER_TICK` (R134), its first step: FQ.HASDATA. Without data the operation is over. -/
def hostRenderTick (s : State) : Res State :=
  if s.fq.hasData then .ok ((s.tickGoTo .read).respond (.hasData true) none) else .ok (s.respond .done none)

/-- HOST.RENDER_TICK's FQ.READ into `host.rbuf`. -/
def tickRead (s : State) : Res State :=
  match s.fqRead s.cfg.renderBufCap (rbufView s.cfg) with
  | .error e => .error e
  | .ok (t, bs, why) => .ok ((t.tickGoTo (.parse bs.length)).respond (.read bs.length bs) why)

/-- HOST.RENDER_TICK's PC.PARSE of the bytes read, with the lookup and the bounds check that follow (log entry 10). -/
def tickParse (n : Nat) (s : State) : Res State :=
  match s.parse (rbufView s.cfg) n with
  | .error e => .error e
  | .ok (.error r) => .ok ((s.tickGoTo (.drop r)).respond .parseFail (some r))
  | .ok (.ok p) => .ok ((s.tickGoTo (routePacket s.cfg.channels p)).respond (.packet p) none)

/-- HOST.RENDER_TICK's BS.LIMIT of the clamped payload, with the defaults (R139). -/
def tickScale (p : Packet) (ch : Channel) (s : State) : Res State :=
  match s.limit p.payload (clampedCount p ch) ch.pixels bsThresholdDefault bsMaxScaleDefault bsMinScaleDefault with
  | .error e => .error e
  | .ok t => .ok ((t.tickGoTo (.pixels p ch)).respond .done none)

/-- HOST.RENDER_TICK's LED driver calls (R140, R141), one step (log entry 10). -/
def tickPixels (p : Packet) (ch : Channel) (s : State) : Res State :=
  match s.viewBytes p.payload (3 * clampedCount p ch) with
  | .error e => .error e
  | .ok px =>
    .ok ((((s.ledCalls (setPixels ch.out (p.offset / 3) px)).flushIf p.push ch.out).tickGoTo .count).respond
      (if p.push then .flushing else .underway) none)

/-- HOST.RENDER_TICK's last line: the packet is counted as processed. -/
def tickCount (s : State) : State := (s.countProcessed.tickGoTo .idle).respond .done none

/-- `drop()` (R134): the drop is counted and the tick ends, its reason kept (R150). -/
def tickDrop (r : Reason) (s : State) : State := (s.countDroppedRender.tickGoTo .idle).respond .done (some r)

/-- The next step of a RENDER inside HOST.RENDER_TICK. -/
def tickProceed (s : State) : Res State :=
  match s.host.tickAt with
  | .idle => .ok s.stays
  | .read => tickRead s
  | .parse n => tickParse n s
  | .scale p ch => tickScale p ch s
  | .pixels p ch => tickPixels p ch s
  | .count => .ok (tickCount s)
  | .drop r => .ok (tickDrop r s)

/-- Whether an agent inside a HOST operation may take its next step: an FQ operation needs the lock free (R31), and RENDER waits
for a flush to return (R145). -/
def State.mayProceed (a : Agent) (s : State) : Bool :=
  match a with
  | .rx =>
    match s.host.rxAt with
    | .idle => false
    | .write _ => s.fq.lock == .free
    | .frame | .count _ => true
  | .render =>
    s.env.flushPending.isNone &&
      match s.host.tickAt with
      | .idle => false
      | .read => s.fq.lock == .free
      | .parse _ | .scale _ _ | .pixels _ _ | .count | .drop _ => true
  | .env => false

/-- The next step of an agent inside a HOST operation; an agent that may take none stays (log entry 5). -/
def proceed (a : Agent) (s : State) : Host.Outcome State Fault Refusal :=
  if s.mayProceed a then
    match a with
    | .rx => outcomeOf (rxProceed s)
    | .render => outcomeOf (tickProceed s)
    | .env => .next s.stays
  else .next s.stays

/-- HOST.BEGIN, command word 0xF0, agent ENV (R130). -/
def execHostBegin (s : State) : Host.Outcome State Fault Refusal := issue .hostBegin s (hostBegin s)

/-- HOST.END, command word 0xF1, agent ENV (R131). -/
def execHostEnd (s : State) : Host.Outcome State Fault Refusal := issue .hostEnd s (hostEnd s)

/-- HOST.RX_BYTE, command word 0xF2, agent RX (R133): its first transaction. -/
def execHostRxByte (s : State) : Host.Outcome State Fault Refusal := issue .hostRxByte s (hostRxByte s)

/-- HOST.RENDER_TICK, command word 0xF3, agent RENDER (R134): its first transaction. -/
def execHostRenderTick (s : State) : Host.Outcome State Fault Refusal := issue .hostRenderTick s (hostRenderTick s)

end Sys2Proof.Machine
end

