-- ==== Sys2Proof/Machine/Env.lean ====
section
/-! DEFINITION. Construction (R168), the environment's own moves (R144 to R146), and the fetch: which move comes next, and what
operation its command word spells (R81, R82). -/

namespace Sys2Proof.Machine

/-- Construction (R168 step 1): the reset state, or a refusal of a configuration outside R8's bounds (R154). -/
def State.construct (c : Config) : Host.Outcome State Fault Refusal :=
  if c.valid then .next (State.resetWith c) else .refused .badConfig

/-- ENV appends bytes to `env.input` (R39). -/
def execSupply (bytes : List Byte) (s : State) : State := s.setEnv { s.env with input := s.env.input ++ bytes }

/-- The pending `flush()` returns (R145), so the tick that called it may go on. With no flush pending there is nothing to
return from. -/
def execFlushReturn (s : State) : State :=
  match s.env.flushPending with
  | none => s.stays
  | some _ => (s.setEnv { s.env with flushPending := none }).respond .underway none

/-- RENDER fills its own read destination (R45), unless it is inside a tick (R134, R145). -/
def execPlaceDst (cells : List (Option Byte)) (s : State) : State :=
  if s.agentFree .render then s.setCaller { s.caller with dst := Buf.ofCells cells } else s.stays

/-- RENDER fills its own pixel buffer (R45), unless it is inside a tick (R134, R145). -/
def execPlacePix (cells : List (Option Byte)) (s : State) : State :=
  if s.agentFree .render then s.setCaller { s.caller with pix := Buf.ofCells cells } else s.stays

/-- The one agent that writes a counter (R35). -/
def Counter.writer : Counter → Agent
  | .framesReceived | .droppedRx => .rx
  | .packetsProcessed | .droppedRender => .render

/-- A counter's value. -/
def Stats.get (n : Stats) : Counter → Nat
  | .framesReceived => n.framesReceived
  | .droppedRx => n.droppedRx
  | .packetsProcessed => n.packetsProcessed
  | .droppedRender => n.droppedRender

/-- A counter read (R55): its writer reads it exactly; every other agent reads a free `CTR_WIDTH`-bit value, a fresh one
each time. An agent inside a HOST operation reads none until it is done (log entry 5). -/
def execReadCounter (a : Agent) (c : Counter) (s : State) : State :=
  if s.agentFree a then
    if a = c.writer then s.respond (.counter (s.stats.get c)) none
    else (s.setDraws (s.draws + 1)).respond (.counter (Config.freeDraw s.draws % 2 ^ s.cfg.ctrWidth)) none
  else s.stays

/-- What the head of the schedule asks for. -/
inductive Fetched where
  /-- The step is over: an environment move was made, nothing is scheduled, or the request is refused. -/
  | over (o : Host.Outcome State Fault Refusal)
  /-- The operation to run, and the state with its operands on the ports. -/
  | run (i : Instr) (s : State)

/-- One scheduled move, `s` being the state without it. -/
def fetchMove (m : Move) (s : State) : Fetched :=
  match m with
  | .request w p =>
    match decodeWord w with
    | .ok i => .run i (s.setPorts p)
    | .error _ => .over (.refused (.undefinedOperation w))
  | .proceed a => .over (proceed a s)
  | .supply bytes => .over (.next (execSupply bytes s))
  | .flushReturn => .over (.next (execFlushReturn s))
  | .placeDst cells => .over (.next (execPlaceDst cells s))
  | .placePix cells => .over (.next (execPlacePix cells s))
  | .readCounter a c => .over (.next (execReadCounter a c s))

/-- The next move (R144). A configuration outside R8 is refused (R154); with nothing scheduled nothing moves. -/
def fetch (s : State) : Fetched :=
  if s.cfg.valid then
    match s.sched with
    | [] => .over (.next s)
    | m :: rest => fetchMove m (s.setSched rest)
  else .over (.refused .badConfig)

/-- An agent whose port admits the operation: the one that drives it in 48_host_pipeline.md and R6. -/
def issuer : Instr → Agent
  | .decPush | .decFrame | .fqWrite | .fqSpace | .fqUsage | .hostRxByte => .rx
  | .fqRead | .fqHasData | .pcParse | .bsLimit | .hostRenderTick => .render
  | .hostBegin | .hostEnd => .env

/-- The request that issues a command word on the operands that stand on the ports, from an agent its port admits. -/
def requestFor (p : Ports) (w : CommandWord) : Move :=
  match decodeWord w with
  | .ok i => .request w { p with agent := issuer i }
  | .error _ => .request w p

/-! The pseudo-operations of R83, each an expansion into moves. -/

/-- `DEC.FEED [b0 .. bk]`. -/
def decFeed (p : Ports) (bytes : List Byte) : List Move :=
  bytes.map (fun b => .request (encode .decPush) { p with agent := .rx, inByte := b })

/-- `BS.LIMIT buf, count, total`, with the defaults of the source. -/
def bsLimitDefault (p : Ports) (pix : View) (count total : Nat) : Move :=
  .request (encode .bsLimit)
    { p with
        agent := .render
        bsPix := pix
        bsCount := count
        bsTotal := total
        bsThreshold := bsThresholdDefault
        bsMaxScale := bsMaxScaleDefault
        bsMinScale := bsMinScaleDefault }

/-- `HOST.RX [b0 .. bk]`. R83 writes a byte as HOST.RX_BYTE's operand, and R133 gives it none: it takes the oldest byte of
`env.input`. DESIGN CHOICE, log entry 25: ENV supplies each byte right before its step, so with older input waiting the steps
consume that first. Three `proceed` moves see the operation through; those left over change nothing. -/
def hostRx (p : Ports) (bytes : List Byte) : List Move :=
  bytes.flatMap (fun b =>
    [.supply [b], .request (encode .hostRxByte) { p with agent := .rx }, .proceed .rx, .proceed .rx, .proceed .rx])

end Sys2Proof.Machine
end

