-- ==== Sys2Proof/Machine/Dispatch.lean ====
section
/-! DEFINITION. exec: one arm per operation of R81, each a direct call of its meaning. -/

namespace Sys2Proof.Machine

/-- The step of one operation, its operands on the state's ports (R5, R81). -/
def exec (i : Instr) (s : State) : Host.Outcome State Fault Refusal :=
  match i with
  | .decPush => Sys2Proof.Machine.execDecPush s
  | .decFrame => Sys2Proof.Machine.execDecFrame s
  | .fqWrite => Sys2Proof.Machine.execFqWrite s
  | .fqRead => Sys2Proof.Machine.execFqRead s
  | .fqSpace => Sys2Proof.Machine.execFqSpace s
  | .fqHasData => Sys2Proof.Machine.execFqHasData s
  | .fqUsage => Sys2Proof.Machine.execFqUsage s
  | .pcParse => Sys2Proof.Machine.execPcParse s
  | .bsLimit => Sys2Proof.Machine.execBsLimit s
  | .hostBegin => Sys2Proof.Machine.execHostBegin s
  | .hostEnd => Sys2Proof.Machine.execHostEnd s
  | .hostRxByte => Sys2Proof.Machine.execHostRxByte s
  | .hostRenderTick => Sys2Proof.Machine.execHostRenderTick s

end Sys2Proof.Machine
end

