-- ==== Sys2Proof/Machine/Step.lean ====
section
/-! DEFINITION. One step: fetch the next move, then run it. -/

namespace Sys2Proof.Machine

/-- One step of the model: one move of one agent (R5, R144). -/
def step (s : State) : Host.Outcome State Fault Refusal :=
  match fetch s with
  | .over o => o
  | .run i t => exec i t

/-- `s` with the instruction of `nbits` bits `w` (numbered as spec/opcode_table.json numbers them) as the next move, issued
by an agent its port admits, on the operands that stand on the ports (log entry 3). -/
def State.withFetchWord (s : State) (nbits w : Nat) : State :=
  s.setSched (requestFor s.ports (tableWord nbits w) :: s.sched)

end Sys2Proof.Machine
end

