-- ==== Sys2Proof/Safety.lean ====
section
/-! DEFINITION. The terms statements use: the invariants of R26 and R30 and of the rest of the state, what a safe step is,
the clean entry of R167, the end of a run of R147, and feeding a byte sequence to DEC.PUSH (R83, R97). -/

namespace Sys2Proof.Machine

/-- A buffer of `cap` cells in canonical form: indices strictly rising, none past the end. -/
def Memory.Ok (m : Memory) (cap : Nat) : Prop := Memory.wf m ∧ Memory.below m cap

/-- DEC's invariants (R26). (a) and (b): the accumulation lies in its buffer and holds values, none of them 0x00. (c): the window
is open exactly when the frame is not empty (R23), and the frame lies in its buffer and holds values. -/
structure Dec.Inv (c : Config) (d : Dec) : Prop where
  acc_ok   : Memory.Ok d.acc c.accCap
  out_ok   : Memory.Ok d.out c.decCap
  acc_fits : d.accLen ≤ c.accCap
  acc_held : ∃ bs, Memory.readCells d.acc 0 d.accLen = some bs ∧ (0x00#8) ∉ bs
  out_fits : d.outLen ≤ c.decCap
  window   : d.frameValid = decide (0 < d.outLen)
  out_held : ∃ bs, Memory.readCells d.out 0 d.outLen = some bs

/-- The queue holds exactly the payloads `es`, the oldest first (R27, R30, R70): well-formed entries one after another from
`fq.rd` on, wrapping, and nothing else in the used span. -/
structure Fq.Holds (c : Config) (q : Fq) (es : List (List Byte)) : Prop where
  rd_lt   : q.rd < c.qCap
  wr_eq   : q.wr = (q.rd + q.used) % c.qCap
  used_le : q.used ≤ c.qCap
  lengths : ∀ e ∈ es, 1 ≤ e.length ∧ e.length ≤ c.qCap - 2
  bytes   : Memory.readRing c.qCap q.ring q.rd q.used = some (es.flatMap queueEntry)

/-- FQ's invariants (R30), with the lock free between steps (R31). -/
structure Fq.Inv (c : Config) (q : Fq) : Prop where
  ring_ok : Memory.Ok q.ring c.qCap
  lock_eq : q.lock = .free
  holds   : ∃ es, q.Holds c es

/-- The lifecycle (R34, R130 to R132): while Running no stop is requested and nothing is left to drain, and the bytes left to
drain are bytes of `env.input`. -/
structure State.LifecycleInv (s : State) : Prop where
  running_clear : s.host.state = .running → s.host.stop = false ∧ s.host.rxDrain = 0
  drain_le      : s.host.rxDrain ≤ s.env.input.length

/-- Every counter is a `CTR_WIDTH`-bit value (R35). -/
structure Stats.Inv (c : Config) (n : Stats) : Prop where
  framesReceived   : n.framesReceived < 2 ^ c.ctrWidth
  droppedRx        : n.droppedRx < 2 ^ c.ctrWidth
  packetsProcessed : n.packetsProcessed < 2 ^ c.ctrWidth
  droppedRender    : n.droppedRender < 2 ^ c.ctrWidth

/-- A routed packet of the render tick (R134 to R139): its payload is a view of `host.rbuf` past the header, whose cells hold
values, and its start pixel lies in its channel, a channel of the table. -/
structure State.Routed (s : State) (p : Packet) (ch : Channel) : Prop where
  view    : p.payload = { buf := .rbuf, base := hdrSize, size := p.payloadLen }
  fits    : hdrSize + p.payloadLen ≤ s.cfg.renderBufCap
  pixels  : p.pixelCount = p.payloadLen / 3
  held    : ∃ bs, Memory.readCells s.host.rbuf hdrSize p.payloadLen = some bs
  channel : ch ∈ s.cfg.channels
  start   : p.offset / 3 < ch.pixels

/-- The positions of the two loops (R133, R134): DEC.FRAME comes only while the window is open, PC.PARSE only on bytes that FQ.READ
wrote, BS.LIMIT and the LED driver calls only on a routed packet, and only a tick that has issued its calls awaits a flush
(R145). -/
structure State.LoopInv (s : State) : Prop where
  rx_frame   : s.host.rxAt = .frame → s.dec.frameValid = true
  tick_parse : ∀ n, s.host.tickAt = .parse n → n ≤ s.cfg.renderBufCap ∧ ∃ bs, Memory.readCells s.host.rbuf 0 n = some bs
  tick_route : ∀ p ch, (s.host.tickAt = .scale p ch ∨ s.host.tickAt = .pixels p ch) → s.Routed p ch
  flush      : s.env.flushPending ≠ none → s.host.tickAt = .count

/-- The invariant of the whole state. -/
structure State.Inv (s : State) : Prop where
  cfg_valid : s.cfg.valid = true
  dec       : s.dec.Inv s.cfg
  fq        : s.fq.Inv s.cfg
  rbuf_ok   : Memory.Ok s.host.rbuf s.cfg.renderBufCap
  dst_ok    : Memory.Ok s.caller.dst.cells s.caller.dst.size
  pix_ok    : Memory.Ok s.caller.pix.cells s.caller.pix.size
  lifecycle : s.LifecycleInv
  stats     : s.stats.Inv s.cfg
  loops     : s.LoopInv

/-- An LED driver call the channel table allows (R138: no out-of-bounds write): its output is a channel's, and a pixel
index lies below that channel's pixel count. -/
def LedCall.allowed (c : Config) : LedCall → Prop
  | .setPixel out index _ _ _ => ∃ ch ∈ c.channels, ch.out = out ∧ index < ch.pixels
  | .flush out => ∃ ch ∈ c.channels, ch.out = out

/-- The log of LED driver calls: every call is allowed, a flush that has not returned is the last call issued (R145), and a packet
whose calls are still to come starts inside a channel of the table (R137). -/
structure State.LedInv (s : State) : Prop where
  allowed : ∀ call ∈ s.env.ledLog, call.allowed s.cfg
  pending : ∀ out, s.env.flushPending = some out → s.env.ledLog.getLast? = some (.flush out)
  routed  : ∀ p ch, (s.host.tickAt = .scale p ch ∨ s.host.tickAt = .pixels p ch) →
    ch ∈ s.cfg.channels ∧ p.offset / 3 < ch.pixels

/-- What belongs to agent RX, and what only ENV changes, is the same (R34, R35, R54, R133). -/
structure State.SameForRx (s t : State) : Prop where
  dec            : t.dec = s.dec
  input          : t.env.input = s.env.input
  rxDrain        : t.host.rxDrain = s.host.rxDrain
  rxAt           : t.host.rxAt = s.host.rxAt
  framesReceived : t.stats.framesReceived = s.stats.framesReceived
  droppedRx      : t.stats.droppedRx = s.stats.droppedRx
  state          : t.host.state = s.host.state
  stop           : t.host.stop = s.host.stop

/-- What belongs to agent RENDER, and what only ENV changes, is the same (R34, R35, R37, R38, R54, R134). -/
structure State.SameForRender (s t : State) : Prop where
  rbuf             : t.host.rbuf = s.host.rbuf
  caller           : t.caller = s.caller
  ledLog           : t.env.ledLog = s.env.ledLog
  flushPending     : t.env.flushPending = s.env.flushPending
  tickAt           : t.host.tickAt = s.host.tickAt
  packetsProcessed : t.stats.packetsProcessed = s.stats.packetsProcessed
  droppedRender    : t.stats.droppedRender = s.stats.droppedRender
  state            : t.host.state = s.host.state
  stop             : t.host.stop = s.host.stop

/-- A step that ends in a next state: no model fault, no refusal (R153, R154). -/
def State.Safe (s : State) : Prop := ∃ t, step s = .next t

/-- The clean-entry premises (R167) on the state. -/
structure State.CleanEntry (s : State) : Prop where
  dec_idle   : s.dec.accLen = 0 ∧ s.dec.frameValid = false
  fq_empty   : s.fq.used = 0 ∧ s.fq.rd = s.fq.wr
  counters   : s.stats = Stats.zero
  stopped    : s.host.state = .stopped
  led_empty  : s.env.ledLog = []
  not_inside : s.fq.lock = .free ∧ s.host.rxAt = .idle ∧ s.host.tickAt = .idle ∧ s.env.flushPending = none

/-- The end of a run (R147): `env.input` is empty and ENV appends no more, no RX step is enabled, FQ.HASDATA is false and no
render tick is in progress. -/
structure State.Ended (s : State) : Prop where
  no_input  : s.env.input = []
  no_supply : ∀ bytes, Move.supply bytes ∈ s.sched → bytes = []
  no_rx     : s.rxEnabled = false ∧ s.host.rxAt = .idle
  no_data   : s.fq.hasData = false
  no_tick   : s.host.tickAt = .idle ∧ s.env.flushPending = none

/-- The state after `n` steps of agent `a` inside its HOST operation, with no other agent's step in between; none if one of them
stops. -/
def State.proceeds (a : Agent) : Nat → State → Option State
  | 0, s => some s
  | n + 1, s =>
    match proceed a s with
    | .next t => State.proceeds a n t
    | _ => none

/-- `s` with one byte on DEC's byte port, driven by RX (R40). -/
def State.withByte (s : State) (b : Byte) : State := s.setPorts { s.ports with agent := .rx, inByte := b }

/-- `DEC.FEED bytes` (R83): DEC.PUSH of each byte by RX, the `frame_ready` of each, and the state at the end; none if a push
does not answer. -/
def feed : List Byte → State → Option (List Bool × State)
  | [], s => some ([], s)
  | b :: bs, s =>
    match exec .decPush (s.withByte b) with
    | .next t =>
      match t.resp, feed bs t with
      | .frameReady r, some (rs, u) => some (r :: rs, u)
      | _, _ => none
    | _ => none

/-- `s` with a payload on the write port, driven by RX (R41). -/
def State.withPayload (s : State) (bs : List Byte) : State :=
  s.setPorts { s.ports with agent := .rx, wrData := bs.map some }

/-- `s` with a read of at most `n` bytes into `dst` on the read port, driven by RENDER (R41). -/
def State.withRead (s : State) (n : Nat) (dst : View) : State :=
  s.setPorts { s.ports with agent := .render, rdMax := n, rdDst := dst }

/-- The entry at the queue's head, if there is one, is at most `n` bytes long (R108's premise on a read). -/
def State.headFits (s : State) (n : Nat) : Prop :=
  ∀ h l, 0 < s.fq.used → Memory.readRing s.cfg.qCap s.fq.ring s.fq.rd 2 = some [h, l] → be16 h l ≤ n

/-- A sequence of FQ.WRITE and FQ.READ operations from `s` to `u` in which every read of a non-empty queue fits the entry at
its head (R108): the payloads of the successful writes and those of the successful reads, each in order. -/
inductive QueueTrace : State → List (List Byte) → List (List Byte) → State → Prop where
  | nil (s : State) : QueueTrace s [] [] s
  | accepted {s t u : State} {ws rs : List (List Byte)} (bs : List Byte)
      (h : exec .fqWrite (s.withPayload bs) = .next t) (hr : t.resp = .wrOk true) (rest : QueueTrace t ws rs u) :
      QueueTrace s (bs :: ws) rs u
  | refused {s t u : State} {ws rs : List (List Byte)} (bs : List Byte)
      (h : exec .fqWrite (s.withPayload bs) = .next t) (hr : t.resp = .wrOk false) (rest : QueueTrace t ws rs u) :
      QueueTrace s ws rs u
  | taken {s t u : State} {ws rs : List (List Byte)} (n : Nat) (dst : View) (bs : List Byte) (hf : s.headFits n)
      (h : exec .fqRead (s.withRead n dst) = .next t) (hr : t.resp = .read bs.length bs) (hb : 0 < bs.length)
      (rest : QueueTrace t ws rs u) : QueueTrace s ws (bs :: rs) u
  | nothing {s t u : State} {ws rs : List (List Byte)} (n : Nat) (dst : View) (hf : s.headFits n)
      (h : exec .fqRead (s.withRead n dst) = .next t) (hr : t.resp = .read 0 []) (rest : QueueTrace t ws rs u) :
      QueueTrace s ws rs u

end Sys2Proof.Machine
end

