-- ==== Sys2Proof/Certificates/Slice0/Obligations.lean ====
section
/-! DEFINITION. The statements for the provers: what the operations and the machine do, from the numbered rules of spec/.
A state's configuration is data, so a statement about every state is about every configuration. `s.ready i` says that the
agent on the ports may issue `i` and that `i` is enabled (R82, R31, R133, R134, R145). HOST.RX_BYTE and HOST.RENDER_TICK take
several steps, one a transaction (R5, R133): `exec` takes the first and `proceed` each later one, and `t.proceeds a n` is the state
after `n` of them with no other step in between. -/

section

open Sys2Proof Sys2Proof.Machine

/-! Command words, the step, construction and reset. -/

/-- R81: a command word spells an operation exactly as the table says, and no other word spells one. -/
def Obligations.DecodeWordIsTheCommandTable : Prop :=
  ∀ (w : CommandWord) (i : Instr), decodeWord w = .ok i ↔
    (w, i) ∈ [(0x10#8, Instr.decPush), (0x11#8, .decFrame), (0x20#8, .fqWrite), (0x21#8, .fqRead), (0x22#8, .fqSpace),
      (0x23#8, .fqHasData), (0x24#8, .fqUsage), (0x30#8, .pcParse), (0x40#8, .bsLimit), (0xF0#8, .hostBegin),
      (0xF1#8, .hostEnd), (0xF2#8, .hostRxByte), (0xF3#8, .hostRenderTick)]

/-- The decoder and the encoder agree on every operation and on every word that spells one (R81). -/
def Obligations.EncodeThenDecodeGivesTheOperation : Prop :=
  (∀ i : Instr, decodeWord (encode i) = .ok i) ∧ (∀ (w : CommandWord) (i : Instr), decodeWord w = .ok i → encode i = w)

/-- R82: a word that spells no operation is refused, and so is an operation from an agent its port does not admit: DEC, PC,
BS, FQ.WRITE and FQ.READ as R82 and R154 list them. A refusal carries no state, so none changes. -/
def Obligations.UndefinedWordsAndWrongAgentsAreRefused : Prop :=
  (∀ (s : State) (w : CommandWord) (p : Ports) (rest : List Move), s.cfg.valid = true → s.sched = .request w p :: rest →
    (∀ i, decodeWord w ≠ .ok i) → step s = .refused (.undefinedOperation w)) ∧
  (∀ (s : State) (i : Instr), i ∈ [Instr.decPush, .decFrame, .fqWrite] → s.ports.agent ≠ .rx →
    exec i s = .refused .wrongAgent) ∧
  (∀ (s : State) (i : Instr), i ∈ [Instr.fqRead, .pcParse, .bsLimit] → s.ports.agent ≠ .render →
    exec i s = .refused .wrongAgent)

/-- The step of a request is `exec` of the operation its word spells, on the state with the operands on the ports and the
request taken off the schedule (R5, R81). -/
def Obligations.StepRunsTheDecodedRequest : Prop :=
  ∀ (s : State) (w : CommandWord) (p : Ports) (rest : List Move) (i : Instr),
    s.cfg.valid = true → s.sched = .request w p :: rest → decodeWord w = .ok i →
      step s = exec i { s with sched := rest, ports := p }

/-- The steps that are no request: an input supply appends to `env.input` and changes nothing else (R39), an agent inside a HOST
operation takes its next transaction (R5, R133), RENDER fills one of its two buffers (R45) with the cells the move lists, where a
listed `⊥` and every index past the list hold no value (log entry 14), a fill while RENDER is not free and a flush return with no
flush pending wait (log entry 5), and with nothing scheduled nothing moves (log entry 3). The flush return of a pending flush and
the counter reads have statements of their own. -/
def Obligations.StepOfAMoveThatIsNoRequest : Prop :=
  ∀ s : State, s.cfg.valid = true →
    (∀ bytes rest, s.sched = .supply bytes :: rest →
      step s = .next { s with sched := rest, env := { s.env with input := s.env.input ++ bytes } }) ∧
    (∀ a rest, s.sched = .proceed a :: rest → step s = proceed a { s with sched := rest }) ∧
    (∀ cells rest, s.sched = .placeDst cells :: rest →
      (s.agentFree .render = true →
        ∃ b : Buf, step s = .next { s with sched := rest, caller := { s.caller with dst := b } } ∧
          b.size = cells.length ∧ Memory.wf b.cells ∧ ∀ k, Memory.read b.cells k = cells[k]?.join) ∧
      (s.agentFree .render = false → step s = .next { s with sched := rest, resp := .waits, reason := none })) ∧
    (∀ cells rest, s.sched = .placePix cells :: rest →
      (s.agentFree .render = true →
        ∃ b : Buf, step s = .next { s with sched := rest, caller := { s.caller with pix := b } } ∧
          b.size = cells.length ∧ Memory.wf b.cells ∧ ∀ k, Memory.read b.cells k = cells[k]?.join) ∧
      (s.agentFree .render = false → step s = .next { s with sched := rest, resp := .waits, reason := none })) ∧
    (∀ rest, s.sched = .flushReturn :: rest → s.env.flushPending = none →
      step s = .next { s with sched := rest, resp := .waits, reason := none }) ∧
    (s.sched = [] → step s = .next s)

/-- R8: exactly a configuration inside the bounds is constructed; every other is refused. -/
def Obligations.ConstructionChecksTheBounds : Prop :=
  ∀ c : Config,
    ((1 ≤ c.accCap ∧ c.accCap ≤ 65535 ∧ 1 ≤ c.decCap ∧ c.decCap ≤ 65535 ∧ 3 ≤ c.qCap ∧ c.qCap ≤ 65537 ∧
        1 ≤ c.renderBufCap ∧ c.renderBufCap ≤ 65535 ∧ 1 ≤ c.ctrWidth ∧
        (∀ ch ∈ c.channels, ch.pixels ≤ 65535) ∧ (c.channels.map Channel.id).Nodup) →
      State.construct c = .next (State.resetWith c)) ∧
    (¬ (1 ≤ c.accCap ∧ c.accCap ≤ 65535 ∧ 1 ≤ c.decCap ∧ c.decCap ≤ 65535 ∧ 3 ≤ c.qCap ∧ c.qCap ≤ 65537 ∧
        1 ≤ c.renderBufCap ∧ c.renderBufCap ≤ 65535 ∧ 1 ≤ c.ctrWidth ∧
        (∀ ch ∈ c.channels, ch.pixels ≤ 65535) ∧ (c.channels.map Channel.id).Nodup) →
      State.construct c = .refused .badConfig)

/-- R166: what reset leaves in every element the spec lists, for every configuration. -/
def Obligations.ResetValuesOfEveryElement : Prop :=
  ∀ c : Config,
    (State.resetWith c).cfg = c ∧
    (∀ a, Memory.read (State.resetWith c).dec.acc a = none) ∧ (State.resetWith c).dec.accLen = 0 ∧
    (∀ a, Memory.read (State.resetWith c).dec.out a = none) ∧ (State.resetWith c).dec.outLen = 0 ∧
    (State.resetWith c).dec.frameValid = false ∧
    (∀ a, Memory.read (State.resetWith c).fq.ring a = none) ∧ (State.resetWith c).fq.rd = 0 ∧
    (State.resetWith c).fq.wr = 0 ∧ (State.resetWith c).fq.used = 0 ∧ (State.resetWith c).fq.lock = .free ∧
    (State.resetWith c).host.state = .stopped ∧ (State.resetWith c).host.stop = false ∧
    (State.resetWith c).host.rxDrain = 0 ∧ (∀ a, Memory.read (State.resetWith c).host.rbuf a = none) ∧
    (State.resetWith c).stats.framesReceived = 0 ∧ (State.resetWith c).stats.droppedRx = 0 ∧
    (State.resetWith c).stats.packetsProcessed = 0 ∧ (State.resetWith c).stats.droppedRender = 0 ∧
    (State.resetWith c).env.ledLog = [] ∧ (State.resetWith c).env.input = []

/-- Reset of a valid configuration meets every invariant and the clean-entry premises (R26, R30, R34, R35, R138, R167). The
model's reset state is one such (log entry 1). -/
def Obligations.ResetMeetsTheInvariants : Prop :=
  (∀ c : Config, c.valid = true →
    (State.resetWith c).Inv ∧ (State.resetWith c).LedInv ∧ (State.resetWith c).CleanEntry) ∧ State.reset.Inv

/-! Whole-machine rules. -/

/-- Every step keeps the invariant: a valid configuration, DEC's R26, FQ's R30 with the lock free, every buffer in canonical form
within its size, the lifecycle registers in step with one another, every counter within its width, and each loop at a position
that its next transaction can be taken from (R133, R134, R145). -/
def Obligations.StepKeepsTheStateInvariant : Prop :=
  ∀ s t : State, s.Inv → step s = .next t → t.Inv

/-- Every step keeps the log of LED driver calls legal: each pixel write below its channel's pixel count on that channel's
output (R138: no out-of-bounds write), a flush that has not returned the last call issued (R145), and a packet whose calls are still
to come inside a channel of the table (R137). -/
def Obligations.StepKeepsLedCallsInBounds : Prop :=
  ∀ s t : State, s.LedInv → step s = .next t → t.LedInv

/-- No step changes a configuration value (R33, R36), and the log of LED driver calls only grows, in issue order (R38). -/
def Obligations.StepKeepsTheConfigurationAndAppendsToTheLedLog : Prop :=
  ∀ s t : State, step s = .next t → t.cfg = s.cfg ∧ ∃ calls, t.env.ledLog = s.env.ledLog ++ calls

/-- R54 and R35: what belongs to one context stays as it is when the other moves, in an operation it begins and in each later step
of a HOST operation. -/
def Obligations.ContextsDoNotTouchEachOthersState : Prop :=
  ∀ s t : State,
    (∀ i, exec i s = .next t →
      (s.ports.agent = .render → s.SameForRx t) ∧ (s.ports.agent = .rx → s.SameForRender t)) ∧
    (proceed .render s = .next t → s.SameForRx t) ∧ (proceed .rx s = .next t → s.SameForRender t)

/-! The frame decoder. -/

/-- DEC.PUSH of a data byte while there is room (R84): the byte is appended, the window closes, `frame_ready` is false, and
nothing else changes: no other cell of `dec.acc` and no cell of `dec.out`. With the window `dec.out_len` is 0 (R23; log entry
7). -/
def Obligations.DecPushAppendsADataByte : Prop :=
  ∀ s : State, s.ready .decPush = true → Memory.wf s.dec.acc → s.ports.inByte ≠ 0x00#8 → s.dec.accLen < s.cfg.accCap →
    ∃ t, exec .decPush s = .next t ∧
      t = { s with
              dec := { t.dec with out := s.dec.out, outLen := 0, frameValid := false }
              resp := .frameReady false
              reason := none } ∧
      t.dec.accLen = s.dec.accLen + 1 ∧
      (∀ a, Memory.read t.dec.acc a = if a = s.dec.accLen then some s.ports.inByte else Memory.read s.dec.acc a)

/-- DEC.PUSH of a data byte that finds the accumulation full (R89): everything accumulated is discarded, and the byte too or
it becomes the first of the new accumulation, as `ACC_OVERFLOW_KEEP_BYTE` says. With the window `dec.out_len` is 0 (log entry
7). -/
def Obligations.DecPushDiscardsAFullAccumulation : Prop :=
  ∀ s : State, s.ready .decPush = true → Memory.wf s.dec.acc → s.ports.inByte ≠ 0x00#8 →
    s.cfg.accCap ≤ s.dec.accLen →
    ∃ t, exec .decPush s = .next t ∧
      t = { s with
              dec := { t.dec with out := s.dec.out, outLen := 0, frameValid := false }
              resp := .frameReady false
              reason := some .decAccOverflow } ∧
      t.dec.accLen = (if s.cfg.accOverflowKeepByte then 1 else 0) ∧
      (∀ a, Memory.read t.dec.acc a =
        if s.cfg.accOverflowKeepByte = true ∧ a = 0 then some s.ports.inByte else Memory.read s.dec.acc a)

/-- R88: a delimiter with nothing accumulated gives `false` and the state of R94. -/
def Obligations.DelimiterWithNothingAccumulated : Prop :=
  ∀ s : State, s.ready .decPush = true → s.ports.inByte = 0x00#8 → s.dec.accLen = 0 →
    exec .decPush s =
      .next { s with
                dec := { acc := s.dec.acc, accLen := 0, out := [], outLen := 0, frameValid := false }
                resp := .frameReady false
                reason := some .decEmpty }

/-- R94: after a delimiter that does not produce a frame, whatever the cause, nothing is accumulated, no frame is exposed and
every cell of `dec.out` is `⊥`. -/
def Obligations.StateAfterNoFrame : Prop :=
  ∀ s t : State, s.ports.inByte = 0x00#8 → exec .decPush s = .next t → t.resp = .frameReady false →
    t.dec.accLen = 0 ∧ t.dec.outLen = 0 ∧ t.dec.frameValid = false ∧ ∀ a, Memory.read t.dec.out a = none

/-- A delimiter after an accumulation that Unstuff turns into bytes (R84, R86): the frame is exposed. That `dec.acc` and the cells
of `dec.out` past the frame keep what they held is the model's reading of R84 (log entry 16). -/
def Obligations.DelimiterExposesTheUnstuffedFrame : Prop :=
  ∀ (s : State) (inp frame : List Byte), s.ready .decPush = true → s.dec.Inv s.cfg → s.ports.inByte = 0x00#8 →
    s.dec.accLen ≠ 0 → Memory.readCells s.dec.acc 0 s.dec.accLen = some inp →
    unstuff s.cfg.truncPolicy s.cfg.decCap inp = .ok frame → frame ≠ [] →
    ∃ t, exec .decPush s = .next t ∧
      t = { s with
              dec := { t.dec with acc := s.dec.acc, accLen := 0, outLen := frame.length, frameValid := true }
              resp := .frameReady true
              reason := none } ∧
      Memory.readCells t.dec.out 0 frame.length = some frame ∧
      (∀ a, frame.length ≤ a → Memory.read t.dec.out a = Memory.read s.dec.out a)

/-- Unstuff run by run (R86), the output so far being `o`: the end of the input and a zero code end it (R93). A run of `n` bytes
fails as an overflow when it would bring a byte past `cap`, exactly `cap` bytes being none (R90). A run that promises more than
remains fails as truncated or gives what remains, as `TRUNC_RUN_POLICY` says (R91). After a whole run below 0xFF with more input
an implicit zero follows, which may overflow too. A delimiter after an accumulation that Unstuff fails on, or turns into no byte
(R92), answers `false` with the reason of R150. -/
def Obligations.UnstuffRunByRunAndDelimiterAfterItFails : Prop :=
  (∀ (pol : TruncPolicy) (cap : Nat) (inp : List Byte), unstuff pol cap inp = unstuffLoop pol cap inp.length inp []) ∧
  (∀ (pol : TruncPolicy) (cap : Nat) (o : List Byte), o.length ≤ cap →
    unstuffLoop pol cap 0 [] o = .ok o ∧
    ∀ (code : Byte) (rest : List Byte) (n : Nat), n = code.toNat - 1 →
      unstuffLoop pol cap (rest.length + 1) (code :: rest) o =
        if code = 0x00#8 then .ok o
        else if cap < o.length + min n rest.length then .error .decOverflow
        else if rest.length < n then
          if pol = .fail then .error .decTruncated else .ok (o ++ rest)
        else if code = 0xFF#8 ∨ rest.length = n then
          unstuffLoop pol cap (rest.length - n) (rest.drop n) (o ++ rest.take n)
        else if o.length + n = cap then .error .decOverflow
        else unstuffLoop pol cap (rest.length - n) (rest.drop n) (o ++ rest.take n ++ [0x00#8])) ∧
  (∀ (s : State) (inp : List Byte), s.ready .decPush = true → s.dec.Inv s.cfg → s.ports.inByte = 0x00#8 →
    s.dec.accLen ≠ 0 → Memory.readCells s.dec.acc 0 s.dec.accLen = some inp →
    (∀ r, unstuff s.cfg.truncPolicy s.cfg.decCap inp = .error r →
      exec .decPush s =
        .next { s with
                  dec := { acc := s.dec.acc, accLen := 0, out := [], outLen := 0, frameValid := false }
                  resp := .frameReady false
                  reason := some r }) ∧
    (unstuff s.cfg.truncPolicy s.cfg.decCap inp = .ok [] →
      exec .decPush s =
        .next { s with
                  dec := { acc := s.dec.acc, accLen := 0, out := [], outLen := 0, frameValid := false }
                  resp := .frameReady false
                  reason := some .decZeroLength }))

/-- R87 and R95: DEC.PUSH answers for every byte in every state that meets R26, and after a delimiter nothing is accumulated,
whether a frame was produced or not. -/
def Obligations.DecPushAlwaysAnswersAndDelimitersEmpty : Prop :=
  ∀ s : State, s.ready .decPush = true → s.dec.Inv s.cfg →
    ∃ t ready, exec .decPush s = .next t ∧ t.resp = .frameReady ready ∧ (s.ports.inByte = 0x00#8 → t.dec.accLen = 0)

/-- The frame of DEC.PUSH: it changes DEC and the response, and of the buffers only the one cell of `dec.acc` that a data byte
goes to, or on a delimiter the cells of `dec.out`. A data byte closes the window (log entry 7). -/
def Obligations.DecPushFrame : Prop :=
  ∀ s t : State, exec .decPush s = .next t → Memory.wf s.dec.acc →
    t = { s with dec := t.dec, resp := t.resp, reason := t.reason } ∧
    (∀ a, a ≠ (if s.dec.accLen < s.cfg.accCap then s.dec.accLen else 0) →
      Memory.read t.dec.acc a = Memory.read s.dec.acc a) ∧
    (s.ports.inByte = 0x00#8 → t.dec.acc = s.dec.acc) ∧
    (s.ports.inByte ≠ 0x00#8 → t.dec.out = s.dec.out ∧ (t.resp ≠ .waits → t.dec.outLen = 0 ∧ t.dec.frameValid = false))

/-- R85: inside the window DEC.FRAME gives the `dec.out_len` bytes of the frame, between 1 and `DEC_CAP` of them, and changes no
state, so it may be repeated with the same result; outside the window it faults. -/
def Obligations.DecFrameReadsTheExposedFrame : Prop :=
  ∀ s : State, s.ready .decFrame = true → s.dec.Inv s.cfg →
    (s.dec.frameValid = true → ∃ bs, Memory.readCells s.dec.out 0 s.dec.outLen = some bs ∧
      1 ≤ s.dec.outLen ∧ s.dec.outLen ≤ s.cfg.decCap ∧
      exec .decFrame s = .next { s with resp := .frame s.dec.outLen bs, reason := none }) ∧
    (s.dec.frameValid = false → exec .decFrame s = .fault .frameNotValid)

/-- R97: every byte sequence of 1 to `DEC_CAP` bytes whose stuffed form fits `ACC_CAP` survives the round trip through the
reference encoder and DEC, from any state with nothing accumulated in which RX may push (it is not inside HOST.RX_BYTE). -/
def Obligations.StuffedFramesDecodeToThemselves : Prop :=
  ∀ (s : State) (d : List Byte), s.host.rxAt = .idle → Memory.wf s.dec.acc → Memory.wf s.dec.out → s.dec.accLen = 0 →
    1 ≤ d.length → d.length ≤ s.cfg.decCap → (stuff d).length ≤ s.cfg.accCap →
    ∃ t, feed (wire d) s = some (List.replicate (stuff d).length false ++ [true], t) ∧
      exec .decFrame t = .next { t with resp := .frame d.length d, reason := none }

/-- R96: Unstuff gives at least one byte fewer than it takes, under either policy, so DEC.PUSH never overflows its output when
`DEC_CAP >= ACC_CAP - 1`. -/
def Obligations.UnstuffGivesFewerBytesThanItTakes : Prop :=
  (∀ (pol : TruncPolicy) (cap : Nat) (inp o : List Byte), inp ≠ [] → unstuff pol cap inp = .ok o →
    o.length + 1 ≤ inp.length) ∧
  (∀ s t : State, s.cfg.accCap ≤ s.cfg.decCap + 1 → exec .decPush s = .next t → t.reason ≠ some .decOverflow)

/-- R69: the stuffed form's exact length and its bound, that it holds no 0x00, and the stuffed form of nothing. -/
def Obligations.StuffedLength : Prop :=
  (∀ d : List Byte, (stuff d).length = d.length + 1 + ((splitZeros d).map (fun seg => seg.length / 254)).sum ∧
    (stuff d).length ≤ d.length + 1 + d.length / 254 ∧ (0x00#8) ∉ stuff d) ∧ stuff [] = [0x01#8]

/-- R98: what DEC makes of the bytes after a delimiter owes nothing to what came before it. Two decoders of one configuration
with nothing accumulated, the second with RX free to push, answer the same bytes alike, and the frames they expose are the
same. -/
def Obligations.ResynchronisationAfterADelimiter : Prop :=
  ∀ (s s' t : State) (bs : List Byte) (rs : List Bool), s'.cfg = s.cfg → s'.host.rxAt = .idle →
    Memory.wf s.dec.acc → Memory.wf s'.dec.acc → Memory.wf s.dec.out → Memory.wf s'.dec.out →
    s.dec.accLen = 0 → s'.dec.accLen = 0 → feed bs s = some (rs, t) →
    ∃ t', feed bs s' = some (rs, t') ∧ t'.dec.accLen = t.dec.accLen ∧
      (bs ≠ [] → t'.dec.frameValid = t.dec.frameValid ∧
        (t.dec.frameValid = true → t'.dec.outLen = t.dec.outLen ∧
          ∀ k, k < t.dec.outLen → Memory.read t'.dec.out k = Memory.read t.dec.out k))

/-! The frame queue. -/

/-- R100: the three refusals of FQ.WRITE change nothing. -/
def Obligations.FqWriteRefusalChangesNothing : Prop :=
  ∀ s : State, s.ready .fqWrite = true →
    (s.ports.wrData.length = 0 ∨ s.cfg.qCap < s.ports.wrData.length ∨
      s.cfg.qCap - s.fq.used < s.ports.wrData.length + 2) →
    exec .fqWrite s =
      .next { s with
                resp := .wrOk false
                reason := some (if s.ports.wrData.length = 0 then .fqEmptyPayload else .fqNoSpace) }

/-- R99 with R47 and R52: an entry that fits is stored from the write index on, its length big-endian before its payload, each
index mod `Q_CAP`; every other ring cell, the read index and the lock stay. -/
def Obligations.FqWriteStoresOneEntry : Prop :=
  ∀ (s : State) (bs : List Byte), s.ready .fqWrite = true → Memory.wf s.fq.ring → s.cfg.qCap ≤ 65537 →
    s.ports.wrData = bs.map some → 1 ≤ bs.length → bs.length + 2 ≤ s.cfg.qCap - s.fq.used →
    ∃ t, exec .fqWrite s = .next t ∧
      t = { s with fq := { t.fq with rd := s.fq.rd, lock := s.fq.lock }, resp := .wrOk true, reason := none } ∧
      t.fq.wr = (s.fq.wr + 2 + bs.length) % s.cfg.qCap ∧ t.fq.used = s.fq.used + 2 + bs.length ∧
      Memory.read t.fq.ring (s.fq.wr % s.cfg.qCap) = some (BitVec.ofNat 8 (bs.length / 256)) ∧
      Memory.read t.fq.ring ((s.fq.wr + 1) % s.cfg.qCap) = some (BitVec.ofNat 8 (bs.length % 256)) ∧
      (∀ k, k < bs.length → Memory.read t.fq.ring ((s.fq.wr + 2 + k) % s.cfg.qCap) = bs[k]?) ∧
      (∀ a, (∀ k, k < bs.length + 2 → a ≠ (s.fq.wr + k) % s.cfg.qCap) →
        Memory.read t.fq.ring a = Memory.read s.fq.ring a)

/-- R102: a read of a queue with fewer than 2 bytes returns 0 and changes nothing. Under R30 that is the empty queue. -/
def Obligations.FqReadOfAnEmptyQueue : Prop :=
  ∀ s : State, s.ready .fqRead = true → s.ports.rdMax ≤ s.viewCells s.ports.rdDst → s.fq.used < 2 →
    exec .fqRead s = .next { s with resp := .read 0 [], reason := some .fqEmpty } ∧
      (s.cfg.valid = true → s.fq.Inv s.cfg → s.fq.used = 0)

/-- R103: a header length that is 0, above `maxLength`, or above the bytes queued behind it resets the whole queue: the read
index goes to the write index, the used count to 0, and the write index and the ring stay. Under R30 the length can only be
above `maxLength`. -/
def Obligations.FqReadResetsACorruptQueue : Prop :=
  ∀ (s : State) (h l : Byte), s.ready .fqRead = true → s.ports.rdMax ≤ s.viewCells s.ports.rdDst → 2 ≤ s.fq.used →
    Memory.readRing s.cfg.qCap s.fq.ring s.fq.rd 2 = some [h, l] →
    (be16 h l = 0 ∨ s.ports.rdMax < be16 h l ∨ s.fq.used - 2 < be16 h l) →
    exec .fqRead s =
      .next { s with
                fq := { s.fq with rd := s.fq.wr, used := 0 }
                resp := .read 0 []
                reason := some (if be16 h l = 0 then .fqZeroLength
                  else if s.ports.rdMax < be16 h l then .fqTooLong else .fqShortQueue) } ∧
      (s.cfg.valid = true → s.fq.Inv s.cfg → s.ports.rdMax < be16 h l)

/-- R101: an entry that passes the checks is copied to the first cells of the destination and taken off the queue; the ring,
the write index, the lock, the destination's other cells and every other buffer stay. -/
def Obligations.FqReadTakesTheHeadEntry : Prop :=
  ∀ (s : State) (h l : Byte) (bs : List Byte), s.ready .fqRead = true →
    s.ports.rdMax ≤ s.viewCells s.ports.rdDst → Memory.wf (s.buf s.ports.rdDst.buf).cells → 2 ≤ s.fq.used →
    Memory.readRing s.cfg.qCap s.fq.ring s.fq.rd 2 = some [h, l] → 1 ≤ be16 h l → be16 h l ≤ s.ports.rdMax →
    be16 h l ≤ s.fq.used - 2 → Memory.readRing s.cfg.qCap s.fq.ring (s.fq.rd + 2) (be16 h l) = some bs →
    ∃ t, exec .fqRead s = .next t ∧
      t = { s with
              fq := { s.fq with rd := (s.fq.rd + 2 + be16 h l) % s.cfg.qCap, used := s.fq.used - 2 - be16 h l }
              host := { s.host with rbuf := t.host.rbuf }
              caller := t.caller
              resp := .read (be16 h l) bs
              reason := none } ∧
      Memory.readCells (t.buf s.ports.rdDst.buf).cells s.ports.rdDst.base (be16 h l) = some bs ∧
      (∀ a, (a < s.ports.rdDst.base ∨ s.ports.rdDst.base + be16 h l ≤ a) →
        Memory.read (t.buf s.ports.rdDst.buf).cells a = Memory.read (s.buf s.ports.rdDst.buf).cells a) ∧
      (∀ b, b ≠ s.ports.rdDst.buf → t.buf b = s.buf b) ∧ (∀ b, (t.buf b).size = (s.buf b).size)

/-- FQ as a queue of payloads, one operation at a time (R99, R101, R102, R103): a write appends or is refused, a read takes the
oldest payload, finds nothing, or empties a queue whose oldest payload is too long for it. -/
def Obligations.QueueOperationsRefineAListOfPayloads : Prop :=
  ∀ (s : State) (es : List (List Byte)), s.cfg.valid = true → s.fq.Inv s.cfg → s.fq.Holds s.cfg es →
    (∀ bs, s.agentFree .rx = true → ∃ t, exec .fqWrite (s.withPayload bs) = .next t ∧
      ((t.resp = .wrOk true ∧ 1 ≤ bs.length ∧ bs.length + 2 ≤ s.cfg.qCap - s.fq.used ∧ t.fq.Holds t.cfg (es ++ [bs])) ∨
        (t.resp = .wrOk false ∧ (bs.length = 0 ∨ s.cfg.qCap - s.fq.used < bs.length + 2) ∧ t.fq = s.fq))) ∧
    (∀ n dst, s.agentFree .render = true → n ≤ s.viewCells dst → ∃ t, exec .fqRead (s.withRead n dst) = .next t ∧
      match es with
      | [] => t.resp = .read 0 [] ∧ t.fq = s.fq
      | e :: rest =>
        if e.length ≤ n then t.resp = .read e.length e ∧ t.fq.Holds t.cfg rest
        else t.resp = .read 0 [] ∧ t.fq.Holds t.cfg [])

/-- R108: over any sequence of writes and reads from an empty queue in which every read fits the entry at the head, the
payloads read and then those still queued are the payloads written, in order, each once. -/
def Obligations.QueueIsFirstInFirstOut : Prop :=
  ∀ (s u : State) (ws rs : List (List Byte)), s.cfg.valid = true → s.fq.Inv s.cfg → s.fq.used = 0 →
    QueueTrace s ws rs u → ∃ es, ws = rs ++ es ∧ u.fq.Holds u.cfg es

/-- R104, R105, R106: the three queries answer from the used count and change nothing. -/
def Obligations.QueueQueriesAnswerTheUsedCount : Prop :=
  ∀ s : State,
    (s.ready .fqSpace = true →
      exec .fqSpace s = .next { s with resp := .space (s.cfg.qCap - s.fq.used), reason := none }) ∧
    (s.ready .fqHasData = true →
      exec .fqHasData s = .next { s with resp := .hasData (decide (0 < s.fq.used)), reason := none }) ∧
    (s.ready .fqUsage = true →
      exec .fqUsage s = .next { s with resp := .usage (s.fq.used * 100 / s.cfg.qCap), reason := none })

/-- The corner cases of R104 to R106 on R30's states: USAGE is in 0..100 and 100 only on a full ring, HASDATA means that an
entry is queued, and a write of `L` bytes succeeds exactly when `1 <= L` and `L + 2 <= FQ.SPACE`. -/
def Obligations.QueueQueriesAndWhatAWriteMayDo : Prop :=
  ∀ s : State, s.cfg.valid = true → s.fq.Inv s.cfg →
    s.fq.usage s.cfg ≤ 100 ∧ (s.fq.usage s.cfg = 100 ↔ s.fq.used = s.cfg.qCap) ∧ s.fq.space s.cfg ≤ s.cfg.qCap ∧
    (s.fq.hasData = true ↔ 3 ≤ s.fq.used) ∧
    (∀ bs t, s.agentFree .rx = true → exec .fqWrite (s.withPayload bs) = .next t →
      (t.resp = .wrOk true ↔ 1 ≤ bs.length ∧ bs.length + 2 ≤ s.fq.space s.cfg))

/-! The protocol codec. -/

/-- R79 and R116: PC.PARSE of a buffer that passes every check gives the Packet record, field by field, and writes nothing. -/
def Obligations.PcParseGivesThePacket : Prop :=
  ∀ (s : State) (b0 b1 b2 b3 b4 b5 b6 b7 b8 b9 : Byte), s.ready .pcParse = true →
    s.ports.pcLength ≤ s.viewCells s.ports.pcBuf →
    Memory.readCells (s.buf s.ports.pcBuf.buf).cells s.ports.pcBuf.base 10 = some [b0, b1, b2, b3, b4, b5, b6, b7, b8, b9] →
    b0.toNat / 64 = 1 → (b2 = 0x00#8 ∨ b2 = 0x01#8) → 1 ≤ be16 b8 b9 → be16 b8 b9 ≤ 1440 →
    10 + be16 b8 b9 ≤ s.ports.pcLength →
    ∃ p, exec .pcParse s = .next { s with resp := .packet p, reason := none } ∧
      p.flags = b0 ∧ p.version = 0b01#2 ∧ p.push = decide (b0.toNat % 2 = 1) ∧ p.sequence.toNat = b1.toNat % 16 ∧
      p.dataType = b2 ∧ p.dest = b3 ∧
      p.offset = ((b4.toNat * 256 + b5.toNat) * 256 + b6.toNat) * 256 + b7.toNat ∧
      p.payloadLen = b8.toNat * 256 + b9.toNat ∧
      p.payload = { buf := s.ports.pcBuf.buf, base := s.ports.pcBuf.base + 10, size := b8.toNat * 256 + b9.toNat } ∧
      p.pixelCount = (b8.toNat * 256 + b9.toNat) / 3

/-- R111 to R115 in R117's order: the first check that fails gives the failure, whatever the later bytes hold; a buffer shorter
than a header fails without a byte of it read. No failure changes any state. -/
def Obligations.PcParseFailsInTheListedOrder : Prop :=
  ∀ s : State, s.ready .pcParse = true → s.ports.pcLength ≤ s.viewCells s.ports.pcBuf →
    (s.ports.pcLength < 10 → exec .pcParse s = .next { s with resp := .parseFail, reason := some .short }) ∧
    (10 ≤ s.ports.pcLength → ∀ b0, s.viewByte s.ports.pcBuf 0 = .ok b0 →
      (b0.toNat / 64 ≠ 1 → exec .pcParse s = .next { s with resp := .parseFail, reason := some .version }) ∧
      (b0.toNat / 64 = 1 → ∀ b2, s.viewByte s.ports.pcBuf 2 = .ok b2 →
        (b2 ≠ 0x00#8 → b2 ≠ 0x01#8 → exec .pcParse s = .next { s with resp := .parseFail, reason := some .dataType }) ∧
        ((b2 = 0x00#8 ∨ b2 = 0x01#8) → ∀ b8 b9, s.viewByte s.ports.pcBuf 8 = .ok b8 → s.viewByte s.ports.pcBuf 9 = .ok b9 →
          ((be16 b8 b9 = 0 ∨ 1440 < be16 b8 b9) →
            exec .pcParse s = .next { s with resp := .parseFail, reason := some .payloadLength }) ∧
          (1 ≤ be16 b8 b9 → be16 b8 b9 ≤ 1440 → s.ports.pcLength < 10 + be16 b8 b9 →
            exec .pcParse s = .next { s with resp := .parseFail, reason := some .truncated }))))

/-- R118: PC.PARSE depends on the buffer's header bytes and the length alone. Two states that offer the same view and length,
with enough cells, and agree on those bytes get the same answer, and neither changes anything but the answer. -/
def Obligations.PcParseIsAFunctionOfItsBytes : Prop :=
  ∀ s s' t : State, s.ready .pcParse = true → s'.ready .pcParse = true → s'.ports.pcBuf = s.ports.pcBuf →
    s'.ports.pcLength = s.ports.pcLength → s'.ports.pcLength ≤ s'.viewCells s'.ports.pcBuf →
    (∀ k, k < min s.ports.pcLength 10 → Memory.read (s'.buf s.ports.pcBuf.buf).cells (s.ports.pcBuf.base + k) =
      Memory.read (s.buf s.ports.pcBuf.buf).cells (s.ports.pcBuf.base + k)) →
    exec .pcParse s = .next t →
    t = { s with resp := t.resp, reason := t.reason } ∧ exec .pcParse s' = .next { s' with resp := t.resp, reason := t.reason }

/-- The frame of the operations that store nothing: DEC.FRAME, the three queries and PC.PARSE leave everything but the
response (R32, R44, R51). -/
def Obligations.ReadOnlyOperationsFrame : Prop :=
  ∀ (i : Instr) (s t : State), i ∈ [Instr.decFrame, .fqSpace, .fqHasData, .fqUsage, .pcParse] → exec i s = .next t →
    t = { s with resp := t.resp, reason := t.reason }

/-! The brightness scaler. -/

/-- R119 to R124: BS.LIMIT counts the lit pixels of the call, picks the scale, and replaces each of the `3 × count` bytes `c`
by `c × scale / 256`, or leaves them at scale 255 under `FULL_SCALE_IDENTITY`. Every other cell of the buffer, every other
buffer and everything else stays. -/
def Obligations.BsLimitScalesEveryByte : Prop :=
  ∀ (s : State) (px : List Byte) (lit scale : Nat), s.ready .bsLimit = true →
    s.ports.bsMinScale ≤ s.ports.bsMaxScale → s.ports.bsMaxScale ≤ 255 →
    3 * s.ports.bsCount ≤ s.viewCells s.ports.bsPix → Memory.wf (s.buf s.ports.bsPix.buf).cells →
    Memory.readCells (s.buf s.ports.bsPix.buf).cells s.ports.bsPix.base (3 * s.ports.bsCount) = some px →
    lit = ((List.range s.ports.bsCount).filter (fun i =>
      decide (px[3 * i]? ≠ some 0x00#8 ∨ px[3 * i + 1]? ≠ some 0x00#8 ∨ px[3 * i + 2]? ≠ some 0x00#8))).length →
    scale = (if lit ≤ s.ports.bsThreshold then s.ports.bsMaxScale
      else if s.ports.bsTotal ≤ lit then s.ports.bsMinScale
      else s.ports.bsMaxScale - (lit - s.ports.bsThreshold) * (s.ports.bsMaxScale - s.ports.bsMinScale) /
        (s.ports.bsTotal - s.ports.bsThreshold)) →
    ∃ t qx, exec .bsLimit s = .next t ∧
      t = { s with host := { s.host with rbuf := t.host.rbuf }, caller := t.caller, resp := .done, reason := none } ∧
      Memory.readCells (t.buf s.ports.bsPix.buf).cells s.ports.bsPix.base (3 * s.ports.bsCount) = some qx ∧
      qx.map BitVec.toNat = px.map (fun c =>
        if scale = 255 ∧ s.cfg.fullScaleIdentity = true then c.toNat else c.toNat * scale / 256) ∧
      (∀ a, (a < s.ports.bsPix.base ∨ s.ports.bsPix.base + 3 * s.ports.bsCount ≤ a) →
        Memory.read (t.buf s.ports.bsPix.buf).cells a = Memory.read (s.buf s.ports.bsPix.buf).cells a) ∧
      (∀ b, b ≠ s.ports.bsPix.buf → t.buf b = s.buf b) ∧ (∀ b, (t.buf b).size = (s.buf b).size)

/-- R123: in every branch the scale lies between the two limits. -/
def Obligations.ScaleStaysBetweenTheLimits : Prop :=
  ∀ lit totalLEDs threshold maxScale minScale : Nat, minScale ≤ maxScale →
    minScale ≤ selectScale lit totalLEDs threshold maxScale minScale ∧
      selectScale lit totalLEDs threshold maxScale minScale ≤ maxScale

/-- R126: scale parameters outside `0 <= minScale <= maxScale <= 255` are refused, whatever the buffer. -/
def Obligations.BsLimitRefusesBadScales : Prop :=
  ∀ s : State, s.ready .bsLimit = true → (s.ports.bsMaxScale < s.ports.bsMinScale ∨ 255 < s.ports.bsMaxScale) →
    exec .bsLimit s = .refused .badScaleParams

/-- R125: a call that selects scale 255 changes no byte under `FULL_SCALE_IDENTITY`; without it the formula of R124 acts, and
255 becomes 254. -/
def Obligations.FullScaleIsTheIdentity : Prop :=
  ∀ (c : Config) (px : List Byte),
    (c.fullScaleIdentity = true → scalePixels c 255 px = px) ∧
    (c.fullScaleIdentity = false → (scalePixels c 255 px).map BitVec.toNat = px.map (fun b => b.toNat * 255 / 256))

/-- R127: a permutation of the pixels before the call gives the same permutation of the results. -/
def Obligations.BsLimitIsOrderIndependent : Prop :=
  ∀ (c : Config) (n total thr mx mn : Nat) (px : Fin n → Byte × Byte × Byte) (p : Equiv.Perm (Fin n))
    (bytes : (Fin n → Byte × Byte × Byte) → List Byte),
    (∀ f, bytes f = (List.ofFn f).flatMap (fun x => [x.1, x.2.1, x.2.2])) →
    litCount (bytes (px ∘ p)) = litCount (bytes px) ∧
    ∀ out : Fin n → Byte × Byte × Byte,
      scalePixels c (selectScale (litCount (bytes px)) total thr mx mn) (bytes px) = bytes out →
      scalePixels c (selectScale (litCount (bytes (px ∘ p))) total thr mx mn) (bytes (px ∘ p)) = bytes (out ∘ p)

/-- R124 and R128: a scaled byte is at most 254 for every scale up to 255, and a scale below 255 (255 too) makes every non-zero
byte smaller, so a second call would change it again. -/
def Obligations.ScaledBytesShrink : Prop :=
  ∀ (scale : Nat) (c : Byte), scale ≤ 255 →
    (scaleByte scale c).toNat = c.toNat * scale / 256 ∧ (scaleByte scale c).toNat ≤ 254 ∧
      (1 ≤ c.toNat → (scaleByte scale c).toNat < c.toNat)

/-! Contracts broken by a caller. -/

/-- R153: FQ.READ, PC.PARSE and BS.LIMIT of a buffer with fewer cells than the length operand fault; FQ.WRITE of a payload that
fits and BS.LIMIT of its pixels fault on a `⊥` cell (R57), and so does PC.PARSE on each header cell where R110's pseudocode
reaches it: cell 0, then cell 2 after the version, cells 8 and 9 after the data type, and cells 1 and 3 to 7 after every check. -/
def Obligations.BrokenBufferContractsFault : Prop :=
  ∀ s : State,
    (s.ready .fqRead = true → s.viewCells s.ports.rdDst < s.ports.rdMax → exec .fqRead s = .fault .bufferTooSmall) ∧
    (s.ready .pcParse = true → s.viewCells s.ports.pcBuf < s.ports.pcLength → exec .pcParse s = .fault .bufferTooSmall) ∧
    (s.ready .bsLimit = true → s.ports.bsMinScale ≤ s.ports.bsMaxScale → s.ports.bsMaxScale ≤ 255 →
      s.viewCells s.ports.bsPix < 3 * s.ports.bsCount → exec .bsLimit s = .fault .bufferTooSmall) ∧
    (s.ready .fqWrite = true → 1 ≤ s.ports.wrData.length → s.ports.wrData.length + 2 ≤ s.cfg.qCap - s.fq.used →
      none ∈ s.ports.wrData → exec .fqWrite s = .fault .readUnwritten) ∧
    (s.ready .pcParse = true → s.ports.pcLength ≤ s.viewCells s.ports.pcBuf → 10 ≤ s.ports.pcLength →
      ∀ cell : Nat → Option Byte, (∀ k, cell k = Memory.read (s.buf s.ports.pcBuf.buf).cells (s.ports.pcBuf.base + k)) →
        (cell 0 = none → exec .pcParse s = .fault .readUnwritten) ∧
        (∀ b0, cell 0 = some b0 → b0.toNat / 64 = 1 →
          (cell 2 = none → exec .pcParse s = .fault .readUnwritten) ∧
          (∀ b2, cell 2 = some b2 → b2 = 0x00#8 ∨ b2 = 0x01#8 →
            (cell 8 = none ∨ cell 9 = none → exec .pcParse s = .fault .readUnwritten) ∧
            (∀ b8 b9, cell 8 = some b8 → cell 9 = some b9 → 1 ≤ be16 b8 b9 → be16 b8 b9 ≤ 1440 →
              10 + be16 b8 b9 ≤ s.ports.pcLength →
              (∃ k ∈ [1, 3, 4, 5, 6, 7], cell k = none) → exec .pcParse s = .fault .readUnwritten)))) ∧
    (s.ready .bsLimit = true → s.ports.bsMinScale ≤ s.ports.bsMaxScale → s.ports.bsMaxScale ≤ 255 →
      3 * s.ports.bsCount ≤ s.viewCells s.ports.bsPix →
      (∃ k, k < 3 * s.ports.bsCount ∧ Memory.read (s.buf s.ports.bsPix.buf).cells (s.ports.bsPix.base + k) = none) →
      exec .bsLimit s = .fault .readUnwritten)

/-! The host pipeline. -/

/-- R130: HOST.BEGIN while Stopped zeroes the counters, clears the stop flag and the drain count and starts the pipeline; while
Running it changes nothing. DEC and FQ stay either way. -/
def Obligations.HostBeginStartsThePipeline : Prop :=
  ∀ s : State, s.ready .hostBegin = true →
    (s.host.state = .stopped → exec .hostBegin s =
      .next { s with
                stats := { framesReceived := 0, droppedRx := 0, packetsProcessed := 0, droppedRender := 0 }
                host := { s.host with state := .running, stop := false, rxDrain := 0 }
                resp := .done
                reason := none }) ∧
    (s.host.state = .running → exec .hostBegin s = .next { s with resp := .done, reason := none })

/-- R131: HOST.END while Running requests the stop, stops, and lets RX drain the bytes now in `env.input`; while Stopped it
changes nothing. -/
def Obligations.HostEndStopsThePipeline : Prop :=
  ∀ s : State, s.ready .hostEnd = true →
    (s.host.state = .running → exec .hostEnd s =
      .next { s with
                host := { s.host with state := .stopped, stop := true, rxDrain := s.env.input.length }
                resp := .done
                reason := none }) ∧
    (s.host.state = .stopped → exec .hostEnd s = .next { s with resp := .done, reason := none })

/-- The first step of HOST.RX_BYTE (R133): the oldest byte is consumed, DEC takes it, and while Stopped one drained byte is used up
(R132). With no frame the operation is over; with one, DEC.FRAME comes next. -/
def Obligations.RxByteFeedsTheDecoder : Prop :=
  ∀ (s : State) (b : Byte) (rest : List Byte) (d : Dec) (ready : Bool) (why : Option Reason), s.ready .hostRxByte = true →
    s.env.input = b :: rest → s.dec.push s.cfg b = .ok (d, ready, why) →
    exec .hostRxByte s =
      .next { s with
                env := { s.env with input := rest }
                host := { s.host with
                            rxDrain := if s.host.state = .stopped then s.host.rxDrain - 1 else s.host.rxDrain
                            rxAt := if ready then .frame else .idle }
                dec := d
                resp := if ready then .frameReady true else .done
                reason := why }

/-- HOST.RX_BYTE of the delimiter that completes a frame (R133), with no other step between its own: after DEC.PUSH, the three later
steps read the frame, hand it to FQ and count it, an accepted one in `stats.frames_received`, a refused one in
`stats.dropped_rx`, modulo `2^CTR_WIDTH` (R35). -/
def Obligations.RxByteQueuesACompletedFrame : Prop :=
  ∀ (s : State) (b : Byte) (rest frame : List Byte) (d : Dec) (why : Option Reason) (es : List (List Byte)),
    s.ready .hostRxByte = true → s.Inv → s.fq.Holds s.cfg es → s.env.input = b :: rest →
    s.dec.push s.cfg b = .ok (d, true, why) → Memory.readCells d.out 0 d.outLen = some frame →
    ∃ t1 t, exec .hostRxByte s = .next t1 ∧ t1.proceeds .rx 3 = some t ∧ t.dec = d ∧
      t.env = { s.env with input := rest } ∧
      t.host = { s.host with rxDrain := if s.host.state = .stopped then s.host.rxDrain - 1 else s.host.rxDrain } ∧
      t.resp = .done ∧ t.caller = s.caller ∧ t.cfg = s.cfg ∧
      (frame.length + 2 ≤ s.cfg.qCap - s.fq.used →
        t.fq.Holds t.cfg (es ++ [frame]) ∧ t.reason = none ∧
        t.stats = { s.stats with framesReceived := (s.stats.framesReceived + 1) % 2 ^ s.cfg.ctrWidth }) ∧
      (s.cfg.qCap - s.fq.used < frame.length + 2 →
        t.fq = s.fq ∧ t.reason = some .fqNoSpace ∧
        t.stats = { s.stats with droppedRx := (s.stats.droppedRx + 1) % 2 ^ s.cfg.ctrWidth })

/-- R132 and R133: HOST.RX_BYTE that is not enabled (no byte, Stopped with nothing left to drain, or RX still inside the last one)
changes nothing; while Stopped every one taken uses up one of the bytes left to drain, so at most `host.rx_drain` more are taken.
The answer `waits` is the model's (log entry 5). -/
def Obligations.RxStepsAfterEndAreBounded : Prop :=
  ∀ s : State, s.ports.agent = .rx →
    ((s.env.input = [] ∨ (s.host.state = .stopped ∧ s.host.rxDrain = 0) ∨ s.host.rxAt ≠ .idle) →
      exec .hostRxByte s = .next { s with resp := .waits, reason := none }) ∧
    (∀ t, exec .hostRxByte s = .next t → t.resp ≠ .waits → s.host.state = .stopped →
      0 < s.host.rxDrain ∧ t.host.rxDrain + 1 = s.host.rxDrain ∧ t.env.input.length + 1 = s.env.input.length)

/-- The HOST operations have no fault of their own (R130, R131, R133, R134): on the invariant's states each one issued by its
agent answers a next state, and so does every later step of one. -/
def Obligations.HostOperationsNeverStop : Prop :=
  ∀ s : State, s.Inv →
    (s.ports.agent = .env → (∃ t, exec .hostBegin s = .next t) ∧ (∃ t, exec .hostEnd s = .next t)) ∧
    (s.ports.agent = .rx → ∃ t, exec .hostRxByte s = .next t) ∧
    (s.ports.agent = .render → ∃ t, exec .hostRenderTick s = .next t) ∧ (∀ a, ∃ t, proceed a s = .next t)

/-- The first step of HOST.RENDER_TICK (R134): on an empty queue it returns at once and changes nothing, Running or Stopped (R142);
with data queued FQ.READ comes next. -/
def Obligations.RenderTickLooksAtTheQueueFirst : Prop :=
  ∀ s : State, s.ready .hostRenderTick = true →
    (s.fq.used = 0 → exec .hostRenderTick s = .next { s with resp := .done, reason := none }) ∧
    (0 < s.fq.used → exec .hostRenderTick s =
      .next { s with host := { s.host with tickAt := .read }, resp := .hasData true, reason := none })

/-- HOST.RENDER_TICK of a packet that is routed (R134, R136 to R141, R145), with no other step between its own: after FQ.HASDATA,
the four later steps are FQ.READ, PC.PARSE, BS.LIMIT and the LED driver calls. `frame` is the oldest queued payload, a header and
a payload that pass PC.PARSE's checks. Its pixels from `start` on, as many as the channel has room for, are scaled as BS.LIMIT
scales them with the channel's pixel count and written in order; with the push flag exactly one flush of that output follows and
its return is awaited (R145, log entry 11), without it there is none and the next step counts the packet as processed. -/
def Obligations.RenderTickWritesThePixels : Prop :=
  ∀ (s : State) (es : List (List Byte)) (b0 b1 b2 b3 b4 b5 b6 b7 b8 b9 : Byte) (payload extra : List Byte) (ch : Channel)
    (start cnt scale : Nat),
    s.ready .hostRenderTick = true → s.Inv →
    s.fq.Holds s.cfg (([b0, b1, b2, b3, b4, b5, b6, b7, b8, b9] ++ payload ++ extra) :: es) →
    10 + payload.length + extra.length ≤ s.cfg.renderBufCap →
    b0.toNat / 64 = 1 → (b2 = 0x00#8 ∨ b2 = 0x01#8) → payload.length = be16 b8 b9 → 1 ≤ payload.length →
    payload.length ≤ 1440 → ch ∈ s.cfg.channels → ch.id = b3 → start = be32 b4 b5 b6 b7 / 3 → start < ch.pixels →
    cnt = min (payload.length / 3) (ch.pixels - start) →
    scale = selectScale (litCount (payload.take (3 * cnt))) ch.pixels 4 255 102 →
    ∃ t1 t px, exec .hostRenderTick s = .next t1 ∧ t1.proceeds .render 4 = some t ∧
      px = scalePixels s.cfg scale (payload.take (3 * cnt)) ∧
      t.env.ledLog = s.env.ledLog ++
        (List.range cnt).map (fun i =>
          .setPixel ch.out (start + i) (px.getD (3 * i) 0) (px.getD (3 * i + 1) 0) (px.getD (3 * i + 2) 0)) ++
        (if b0.toNat % 2 = 1 then [.flush ch.out] else []) ∧
      t.fq.Holds t.cfg es ∧ t.env.input = s.env.input ∧ t.dec = s.dec ∧ t.caller = s.caller ∧ t.reason = none ∧
      t.stats = s.stats ∧ t.host.tickAt = .count ∧
      (b0.toNat % 2 = 1 → t.env.flushPending = some ch.out ∧ t.resp = .flushing) ∧
      (b0.toNat % 2 = 0 → t.env.flushPending = none ∧
        proceed .render t =
          .next { t with
                    host := { t.host with tickAt := .idle }
                    stats := { s.stats with packetsProcessed := (s.stats.packetsProcessed + 1) % 2 ^ s.cfg.ctrWidth }
                    resp := .done
                    reason := none })

/-- HOST.RENDER_TICK of an entry that is dropped, with no other step between its own: after FQ.HASDATA, the three later steps are
FQ.READ, PC.PARSE and the counter. No LED driver call, one `stats.dropped_render`, the entry gone. First an entry that fails
PC.PARSE, with the reason of the first check that fails (R117, R134, R149, R150); then a packet that parses and that no channel
takes (R136, R137). -/
def Obligations.RenderTickDropsBadAndUnroutedPackets : Prop :=
  ∀ (s : State) (es : List (List Byte)), s.ready .hostRenderTick = true → s.Inv →
    (∀ (e : List Byte) (r : Reason), s.fq.Holds s.cfg (e :: es) → e.length ≤ s.cfg.renderBufCap →
      (if e.length < 10 then some Reason.short
        else if (e.getD 0 0).toNat / 64 ≠ 1 then some .version
        else if e.getD 2 0 ≠ 0x00#8 ∧ e.getD 2 0 ≠ 0x01#8 then some .dataType
        else if be16 (e.getD 8 0) (e.getD 9 0) = 0 ∨ 1440 < be16 (e.getD 8 0) (e.getD 9 0) then some .payloadLength
        else if e.length < 10 + be16 (e.getD 8 0) (e.getD 9 0) then some .truncated
        else none) = some r →
      ∃ t1 t, exec .hostRenderTick s = .next t1 ∧ t1.proceeds .render 3 = some t ∧ t.env = s.env ∧ t.dec = s.dec ∧
        t.fq.Holds t.cfg es ∧ t.resp = .done ∧ t.reason = some r ∧ t.host.tickAt = .idle ∧
        t.stats = { s.stats with droppedRender := (s.stats.droppedRender + 1) % 2 ^ s.cfg.ctrWidth }) ∧
    (∀ (b0 b1 b2 b3 b4 b5 b6 b7 b8 b9 : Byte) (payload extra : List Byte),
      s.fq.Holds s.cfg (([b0, b1, b2, b3, b4, b5, b6, b7, b8, b9] ++ payload ++ extra) :: es) →
      10 + payload.length + extra.length ≤ s.cfg.renderBufCap →
      b0.toNat / 64 = 1 → (b2 = 0x00#8 ∨ b2 = 0x01#8) → payload.length = be16 b8 b9 → 1 ≤ payload.length →
      payload.length ≤ 1440 →
      (∀ ch ∈ s.cfg.channels, ch.id = b3 → ch.pixels ≤ be32 b4 b5 b6 b7 / 3) →
      ∃ t1 t, exec .hostRenderTick s = .next t1 ∧ t1.proceeds .render 3 = some t ∧ t.env = s.env ∧ t.dec = s.dec ∧
        t.fq.Holds t.cfg es ∧ t.resp = .done ∧ t.host.tickAt = .idle ∧
        t.reason = some (if (∃ ch ∈ s.cfg.channels, ch.id = b3) then .startBeyond else .unknownDest) ∧
        t.stats = { s.stats with droppedRender := (s.stats.droppedRender + 1) % 2 ^ s.cfg.ctrWidth })

/-- R135: HOST.RENDER_TICK, with no other step between its own, of an entry longer than the render loop's buffer: FQ.READ loses the
whole queue, and the tick counts one drop, whose code seen from the tick is Short. -/
def Obligations.RenderTickOfAnOverlongEntry : Prop :=
  ∀ (s : State) (e : List Byte) (es : List (List Byte)), s.ready .hostRenderTick = true → s.Inv →
    s.fq.Holds s.cfg (e :: es) → s.cfg.renderBufCap < e.length →
    ∃ t1, exec .hostRenderTick s = .next t1 ∧
      t1.proceeds .render 3 =
        some { s with
                 fq := { s.fq with rd := s.fq.wr, used := 0 }
                 stats := { s.stats with droppedRender := (s.stats.droppedRender + 1) % 2 ^ s.cfg.ctrWidth }
                 resp := .done
                 reason := some .short }

/-- R145 and R176: while a flush has not returned, RENDER takes no step, and RX's steps are answered as if no flush were pending.
Its return is one step of ENV's; the packet is counted by RENDER's next step (R134's order, log entry 11). An agent inside a HOST
operation begins no other (R133, R145). The answer `waits` is the model's (log entry 5). -/
def Obligations.PendingFlushesAndOpenOperationsHoldTheirAgent : Prop :=
  ∀ s : State,
    (∀ i, admits i s.ports.agent = true →
      ((s.ports.agent = .rx ∧ s.host.rxAt ≠ .idle) ∨
        (s.ports.agent = .render ∧ (s.host.tickAt ≠ .idle ∨ s.env.flushPending ≠ none))) →
      exec i s = .next { s with resp := .waits, reason := none }) ∧
    (s.env.flushPending ≠ none → proceed .render s = .next { s with resp := .waits, reason := none }) ∧
    (∀ out, s.env.flushPending = some out →
      (∀ i t, s.ports.agent = .rx →
        exec i { s with env := { s.env with flushPending := none } } = .next t →
        exec i s = .next { t with env := { t.env with flushPending := some out } }) ∧
      (∀ t, proceed .rx { s with env := { s.env with flushPending := none } } = .next t →
        proceed .rx s = .next { t with env := { t.env with flushPending := some out } }) ∧
      (∀ rest, s.cfg.valid = true → s.sched = .flushReturn :: rest →
        step s = .next { s with
                           sched := rest
                           env := { s.env with flushPending := none }
                           resp := .underway
                           reason := none })) ∧
    (s.host.tickAt = .count → s.env.flushPending = none →
      proceed .render s =
        .next { s with
                  host := { s.host with tickAt := .idle }
                  stats := { s.stats with packetsProcessed := (s.stats.packetsProcessed + 1) % 2 ^ s.cfg.ctrWidth }
                  resp := .done
                  reason := none })

/-- R55: the agent that writes a counter reads it exactly; any other reads some `CTR_WIDTH`-bit value, of which the statement
says nothing more. No other element changes, but for the model's own count of draws (log entry 6). An agent inside a HOST
operation, or waiting for a flush, reads nothing until it is done (log entry 5). The reported "packets dropped" is the sum of the
two drop counters modulo `2^CTR_WIDTH`, and a drop counted by either agent adds one to it (R35). -/
def Obligations.CounterReads : Prop :=
  (∀ (s : State) (a : Agent) (c : Counter) (rest : List Move), s.cfg.valid = true → s.sched = .readCounter a c :: rest →
    (s.agentFree a = true →
      (a = c.writer → step s = .next { s with sched := rest, resp := .counter (s.stats.get c), reason := none }) ∧
      (a ≠ c.writer → ∃ v, v < 2 ^ s.cfg.ctrWidth ∧
        step s = .next { s with sched := rest, draws := s.draws + 1, resp := .counter v, reason := none })) ∧
    (s.agentFree a = false → step s = .next { s with sched := rest, resp := .waits, reason := none })) ∧
  (∀ s : State,
    s.reportedDropped = (s.stats.droppedRx + s.stats.droppedRender) % 2 ^ s.cfg.ctrWidth ∧
    { s with stats := { s.stats with droppedRx := (s.stats.droppedRx + 1) % 2 ^ s.cfg.ctrWidth } }.reportedDropped =
      (s.reportedDropped + 1) % 2 ^ s.cfg.ctrWidth ∧
    { s with stats := { s.stats with droppedRender := (s.stats.droppedRender + 1) % 2 ^ s.cfg.ctrWidth } }.reportedDropped =
      (s.reportedDropped + 1) % 2 ^ s.cfg.ctrWidth)

/-- R147: at the end of a run neither loop has anything to do. A receive step and a render tick, begun or gone on with, leave
everything but the response; that a receive step answers `waits` is the model's (log entry 5). -/
def Obligations.TheLoopsDoNothingAfterTheEndOfARun : Prop :=
  ∀ s : State, s.Ended → s.fq.lock = .free →
    (s.ports.agent = .rx → exec .hostRxByte s = .next { s with resp := .waits, reason := none }) ∧
    (s.ports.agent = .render → exec .hostRenderTick s = .next { s with resp := .done, reason := none }) ∧
    (∀ a, proceed a s = .next { s with resp := .waits, reason := none })

/-- The frames of the operations that store in the queue or in RENDER's buffers, whatever path they take: FQ.WRITE stores only
the entry from the write index on; FQ.READ changes the two queue registers and the destination's cells below its `maxLength`;
BS.LIMIT changes only its pixels' cells. -/
def Obligations.StoringOperationsFrame : Prop :=
  ∀ s t : State,
    (exec .fqWrite s = .next t → Memory.wf s.fq.ring →
      t = { s with fq := { t.fq with rd := s.fq.rd, lock := s.fq.lock }, resp := t.resp, reason := t.reason } ∧
      ∀ a, (∀ k, k < s.ports.wrData.length + 2 → a ≠ (s.fq.wr + k) % s.cfg.qCap) →
        Memory.read t.fq.ring a = Memory.read s.fq.ring a) ∧
    (exec .fqRead s = .next t → Memory.wf (s.buf s.ports.rdDst.buf).cells →
      t = { s with
              fq := { s.fq with rd := t.fq.rd, used := t.fq.used }
              host := { s.host with rbuf := t.host.rbuf }
              caller := t.caller
              resp := t.resp
              reason := t.reason } ∧
      (∀ a, (a < s.ports.rdDst.base ∨ s.ports.rdDst.base + s.ports.rdMax ≤ a) →
        Memory.read (t.buf s.ports.rdDst.buf).cells a = Memory.read (s.buf s.ports.rdDst.buf).cells a) ∧
      ∀ b, b ≠ s.ports.rdDst.buf → t.buf b = s.buf b) ∧
    (exec .bsLimit s = .next t → Memory.wf (s.buf s.ports.bsPix.buf).cells →
      t = { s with host := { s.host with rbuf := t.host.rbuf }, caller := t.caller, resp := t.resp, reason := t.reason } ∧
      (∀ a, (a < s.ports.bsPix.base ∨ s.ports.bsPix.base + 3 * s.ports.bsCount ≤ a) →
        Memory.read (t.buf s.ports.bsPix.buf).cells a = Memory.read (s.buf s.ports.bsPix.buf).cells a) ∧
      ∀ b, b ≠ s.ports.bsPix.buf → t.buf b = s.buf b)

/-- The frames of the HOST operations, step by step. BEGIN and END touch only the lifecycle registers and the counters. The first
step of HOST.RX_BYTE touches only the input, the drain count, RX's position and DEC, of the buffers only the cells DEC.PUSH
writes; each later one only FQ's write side, within the entry's cells, RX's position and RX's two counters. The first step of
HOST.RENDER_TICK touches only RENDER's position; each later one only what its own transaction writes, of `host.rbuf` only the
cells of the entry read or the pixels scaled. The response is written by each. -/
def Obligations.HostOperationsFrame : Prop :=
  ∀ s t : State,
    (exec .hostBegin s = .next t →
      t = { s with
              host := { s.host with state := t.host.state, stop := t.host.stop, rxDrain := t.host.rxDrain }
              stats := t.stats
              resp := t.resp
              reason := t.reason }) ∧
    (exec .hostEnd s = .next t →
      t = { s with
              host := { s.host with state := t.host.state, stop := t.host.stop, rxDrain := t.host.rxDrain }
              resp := t.resp
              reason := t.reason }) ∧
    (exec .hostRxByte s = .next t → Memory.wf s.dec.acc → Memory.wf s.dec.out →
      t = { s with
              env := { s.env with input := t.env.input }
              host := { s.host with rxDrain := t.host.rxDrain, rxAt := t.host.rxAt }
              dec := t.dec
              resp := t.resp
              reason := t.reason } ∧
      (∀ a, a ≠ (if s.dec.accLen < s.cfg.accCap then s.dec.accLen else 0) →
        Memory.read t.dec.acc a = Memory.read s.dec.acc a) ∧
      (∀ b rest, s.env.input = b :: rest →
        (b = 0x00#8 → t.dec.acc = s.dec.acc) ∧ (b ≠ 0x00#8 → t.dec.out = s.dec.out)) ∧
      (t.resp = .frameReady true → ∀ a, t.dec.outLen ≤ a → Memory.read t.dec.out a = Memory.read s.dec.out a)) ∧
    (proceed .rx s = .next t → Memory.wf s.fq.ring →
      t = { s with
              fq := { t.fq with rd := s.fq.rd, lock := s.fq.lock }
              host := { s.host with rxAt := t.host.rxAt }
              stats := { s.stats with framesReceived := t.stats.framesReceived, droppedRx := t.stats.droppedRx }
              resp := t.resp
              reason := t.reason } ∧
      (∀ a, (∀ frame, s.host.rxAt = .write frame → ∀ k, k < frame.length + 2 → a ≠ (s.fq.wr + k) % s.cfg.qCap) →
        Memory.read t.fq.ring a = Memory.read s.fq.ring a) ∧
      (((∀ frame, s.host.rxAt ≠ .write frame) ∨ t.resp = .wrOk false) → t.fq = s.fq) ∧
      ((∀ why, s.host.rxAt ≠ .count why) → t.stats = s.stats)) ∧
    (exec .hostRenderTick s = .next t →
      t = { s with host := { s.host with tickAt := t.host.tickAt }, resp := t.resp, reason := t.reason }) ∧
    (proceed .render s = .next t → s.LoopInv → Memory.wf s.host.rbuf →
      t = { s with
              fq := { s.fq with rd := t.fq.rd, used := t.fq.used }
              host := { s.host with rbuf := t.host.rbuf, tickAt := t.host.tickAt }
              env := { s.env with ledLog := t.env.ledLog, flushPending := t.env.flushPending }
              stats := { s.stats with
                           packetsProcessed := t.stats.packetsProcessed
                           droppedRender := t.stats.droppedRender }
              resp := t.resp
              reason := t.reason } ∧
      (s.host.tickAt = .read → ∀ n bs, t.resp = .read n bs → ∀ a, n ≤ a →
        Memory.read t.host.rbuf a = Memory.read s.host.rbuf a) ∧
      (∀ p ch, s.host.tickAt = .scale p ch → ∀ a, (a < 10 ∨ 10 + 3 * clampedCount p ch ≤ a) →
        Memory.read t.host.rbuf a = Memory.read s.host.rbuf a) ∧
      (s.host.tickAt ≠ .read → (∀ p ch, s.host.tickAt ≠ .scale p ch) → t.host.rbuf = s.host.rbuf) ∧
      (s.host.tickAt ≠ .read → t.fq = s.fq) ∧
      ((∀ p ch, s.host.tickAt ≠ .pixels p ch) → t.env = s.env) ∧
      (s.host.tickAt ≠ .count → (∀ r, s.host.tickAt ≠ .drop r) → t.stats = s.stats))

end
end

