-- ==== Sys2Proof/Laws/Memory.lean ====
section
/-! SUPPORT. The laws of buffers: a read after a write, the canonical form kept by every memory operation, and what a span or
a ring span reads and writes, cell by cell. -/

namespace Sys2Proof.Machine

theorem Memory.read_write (m : Memory) (a : Nat) (b : Byte) (x : Nat) (h : Memory.wf m) :
    Memory.read (Memory.write m a b) x = if x = a then some b else Memory.read m x := by
  induction m with
  | nil => simp [Memory.write, Memory.read]
  | cons c m ih =>
    obtain ⟨y, v⟩ := c
    have hm : Memory.wf m := (List.pairwise_cons.mp h).2
    simp only [Memory.write]
    split
    · simp [Memory.read]
    · split
      · rename_i hay
        subst hay
        by_cases hx : x = a <;> simp [Memory.read, hx]
      · by_cases hx : x = y
        · have : x ≠ a := by omega
          simp [Memory.read, hx]
          omega
        · simp [Memory.read, hx, ih hm]

theorem Memory.read_write_self (m : Memory) (a : Nat) (b : Byte) (h : Memory.wf m) :
    Memory.read (Memory.write m a b) a = some b := by
  simp [Memory.read_write _ _ _ _ h]

theorem Memory.read_write_other (m : Memory) {a x : Nat} (b : Byte) (h : Memory.wf m) (hx : x ≠ a) :
    Memory.read (Memory.write m a b) x = Memory.read m x := by
  simp [Memory.read_write _ _ _ _ h, hx]

theorem Memory.mem_write {m : Memory} {a : Nat} {b : Byte} {c : Host.Cell} (h : c ∈ Memory.write m a b) :
    c = (a, b) ∨ c ∈ m := by
  induction m with
  | nil => simpa [Memory.write] using h
  | cons d m ih =>
    obtain ⟨y, v⟩ := d
    simp only [Memory.write] at h
    split at h
    · simpa using h
    · split at h
      · simp only [List.mem_cons] at h ⊢
        tauto
      · simp only [List.mem_cons] at h ⊢
        rcases h with h | h
        · exact .inr (.inl h)
        · rcases ih h with h | h <;> tauto

theorem Memory.wf_write {m : Memory} (a : Nat) (b : Byte) (h : Memory.wf m) : Memory.wf (Memory.write m a b) := by
  induction m with
  | nil => simp [Memory.write, Memory.wf]
  | cons d m ih =>
    obtain ⟨y, v⟩ := d
    have hm := List.pairwise_cons.mp h
    simp only [Memory.write]
    split
    · rename_i hay
      refine List.pairwise_cons.mpr ⟨?_, h⟩
      intro c hc
      rcases List.mem_cons.mp hc with rfl | hc
      · exact hay
      · exact lt_trans hay (hm.1 c hc)
    · split
      · rename_i hay
        subst hay
        exact List.pairwise_cons.mpr ⟨hm.1, hm.2⟩
      · refine List.pairwise_cons.mpr ⟨?_, ih hm.2⟩
        intro c hc
        rcases Memory.mem_write hc with rfl | hc
        · simp only
          omega
        · exact hm.1 c hc

theorem Memory.Ok.nil (cap : Nat) : Memory.Ok [] cap := ⟨List.Pairwise.nil, by simp [Memory.below]⟩

theorem Memory.Ok.write {m : Memory} {cap a : Nat} (b : Byte) (h : Memory.Ok m cap) (ha : a < cap) :
    Memory.Ok (Memory.write m a b) cap := by
  refine ⟨Memory.wf_write a b h.1, fun c hc => ?_⟩
  rcases Memory.mem_write hc with rfl | hc
  · exact ha
  · exact h.2 c hc

theorem Memory.Ok.writeSpan {cap : Nat} (bs : List Byte) :
    ∀ {m : Memory} {a : Nat}, Memory.Ok m cap → a + bs.length ≤ cap → Memory.Ok (Memory.writeSpan m a bs) cap := by
  induction bs with
  | nil => intro m a h _; exact h
  | cons b bs ih =>
    intro m a h ha
    simp only [List.length_cons] at ha
    exact ih (h.write b (by omega)) (by omega)

theorem Memory.Ok.writeRing {cap : Nat} (hc : 0 < cap) (bs : List Byte) :
    ∀ {m : Memory} {p : Nat}, Memory.Ok m cap → Memory.Ok (Memory.writeRing cap m p bs) cap := by
  induction bs with
  | nil => intro m a h; exact h
  | cons b bs ih => intro m p h; exact ih (h.write b (Nat.mod_lt _ hc))

theorem Memory.Ok.place {cap : Nat} (cs : List (Option Byte)) :
    ∀ {m : Memory} {a : Nat}, Memory.Ok m cap → a + cs.length ≤ cap → Memory.Ok (Memory.place m a cs) cap := by
  induction cs with
  | nil => intro m a h _; exact h
  | cons c cs ih =>
    intro m a h ha
    simp only [List.length_cons] at ha
    cases c with
    | none => exact ih h (by omega)
    | some b => exact ih (h.write b (by omega)) (by omega)

/-- A caller's buffer is built in canonical form. -/
theorem Buf.ofCells_ok (cs : List (Option Byte)) : Memory.Ok (Buf.ofCells cs).cells (Buf.ofCells cs).size :=
  Memory.Ok.place cs (Memory.Ok.nil _) (by simp [Buf.ofCells])

/-- A cell after cells are placed: the listed byte where the list has one, and what it held elsewhere. -/
theorem Memory.read_place (cs : List (Option Byte)) :
    ∀ (m : Memory) (a x : Nat), Memory.wf m →
      Memory.read (Memory.place m a cs) x = if a ≤ x then cs[x - a]?.join.or (Memory.read m x) else Memory.read m x := by
  induction cs with
  | nil => intro m a x _; simp [Memory.place]
  | cons c cs ih =>
    intro m a x h
    rcases lt_trichotomy x a with hx | rfl | hx
    · cases c <;> simp only [Memory.place]
      · rw [ih _ _ _ h, if_neg (by omega), if_neg (by omega)]
      · rw [ih _ _ _ (Memory.wf_write _ _ h), if_neg (by omega), if_neg (by omega), Memory.read_write_other _ _ h (by omega)]
    · cases c <;> simp only [Memory.place]
      · rw [ih _ _ _ h, if_neg (by omega)]; simp
      · rw [ih _ _ _ (Memory.wf_write _ _ h), if_neg (by omega), Memory.read_write_self _ _ _ h]; simp
    · have hi : x - a = x - (a + 1) + 1 := by omega
      cases c <;> simp only [Memory.place, hi, List.getElem?_cons_succ]
      · rw [ih _ _ _ h, if_pos (by omega), if_pos (by omega)]
      · rw [ih _ _ _ (Memory.wf_write _ _ h), if_pos (by omega), if_pos (by omega), Memory.read_write_other _ _ h (by omega)]

/-- A caller's buffer reads as the cells it was built from. -/
theorem Buf.read_ofCells (cs : List (Option Byte)) (k : Nat) : Memory.read (Buf.ofCells cs).cells k = cs[k]?.join := by
  rw [Buf.ofCells, Memory.read_place _ _ _ _ List.Pairwise.nil]
  simp [Memory.read]

/-! Spans. -/

theorem Memory.readCells_succ (m : Memory) (a n : Nat) :
    Memory.readCells m a (n + 1) =
      match Memory.read m a, Memory.readCells m (a + 1) n with
      | some b, some bs => some (b :: bs)
      | _, _ => none := rfl

/-- What a span reads, cell by cell. -/
theorem Memory.readCells_eq_some {m : Memory} {n : Nat} :
    ∀ {a : Nat} {bs : List Byte}, Memory.readCells m a n = some bs ↔
      bs.length = n ∧ ∀ k, k < n → Memory.read m (a + k) = bs[k]? := by
  induction n with
  | zero =>
    intro a bs
    simp only [Memory.readCells, Option.some.injEq, Nat.not_lt_zero, false_implies, implies_true, and_true]
    constructor
    · rintro rfl; rfl
    · intro h; exact (List.length_eq_zero_iff.mp h).symm
  | succ n ih =>
    intro a bs
    rw [Memory.readCells_succ]
    constructor
    · intro h
      split at h
      · rename_i b bs' hb hbs
        obtain rfl := Option.some.inj h
        obtain ⟨hl, hk⟩ := ih.mp hbs
        refine ⟨by simp [hl], fun k hk' => ?_⟩
        cases k with
        | zero => simpa using hb
        | succ k =>
          have := hk k (by omega)
          simpa [Nat.add_assoc, Nat.add_comm 1 k] using this
      · exact absurd h (by simp)
    · rintro ⟨hl, hk⟩
      cases bs with
      | nil => simp at hl
      | cons b bs =>
        have h0 : Memory.read m a = some b := by simpa using hk 0 (by omega)
        have h1 : Memory.readCells m (a + 1) n = some bs := by
          refine ih.mpr ⟨by simpa using hl, fun k hk' => ?_⟩
          have := hk (k + 1) (by omega)
          simpa [Nat.add_assoc, Nat.add_comm 1 k] using this
        simp [h0, h1]

theorem Memory.readCells_length {m : Memory} {a n : Nat} {bs : List Byte} (h : Memory.readCells m a n = some bs) :
    bs.length = n := (Memory.readCells_eq_some.mp h).1

/-- Two buffers that agree on a span's cells read alike there. -/
theorem Memory.readCells_congr {m m' : Memory} {a a' n : Nat}
    (h : ∀ k, k < n → Memory.read m (a + k) = Memory.read m' (a' + k)) :
    Memory.readCells m a n = Memory.readCells m' a' n := by
  induction n generalizing a a' with
  | zero => rfl
  | succ n ih =>
    rw [Memory.readCells_succ, Memory.readCells_succ]
    have h0 := h 0 (by omega)
    have h1 := ih (a := a + 1) (a' := a' + 1) (fun k hk => by
      have := h (k + 1) (by omega)
      simpa [Nat.add_assoc, Nat.add_comm 1 k] using this)
    simp only [Nat.add_zero] at h0
    rw [h0, h1]

theorem Memory.readCells_snoc {m : Memory} {a n : Nat} {bs : List Byte} {b : Byte}
    (h : Memory.readCells m a n = some bs) (hb : Memory.read m (a + n) = some b) :
    Memory.readCells m a (n + 1) = some (bs ++ [b]) := by
  obtain ⟨hl, hk⟩ := Memory.readCells_eq_some.mp h
  refine Memory.readCells_eq_some.mpr ⟨by simp [hl], fun k hk' => ?_⟩
  by_cases hkn : k < n
  · rw [hk k hkn, List.getElem?_append_left (by omega)]
  · have : k = n := by omega
    subst this
    rw [hb, List.getElem?_append_right (by omega)]
    simp [hl]

theorem Memory.readSpan_eq_some {cap : Nat} {m : Memory} {a n : Nat} {bs : List Byte} :
    Memory.readSpan cap m a n = some bs ↔ a + n ≤ cap ∧ Memory.readCells m a n = some bs := by
  simp only [Memory.readSpan]
  split <;> simp_all

/-- A cell after a span is written: the written byte inside the span, and what it held outside. -/
theorem Memory.read_writeSpan (bs : List Byte) :
    ∀ (m : Memory) (a x : Nat), Memory.wf m →
      Memory.read (Memory.writeSpan m a bs) x =
        if a ≤ x ∧ x < a + bs.length then bs[x - a]? else Memory.read m x := by
  induction bs with
  | nil =>
    intro m a x _
    have : ¬ (a ≤ x ∧ x < a + 0) := by omega
    simp only [Memory.writeSpan, List.length_nil, this, if_false]
  | cons b bs ih =>
    intro m a x h
    simp only [Memory.writeSpan, List.length_cons]
    rw [ih _ _ _ (Memory.wf_write a b h), Memory.read_write _ _ _ _ h]
    by_cases h1 : a + 1 ≤ x ∧ x < a + 1 + bs.length
    · have h2 : a ≤ x ∧ x < a + (bs.length + 1) := by omega
      rw [if_pos h1, if_pos h2]
      have : x - a = (x - (a + 1)) + 1 := by omega
      rw [this, List.getElem?_cons_succ]
    · rw [if_neg h1]
      by_cases hx : x = a
      · subst hx; simp
      · have h2 : ¬ (a ≤ x ∧ x < a + (bs.length + 1)) := by omega
        rw [if_neg hx, if_neg h2]

/-- A span just written reads as the bytes written. -/
theorem Memory.readCells_writeSpan (m : Memory) (a : Nat) (bs : List Byte) (h : Memory.wf m) :
    Memory.readCells (Memory.writeSpan m a bs) a bs.length = some bs := by
  refine Memory.readCells_eq_some.mpr ⟨rfl, fun k hk => ?_⟩
  rw [Memory.read_writeSpan _ _ _ _ h, if_pos (by omega), Nat.add_sub_cancel_left]

/-! Ring spans. -/

theorem Memory.readRing_succ (cap : Nat) (m : Memory) (p n : Nat) :
    Memory.readRing cap m p (n + 1) =
      match Memory.read m (p % cap), Memory.readRing cap m (p + 1) n with
      | some b, some bs => some (b :: bs)
      | _, _ => none := rfl

/-- What a ring span reads, cell by cell (R52). -/
theorem Memory.readRing_eq_some {cap : Nat} {m : Memory} {n : Nat} :
    ∀ {p : Nat} {bs : List Byte}, Memory.readRing cap m p n = some bs ↔
      bs.length = n ∧ ∀ k, k < n → Memory.read m ((p + k) % cap) = bs[k]? := by
  induction n with
  | zero =>
    intro a bs
    simp only [Memory.readRing, Option.some.injEq, Nat.not_lt_zero, false_implies, implies_true, and_true]
    constructor
    · rintro rfl; rfl
    · intro h; exact (List.length_eq_zero_iff.mp h).symm
  | succ n ih =>
    intro p bs
    rw [Memory.readRing_succ]
    constructor
    · intro h
      split at h
      · rename_i b bs' hb hbs
        obtain rfl := Option.some.inj h
        obtain ⟨hl, hk⟩ := ih.mp hbs
        refine ⟨by simp [hl], fun k hk' => ?_⟩
        cases k with
        | zero => simpa using hb
        | succ k =>
          have := hk k (by omega)
          simpa [Nat.add_assoc, Nat.add_comm 1 k] using this
      · exact absurd h (by simp)
    · rintro ⟨hl, hk⟩
      cases bs with
      | nil => simp at hl
      | cons b bs =>
        have h0 : Memory.read m (p % cap) = some b := by simpa using hk 0 (by omega)
        have h1 : Memory.readRing cap m (p + 1) n = some bs := by
          refine ih.mpr ⟨by simpa using hl, fun k hk' => ?_⟩
          have := hk (k + 1) (by omega)
          simpa [Nat.add_assoc, Nat.add_comm 1 k] using this
        simp [h0, h1]

theorem Memory.readRing_length {cap : Nat} {m : Memory} {p n : Nat} {bs : List Byte}
    (h : Memory.readRing cap m p n = some bs) : bs.length = n := (Memory.readRing_eq_some.mp h).1

/-- A ring span's start counts mod the capacity. -/
theorem Memory.readRing_mod (cap : Nat) (m : Memory) (p n : Nat) :
    Memory.readRing cap m (p % cap) n = Memory.readRing cap m p n := by
  induction n generalizing p with
  | zero => rfl
  | succ n ih =>
    rw [Memory.readRing_succ, Memory.readRing_succ, Nat.mod_mod, ← ih (p % cap + 1), Nat.mod_add_mod, ih (p + 1)]

/-- A ring span is the one before an index followed by the one from it on. -/
theorem Memory.readRing_append {cap : Nat} {m : Memory} {p n k : Nat} {xs ys : List Byte}
    (hx : Memory.readRing cap m p n = some xs) (hy : Memory.readRing cap m (p + n) k = some ys) :
    Memory.readRing cap m p (n + k) = some (xs ++ ys) := by
  obtain ⟨lx, kx⟩ := Memory.readRing_eq_some.mp hx
  obtain ⟨ly, ky⟩ := Memory.readRing_eq_some.mp hy
  refine Memory.readRing_eq_some.mpr ⟨by simp [lx, ly], fun j hj => ?_⟩
  by_cases hjn : j < n
  · rw [kx j hjn, List.getElem?_append_left (by omega)]
  · have := ky (j - n) (by omega)
    rw [List.getElem?_append_right (by omega), lx, ← this]
    congr 2
    omega

/-- A ring span that reads as two sequences is two ring spans. -/
theorem Memory.readRing_split {cap : Nat} {m : Memory} {p n : Nat} {xs ys : List Byte}
    (h : Memory.readRing cap m p n = some (xs ++ ys)) :
    Memory.readRing cap m p xs.length = some xs ∧ Memory.readRing cap m (p + xs.length) ys.length = some ys := by
  obtain ⟨hl, hk⟩ := Memory.readRing_eq_some.mp h
  simp only [List.length_append] at hl
  refine ⟨Memory.readRing_eq_some.mpr ⟨rfl, fun j hj => ?_⟩, Memory.readRing_eq_some.mpr ⟨rfl, fun j hj => ?_⟩⟩
  · rw [hk j (by omega), List.getElem?_append_left hj]
  · have := hk (xs.length + j) (by omega)
    rw [List.getElem?_append_right (by omega), Nat.add_sub_cancel_left] at this
    rw [← this, Nat.add_assoc]

/-- A ring cell outside the indices written keeps what it held. -/
theorem Memory.read_writeRing_other {cap : Nat} (bs : List Byte) :
    ∀ {m : Memory} {p x : Nat}, Memory.wf m → (∀ k, k < bs.length → x ≠ (p + k) % cap) →
      Memory.read (Memory.writeRing cap m p bs) x = Memory.read m x := by
  induction bs with
  | nil => intro m p x _ _; rfl
  | cons b bs ih =>
    intro m p x h hx
    simp only [Memory.writeRing]
    rw [ih (Memory.wf_write _ _ h) (fun k hk => ?_), Memory.read_write_other _ _ h (by simpa using hx 0 (by simp))]
    have := hx (k + 1) (by simpa using hk)
    simpa [Nat.add_assoc, Nat.add_comm 1 k] using this

theorem ring_index_inj {cap p j k : Nat} (hj : j < cap) (hk : k < cap) (h : (p + j) % cap = (p + k) % cap) : j = k := by
  have h' : j % cap = k % cap := Nat.ModEq.add_left_cancel' p h
  rwa [Nat.mod_eq_of_lt hj, Nat.mod_eq_of_lt hk] at h'

/-- A ring span just written, of at most the ring's size, reads as the bytes written. -/
theorem Memory.readRing_writeRing {cap : Nat} (bs : List Byte) :
    ∀ {m : Memory} {p : Nat}, Memory.wf m → bs.length ≤ cap →
      Memory.readRing cap (Memory.writeRing cap m p bs) p bs.length = some bs := by
  induction bs with
  | nil => intro m p _ _; rfl
  | cons b bs ih =>
    intro m p h hl
    simp only [List.length_cons] at hl
    have hw := Memory.wf_write (p % cap) b h
    have h0 : Memory.read (Memory.writeRing cap (Memory.write m (p % cap) b) (p + 1) bs) (p % cap) = some b := by
      rw [Memory.read_writeRing_other bs hw, Memory.read_write_self _ _ _ h]
      intro k hk heq
      have : 0 = 1 + k :=
        ring_index_inj (cap := cap) (p := p) (j := 0) (k := 1 + k) (by omega) (by omega)
          (by rw [Nat.add_zero, ← Nat.add_assoc]; exact heq)
      omega
    simp only [Memory.writeRing, List.length_cons]
    rw [Memory.readRing_succ, h0, ih hw (by omega)]

/-- A ring span disjoint from the one written reads as before. -/
theorem Memory.readRing_writeRing_other {cap : Nat} {m : Memory} {p q n : Nat} {bs : List Byte} (h : Memory.wf m)
    (hd : ∀ j k, j < n → k < bs.length → (q + j) % cap ≠ (p + k) % cap) :
    Memory.readRing cap (Memory.writeRing cap m p bs) q n = Memory.readRing cap m q n := by
  induction n generalizing q with
  | zero => rfl
  | succ n ih =>
    rw [Memory.readRing_succ, Memory.readRing_succ,
      Memory.read_writeRing_other bs h (fun k hk => by simpa using hd 0 k (by omega) hk), ih (q := q + 1)]
    intro j k hj hk
    have := hd (j + 1) k (by omega) hk
    simpa [Nat.add_assoc, Nat.add_comm 1 j] using this

end Sys2Proof.Machine
end

