-- ==== Sys2Proof/Laws/Stuffing.lean ====
section
/-! SUPPORT. What Unstuff and its two parts can answer (R86): lengths, capacity and the failures. -/

namespace Sys2Proof.Machine

/-- A run that is copied: all of it, or under CopyAvailable what remained of the input. -/
theorem copyRun_ok {pol : TruncPolicy} {cap : Nat} :
    ∀ {k : Nat} {inp o inp' o' : List Byte}, copyRun pol cap k inp o = .ok (inp', o') →
      ∃ cs, o' = o ++ cs ∧ inp = cs ++ inp' ∧
        (cs.length = k ∨ (pol = .copyAvailable ∧ inp' = [] ∧ cs.length < k)) := by
  intro k
  induction k with
  | zero =>
    intro inp o inp' o' h
    simp only [copyRun, Except.ok.injEq, Prod.mk.injEq] at h
    exact ⟨[], by simp [h.2], by simp [h.1], .inl rfl⟩
  | succ k ih =>
    intro inp o inp' o' h
    cases inp with
    | nil =>
      cases pol with
      | fail => simp [copyRun] at h
      | copyAvailable =>
        simp only [copyRun, Except.ok.injEq, Prod.mk.injEq] at h
        exact ⟨[], by simp [h.2], by simp [← h.1], .inr ⟨rfl, h.1.symm, by simp⟩⟩
    | cons b inp =>
      simp only [copyRun] at h
      split at h
      · exact absurd h (by simp)
      · obtain ⟨cs, ho, hi, hc⟩ := ih h
        refine ⟨b :: cs, by simp [ho], by simp [hi], ?_⟩
        rcases hc with hc | ⟨hp, he, hc⟩
        · exact .inl (by simp [hc])
        · exact .inr ⟨hp, he, by simpa using hc⟩

theorem copyRun_le_cap {pol : TruncPolicy} {cap : Nat} :
    ∀ {k : Nat} {inp o inp' o' : List Byte}, copyRun pol cap k inp o = .ok (inp', o') → o.length ≤ cap →
      o'.length ≤ cap := by
  intro k
  induction k with
  | zero =>
    intro inp o inp' o' h ho
    simp only [copyRun, Except.ok.injEq, Prod.mk.injEq] at h
    simpa [← h.2] using ho
  | succ k ih =>
    intro inp o inp' o' h ho
    cases inp with
    | nil =>
      cases pol with
      | fail => simp [copyRun] at h
      | copyAvailable =>
        simp only [copyRun, Except.ok.injEq, Prod.mk.injEq] at h
        simpa [← h.2] using ho
    | cons b inp =>
      simp only [copyRun] at h
      split at h
      · exact absurd h (by simp)
      · exact ih h (by simp only [List.length_append, List.length_singleton]; omega)

/-- A run that fits is copied whole. -/
theorem copyRun_append {pol : TruncPolicy} {cap : Nat} (cs : List Byte) :
    ∀ (rest o : List Byte), o.length + cs.length ≤ cap →
      copyRun pol cap cs.length (cs ++ rest) o = .ok (rest, o ++ cs) := by
  induction cs with
  | nil => intro rest o _; simp [copyRun]
  | cons b cs ih =>
    intro rest o h
    simp only [List.length_cons] at h
    simp only [List.length_cons, List.cons_append, copyRun]
    rw [if_neg (by omega), ih rest (o ++ [b]) (by simp only [List.length_append, List.length_singleton]; omega)]
    simp

/-- All a run's copy can answer, for an output within the capacity: the overflow comes before the truncation (R86). -/
theorem copyRun_eq {pol : TruncPolicy} {cap : Nat} (k : Nat) :
    ∀ (inp o : List Byte), o.length ≤ cap →
      copyRun pol cap k inp o =
        if cap < o.length + min k inp.length then .error .decOverflow
        else if inp.length < k then if pol = .fail then .error .decTruncated else .ok ([], o ++ inp)
        else .ok (inp.drop k, o ++ inp.take k) := by
  induction k with
  | zero => intro inp o h; simp [copyRun, h]
  | succ k ih =>
    intro inp o h
    cases inp with
    | nil => cases pol <;> simp [copyRun, h]
    | cons b inp =>
      simp only [copyRun, List.length_cons, Nat.add_min_add_right]
      split
      · rw [if_pos (by omega)]
      · rw [ih inp (o ++ [b]) (by simp only [List.length_append, List.length_singleton]; omega)]
        simp [Nat.add_assoc, Nat.add_comm 1]

/-- The implicit zero: nothing, or one zero byte when more input remains. -/
theorem implicitZero_ok {cap : Nat} {code : Byte} {inp o o' : List Byte} (h : implicitZero cap code inp o = .ok o') :
    (o' = o ∧ (code = 0xFF#8 ∨ inp = [])) ∨
      (o' = o ++ [0x00#8] ∧ code ≠ 0xFF#8 ∧ inp ≠ [] ∧ o.length ≠ cap) := by
  simp only [implicitZero] at h
  split at h
  · rename_i hc
    split at h
    · exact absurd h (by simp)
    · rename_i hcap
      injection h with h
      exact .inr ⟨h.symm, hc.1, hc.2, hcap⟩
  · rename_i hc
    injection h with h
    refine .inl ⟨h.symm, ?_⟩
    by_contra hn
    exact hc (not_or.mp hn)

/-- Fuel beyond the input's length changes nothing: every run consumes its code byte. -/
theorem unstuffLoop_fuel {pol : TruncPolicy} {cap : Nat} :
    ∀ {f g : Nat} {inp o : List Byte}, inp.length ≤ f → inp.length ≤ g →
      unstuffLoop pol cap f inp o = unstuffLoop pol cap g inp o := by
  intro f
  induction f with
  | zero =>
    intro g inp o hf _
    obtain rfl := List.length_eq_zero_iff.mp (Nat.le_zero.mp hf)
    cases g <;> rfl
  | succ f ih =>
    intro g inp o hf hg
    cases inp with
    | nil => cases g <;> rfl
    | cons code inp =>
      obtain ⟨g, rfl⟩ : ∃ g', g = g' + 1 := Nat.exists_eq_succ_of_ne_zero (by simp only [List.length_cons] at hg; omega)
      simp only [List.length_cons] at hf hg
      simp only [unstuffLoop]
      split
      · rfl
      · split
        · rfl
        · rename_i hcopy
          obtain ⟨cs, -, hi, -⟩ := copyRun_ok hcopy
          split
          · rfl
          · have := congrArg List.length hi
            simp only [List.length_append] at this
            exact ih (by omega) (by omega)

/-- Unstuff never gives more than `cap` bytes (R90). -/
theorem unstuffLoop_le_cap {pol : TruncPolicy} {cap : Nat} :
    ∀ {fuel : Nat} {inp o r : List Byte}, unstuffLoop pol cap fuel inp o = .ok r → o.length ≤ cap → r.length ≤ cap := by
  intro fuel
  induction fuel with
  | zero => intro inp o r h ho; simp only [unstuffLoop, Except.ok.injEq] at h; simpa [← h] using ho
  | succ fuel ih =>
    intro inp o r h ho
    cases inp with
    | nil => simp only [unstuffLoop, Except.ok.injEq] at h; simpa [← h] using ho
    | cons code inp =>
      simp only [unstuffLoop] at h
      split at h
      · simp only [Except.ok.injEq] at h; simpa [← h] using ho
      · split at h
        · exact absurd h (by simp)
        · rename_i hcopy
          have h1 := copyRun_le_cap hcopy ho
          split at h
          · exact absurd h (by simp)
          · rename_i hz
            refine ih h ?_
            rcases implicitZero_ok hz with ⟨rfl, _⟩ | ⟨rfl, _, _, hne⟩
            · exact h1
            · simp only [List.length_append, List.length_singleton]
              omega

theorem unstuff_le_cap {pol : TruncPolicy} {cap : Nat} {inp r : List Byte} (h : unstuff pol cap inp = .ok r) :
    r.length ≤ cap := unstuffLoop_le_cap h (by simp)

end Sys2Proof.Machine
end

