-- ==== Sys2Proof/Laws/Dec.lean ====
section
/-! SUPPORT. What DEC.PUSH and DEC.FRAME can do to the decoder (R84, R85), and that they keep R26. -/

namespace Sys2Proof.Machine

section

variable (d : Dec) (bs : List Byte)

@[simp] theorem Dec.closeWindow_acc : d.closeWindow.acc = d.acc := rfl
@[simp] theorem Dec.closeWindow_accLen : d.closeWindow.accLen = d.accLen := rfl
@[simp] theorem Dec.closeWindow_out : d.closeWindow.out = d.out := rfl
@[simp] theorem Dec.closeWindow_outLen : d.closeWindow.outLen = 0 := rfl
@[simp] theorem Dec.closeWindow_frameValid : d.closeWindow.frameValid = false := rfl

@[simp] theorem Dec.noFrame_acc : d.noFrame.acc = d.acc := rfl
@[simp] theorem Dec.noFrame_accLen : d.noFrame.accLen = 0 := rfl
@[simp] theorem Dec.noFrame_out : d.noFrame.out = [] := rfl
@[simp] theorem Dec.noFrame_outLen : d.noFrame.outLen = 0 := rfl
@[simp] theorem Dec.noFrame_frameValid : d.noFrame.frameValid = false := rfl

@[simp] theorem Dec.expose_acc : (d.expose bs).acc = d.acc := rfl
@[simp] theorem Dec.expose_accLen : (d.expose bs).accLen = 0 := rfl
@[simp] theorem Dec.expose_out : (d.expose bs).out = Memory.writeSpan d.out 0 bs := rfl
@[simp] theorem Dec.expose_outLen : (d.expose bs).outLen = bs.length := rfl
@[simp] theorem Dec.expose_frameValid : (d.expose bs).frameValid = true := rfl

end

/-- Everything a delimiter can do (R84): it leaves no frame, or exposes the non-empty frame Unstuff gives. -/
theorem Dec.pushDelimiter_ok {c : Config} {d d' : Dec} {ready : Bool} {why : Option Reason}
    (h : d.pushDelimiter c = .ok (d', ready, why)) :
    (ready = false ∧ d' = d.noFrame ∧ why.isSome) ∨
      (ready = true ∧ why = none ∧ d.accLen ≠ 0 ∧ ∃ inp b bs, Memory.readSpan c.accCap d.acc 0 d.accLen = some inp ∧
        unstuff c.truncPolicy c.decCap inp = .ok (b :: bs) ∧ d' = d.expose (b :: bs)) := by
  simp only [Dec.pushDelimiter] at h
  split at h
  · simp only [Except.ok.injEq, Prod.mk.injEq] at h
    obtain ⟨rfl, rfl, rfl⟩ := h
    exact .inl ⟨rfl, rfl, rfl⟩
  · rename_i hne
    split at h
    · exact absurd h (by simp)
    · rename_i inp hin
      split at h
      all_goals simp only [Except.ok.injEq, Prod.mk.injEq] at h
      all_goals obtain ⟨rfl, rfl, rfl⟩ := h
      · exact .inl ⟨rfl, rfl, rfl⟩
      · exact .inl ⟨rfl, rfl, rfl⟩
      · rename_i b bs hun
        exact .inr ⟨rfl, rfl, hne, inp, b, bs, hin, hun, rfl⟩

/-- Everything DEC.PUSH can do (R84). -/
theorem Dec.push_ok {c : Config} {d d' : Dec} {b : Byte} {ready : Bool} {why : Option Reason}
    (h : d.push c b = .ok (d', ready, why)) :
    (b = 0x00#8 ∧ d.pushDelimiter c = .ok (d', ready, why)) ∨
      (b ≠ 0x00#8 ∧ ready = false ∧ d' = (d.pushData c b).1 ∧ why = (d.pushData c b).2) := by
  simp only [Dec.push] at h
  split at h
  · exact .inl ⟨‹_›, h⟩
  · simp only [Except.ok.injEq, Prod.mk.injEq] at h
    exact .inr ⟨‹_›, h.2.1.symm, h.1.symm, h.2.2.symm⟩

/-- On R26's states the accumulation is read whole. -/
theorem Dec.Inv.readSpan {c : Config} {d : Dec} (h : d.Inv c) :
    ∃ bs, Memory.readSpan c.accCap d.acc 0 d.accLen = some bs ∧ (0x00#8) ∉ bs := by
  obtain ⟨bs, hb, hz⟩ := h.acc_held
  exact ⟨bs, Memory.readSpan_eq_some.mpr ⟨by simpa using h.acc_fits, hb⟩, hz⟩

/-- On R26's states DEC.PUSH answers (R95). -/
theorem Dec.Inv.push_answers {c : Config} {d : Dec} (h : d.Inv c) (b : Byte) : ∃ r, d.push c b = .ok r := by
  simp only [Dec.push, Dec.pushDelimiter]
  split
  · split
    · exact ⟨_, rfl⟩
    · obtain ⟨bs, hb, _⟩ := h.readSpan
      rw [hb]
      dsimp only
      split <;> exact ⟨_, rfl⟩
  · exact ⟨_, rfl⟩

theorem Dec.Inv.noFrame {c : Config} {d : Dec} (h : d.Inv c) : (d.noFrame).Inv c where
  acc_ok := h.acc_ok
  out_ok := Memory.Ok.nil _
  acc_fits := Nat.zero_le _
  acc_held := ⟨[], rfl, by simp⟩
  out_fits := Nat.zero_le _
  window := rfl
  out_held := ⟨[], rfl⟩

theorem Dec.Inv.expose {c : Config} {d : Dec} (h : d.Inv c) {bs : List Byte} (h0 : 0 < bs.length)
    (hc : bs.length ≤ c.decCap) : (d.expose bs).Inv c where
  acc_ok := h.acc_ok
  out_ok := h.out_ok.writeSpan bs (by simpa using hc)
  acc_fits := Nat.zero_le _
  acc_held := ⟨[], rfl, by simp⟩
  out_fits := hc
  window := by simp [Dec.expose, h0]
  out_held := ⟨bs, Memory.readCells_writeSpan _ _ _ h.out_ok.1⟩

theorem Dec.Inv.pushData {c : Config} {d : Dec} (h : d.Inv c) (hc : 1 ≤ c.accCap) {b : Byte} (hb : b ≠ 0x00#8) :
    (d.pushData c b).1.Inv c := by
  simp only [Dec.pushData]
  split
  · rename_i hlt
    obtain ⟨bs, hbs, hz⟩ := h.acc_held
    have hread : Memory.readCells (Memory.write d.acc d.accLen b) 0 (d.accLen + 1) = some (bs ++ [b]) := by
      refine Memory.readCells_snoc ?_ (by simpa using Memory.read_write_self _ _ _ h.acc_ok.1)
      rw [← hbs]
      exact Memory.readCells_congr (fun k hk => Memory.read_write_other _ _ h.acc_ok.1 (by omega))
    exact ⟨h.acc_ok.write b hlt, h.out_ok, hlt, ⟨_, hread, by simp [hz, Ne.symm hb]⟩, Nat.zero_le _, rfl, ⟨[], rfl⟩⟩
  · split
    · have hread : Memory.readCells (Memory.write d.acc 0 b) 0 1 = some [b] := by
        simp [Memory.readCells, Memory.read_write_self _ _ _ h.acc_ok.1]
      exact ⟨h.acc_ok.write b (by omega), h.out_ok, hc, ⟨_, hread, by simp [Ne.symm hb]⟩, Nat.zero_le _, rfl, ⟨[], rfl⟩⟩
    · exact ⟨h.acc_ok, h.out_ok, Nat.zero_le _, ⟨[], rfl, by simp⟩, Nat.zero_le _, rfl, ⟨[], rfl⟩⟩

/-- DEC.PUSH keeps R26. -/
theorem Dec.Inv.push {c : Config} {d d' : Dec} {b : Byte} {ready : Bool} {why : Option Reason} (h : d.Inv c)
    (hc : 1 ≤ c.accCap) (hp : d.push c b = .ok (d', ready, why)) : d'.Inv c := by
  rcases Dec.push_ok hp with ⟨_, hp⟩ | ⟨hb, _, rfl, _⟩
  · rcases Dec.pushDelimiter_ok hp with ⟨_, rfl, _⟩ | ⟨_, _, _, inp, x, bs, _, hun, rfl⟩
    · exact h.noFrame
    · exact h.expose (by simp) (unstuff_le_cap hun)
  · exact h.pushData hc hb

/-- On R26's states an open window gives a frame of `dec.out_len` bytes (R85). -/
theorem Dec.Inv.frame_answers {c : Config} {d : Dec} (h : d.Inv c) (hv : d.frameValid = true) :
    ∃ bs, d.frame c = .ok bs ∧ bs.length = d.outLen ∧ 0 < d.outLen ∧ Memory.readCells d.out 0 d.outLen = some bs := by
  obtain ⟨bs, hbs⟩ := h.out_held
  have h0 : 0 < d.outLen := by simpa [hv] using h.window
  have hs : Memory.readSpan c.decCap d.out 0 d.outLen = some bs :=
    Memory.readSpan_eq_some.mpr ⟨by simpa using h.out_fits, hbs⟩
  exact ⟨bs, by simp [Dec.frame, hv, hs], Memory.readCells_length hbs, h0, hbs⟩

/-- A push that says a frame is ready opens the window. -/
theorem Dec.push_ready {c : Config} {d d' : Dec} {b : Byte} {why : Option Reason} (hp : d.push c b = .ok (d', true, why)) :
    d'.frameValid = true := by
  rcases Dec.push_ok hp with ⟨_, hp⟩ | ⟨_, hr, _, _⟩
  · rcases Dec.pushDelimiter_ok hp with ⟨hr, _⟩ | ⟨_, _, _, _, _, _, _, _, rfl⟩
    · exact absurd hr (by simp)
    · rfl
  · exact absurd hr (by simp)

end Sys2Proof.Machine
end

