-- ==== Sys2Proof/Laws/Exec.lean ====
section
/-! SUPPORT. What `issue`, `exec` and `step` can answer, said once: the gate of every operation, the body behind each arm, and
the moves a step fetches. -/

namespace Sys2Proof.Machine

@[simp] theorem outcomeOf_ok (t : State) : outcomeOf (.ok t) = .next t := rfl
@[simp] theorem outcomeOf_fault (f : Fault) : outcomeOf (.error (.fault f)) = .fault f := rfl
@[simp] theorem outcomeOf_refuse (r : Refusal) : outcomeOf (.error (.refuse r)) = .refused r := rfl

theorem outcomeOf_next {r : Res State} {t : State} : outcomeOf r = .next t ↔ r = .ok t := by
  rcases r with (f | r) | u <;> simp

/-- What runs behind the gate of each operation. -/
def opBody (i : Instr) (s : State) : Res State :=
  match i with
  | .decPush => decPush s
  | .decFrame => decFrame s
  | .fqWrite => fqWrite s
  | .fqRead => fqRead s
  | .fqSpace => .ok (s.respond (.space (s.fq.space s.cfg)) none)
  | .fqHasData => .ok (s.respond (.hasData s.fq.hasData) none)
  | .fqUsage => .ok (s.respond (.usage (s.fq.usage s.cfg)) none)
  | .pcParse => pcParse s
  | .bsLimit => bsLimit s
  | .hostBegin => hostBegin s
  | .hostEnd => hostEnd s
  | .hostRxByte => hostRxByte s
  | .hostRenderTick => hostRenderTick s

theorem exec_eq_issue (i : Instr) (s : State) : exec i s = issue i s (opBody i s) := by
  cases i <;> rfl

/-- An operation that is admitted and enabled answers what its body answers. -/
theorem exec_of_ready {i : Instr} {s : State} (h : s.ready i = true) : exec i s = outcomeOf (opBody i s) := by
  simp only [State.ready, Bool.and_eq_true] at h
  simp [exec_eq_issue, issue, h.1, h.2]

/-- An operation whose port does not admit the agent is refused (R82). -/
theorem exec_of_not_admitted {i : Instr} {s : State} (h : admits i s.ports.agent = false) :
    exec i s = .refused .wrongAgent := by
  simp [exec_eq_issue, issue, h]

/-- An admitted operation that is not enabled leaves the machine as it is. -/
theorem exec_of_not_enabled {i : Instr} {s : State} (ha : admits i s.ports.agent = true) (h : s.enabled i = false) :
    exec i s = .next s.stays := by
  simp [exec_eq_issue, issue, ha, h]

/-- Everything an operation that answers a next state can have done. -/
theorem exec_next {i : Instr} {s t : State} (h : exec i s = .next t) :
    (s.ready i = true ∧ opBody i s = .ok t) ∨ (s.enabled i = false ∧ t = s.stays) := by
  rw [exec_eq_issue, issue] at h
  split at h
  · rename_i ha
    split at h
    · rename_i he
      exact .inl ⟨by simp [State.ready, ha, he], outcomeOf_next.mp h⟩
    · rename_i he
      refine .inr ⟨by simpa using he, ?_⟩
      injection h with h
      exact h.symm
  · exact absurd h (by simp)

/-- Everything a step that answers a next state can have done: it idled, made an environment move, or ran a request. -/
theorem step_next {s t : State} (h : step s = .next t) :
    s.cfg.valid = true ∧
      ((s.sched = [] ∧ t = s) ∨
        ∃ m rest, s.sched = m :: rest ∧
          ((∃ w p i, m = .request w p ∧ decodeWord w = .ok i ∧ exec i ((s.setSched rest).setPorts p) = .next t) ∨
            (∃ a, m = .proceed a ∧ proceed a (s.setSched rest) = .next t) ∨
            (∃ bs, m = .supply bs ∧ t = execSupply bs (s.setSched rest)) ∨
            (m = .flushReturn ∧ t = execFlushReturn (s.setSched rest)) ∨
            (∃ cs, m = .placeDst cs ∧ t = execPlaceDst cs (s.setSched rest)) ∨
            (∃ cs, m = .placePix cs ∧ t = execPlacePix cs (s.setSched rest)) ∨
            (∃ a c, m = .readCounter a c ∧ t = execReadCounter a c (s.setSched rest)))) := by
  unfold step fetch at h
  by_cases hv : s.cfg.valid = true
  · refine ⟨hv, ?_⟩
    rw [if_pos hv] at h
    cases hs : s.sched with
    | nil =>
      simp only [hs, Host.Outcome.next.injEq] at h
      exact .inl ⟨rfl, h.symm⟩
    | cons m rest =>
      refine .inr ⟨m, rest, rfl, ?_⟩
      rw [hs] at h
      cases m with
      | request w p =>
        refine .inl ⟨w, p, ?_⟩
        simp only [fetchMove] at h
        cases hw : decodeWord w with
        | ok i => exact ⟨i, rfl, rfl, by simpa [hw] using h⟩
        | error e => simp [hw] at h
      | proceed a => exact .inr (.inl ⟨a, rfl, h⟩)
      | supply bs => exact .inr (.inr (.inl ⟨bs, rfl, by simpa [fetchMove] using h.symm⟩))
      | flushReturn => exact .inr (.inr (.inr (.inl ⟨rfl, by simpa [fetchMove] using h.symm⟩)))
      | placeDst cs => exact .inr (.inr (.inr (.inr (.inl ⟨cs, rfl, by simpa [fetchMove] using h.symm⟩))))
      | placePix cs => exact .inr (.inr (.inr (.inr (.inr (.inl ⟨cs, rfl, by simpa [fetchMove] using h.symm⟩)))))
      | readCounter a c => exact .inr (.inr (.inr (.inr (.inr (.inr ⟨a, c, rfl, by simpa [fetchMove] using h.symm⟩)))))
  · simp [hv] at h

/-- An agent that may take no step inside a HOST operation stays. -/
theorem proceed_of_not {a : Agent} {s : State} (h : s.mayProceed a = false) : proceed a s = .next s.stays := by
  simp [proceed, h]

/-- Everything a step inside a HOST operation that answers a next state can have done. -/
theorem proceed_next {a : Agent} {s t : State} (h : proceed a s = .next t) :
    t = s.stays ∨ (a = .rx ∧ s.mayProceed .rx = true ∧ rxProceed s = .ok t) ∨
      (a = .render ∧ s.mayProceed .render = true ∧ tickProceed s = .ok t) := by
  unfold proceed at h
  split at h
  · rename_i hm
    cases a with
    | rx => exact .inr (.inl ⟨rfl, hm, outcomeOf_next.mp h⟩)
    | render => exact .inr (.inr ⟨rfl, hm, outcomeOf_next.mp h⟩)
    | env => exact absurd hm (by simp [State.mayProceed])
  · injection h with h
    exact .inl h.symm

/-- RX inside HOST.RX_BYTE may go on while the queue's lock is free (R31, R133). -/
theorem State.mayProceed_rx {s : State} (hl : s.fq.lock = .free) (hp : s.host.rxAt ≠ .idle) : s.mayProceed .rx = true := by
  simp only [State.mayProceed, hl]
  split <;> simp_all

/-- RENDER inside a tick may go on while the queue's lock is free and no flush is awaited (R31, R134, R145). -/
theorem State.mayProceed_render {s : State} (hl : s.fq.lock = .free) (hf : s.env.flushPending = none)
    (hp : s.host.tickAt ≠ .idle) : s.mayProceed .render = true := by
  simp only [State.mayProceed, hl, hf]
  split <;> simp_all

@[simp] theorem State.proceeds_zero (a : Agent) (s : State) : s.proceeds a 0 = some s := rfl

/-- Several steps inside a HOST operation are one and then the rest. -/
theorem State.proceeds_succ {a : Agent} {n : Nat} {s t : State} (h : proceed a s = .next t) :
    s.proceeds a (n + 1) = t.proceeds a n := by
  simp [State.proceeds, h]

end Sys2Proof.Machine
end

