-- ==== Sys2Proof/Laws/Fq.lean ====
section
/-! SUPPORT. What FQ.WRITE and FQ.READ can do to the queue (R99 to R103), as operations on the list of payloads it holds
(R70, R108). -/

namespace Sys2Proof.Machine

@[simp] theorem queueEntry_length (e : List Byte) : (queueEntry e).length = e.length + 2 := rfl

/-- The header's two bytes give the length back (R47). -/
theorem be16_hiByte_loByte {n : Nat} (h : n < 65536) : be16 (hiByte n) (loByte n) = n := by
  simp only [be16, hiByte, loByte, BitVec.toNat_ofNat]
  omega

theorem be16_lt (a b : Byte) : be16 a b < 65536 := by
  have := a.isLt
  have := b.isLt
  simp only [be16]
  omega

theorem payloadBytes_map_some (bs : List Byte) : payloadBytes (bs.map some) = .ok bs := by
  induction bs with
  | nil => rfl
  | cons b bs ih => simp [payloadBytes, ih]

theorem payloadBytes_ok {cs : List (Option Byte)} {bs : List Byte} (h : payloadBytes cs = .ok bs) : cs = bs.map some := by
  induction cs generalizing bs with
  | nil => simp only [payloadBytes, Except.ok.injEq] at h; simp [← h]
  | cons c cs ih =>
    cases c with
    | none => simp [payloadBytes] at h
    | some b =>
      simp only [payloadBytes] at h
      split at h
      · rename_i bs' hbs
        simp only [Except.ok.injEq] at h
        simp [← h, ih hbs]
      · exact absurd h (by simp)

theorem payloadBytes_length {cs : List (Option Byte)} {bs : List Byte} (h : payloadBytes cs = .ok bs) :
    bs.length = cs.length := by
  simp [payloadBytes_ok h]

/-- When FQ.WRITE finds nothing to refuse (R100). -/
theorem fqWriteReason_none {c : Config} {used len : Nat} :
    fqWriteReason c used len = none ↔ 1 ≤ len ∧ len + 2 ≤ c.qCap - used := by
  simp only [fqWriteReason]
  split
  · simp; omega
  · split
    · simp; omega
    · simp; omega

/-- Everything FQ.WRITE can do: it refuses and changes nothing, or it appends one entry. -/
theorem Fq.write_ok {c : Config} {q q' : Fq} {cs : List (Option Byte)} {why : Option Reason}
    (h : q.write c cs = .ok (q', why)) :
    (why = fqWriteReason c q.used cs.length ∧ why ≠ none ∧ q' = q) ∨
      (why = none ∧ fqWriteReason c q.used cs.length = none ∧ ∃ bs, cs = bs.map some ∧
        q' = { q with
                ring := Memory.writeRing c.qCap q.ring q.wr (queueEntry bs)
                wr := (q.wr + 2 + bs.length) % c.qCap
                used := q.used + 2 + bs.length }) := by
  simp only [Fq.write] at h
  split at h
  · rename_i r hr
    simp only [Except.ok.injEq, Prod.mk.injEq] at h
    exact .inl ⟨by rw [hr, h.2], by simp [← h.2], h.1.symm⟩
  · rename_i hr
    split at h
    · exact absurd h (by simp)
    · rename_i bs hbs
      simp only [Except.ok.injEq, Prod.mk.injEq] at h
      exact .inr ⟨h.2.symm, hr, bs, payloadBytes_ok hbs, h.1.symm⟩

/-- FQ.WRITE of bytes always answers. -/
theorem Fq.write_answers (c : Config) (q : Fq) (bs : List Byte) : ∃ r, q.write c (bs.map some) = .ok r := by
  simp only [Fq.write, payloadBytes_map_some]
  split <;> exact ⟨_, rfl⟩

/-- The used count is the total of the entries (R29). -/
theorem Fq.Holds.used_eq {c : Config} {q : Fq} {es : List (List Byte)} (h : q.Holds c es) :
    (es.flatMap queueEntry).length = q.used := Memory.readRing_length h.bytes

theorem Fq.Holds.empty {c : Config} {q : Fq} (hr : q.rd < c.qCap) (hw : q.wr = q.rd) (hu : q.used = 0) :
    q.Holds c [] where
  rd_lt := hr
  wr_eq := by rw [hu, hw, Nat.add_zero, Nat.mod_eq_of_lt hr]
  used_le := by omega
  lengths := by simp
  bytes := by simp [hu, Memory.readRing]

/-- Writing an entry at the write index appends its payload (R99). -/
theorem Fq.Holds.append {c : Config} {q : Fq} {es : List (List Byte)} {e : List Byte} (h : q.Holds c es)
    (hw : Memory.wf q.ring) (h1 : 1 ≤ e.length) (h2 : e.length + 2 ≤ c.qCap - q.used) :
    Fq.Holds c { q with
                  ring := Memory.writeRing c.qCap q.ring q.wr (queueEntry e)
                  wr := (q.wr + 2 + e.length) % c.qCap
                  used := q.used + 2 + e.length } (es ++ [e]) where
  rd_lt := h.rd_lt
  wr_eq := by
    simp only [h.wr_eq]
    rw [Nat.add_assoc, Nat.mod_add_mod]
    congr 1
    omega
  used_le := by simp only; omega
  lengths := by
    intro x hx
    rcases List.mem_append.mp hx with hx | hx
    · exact h.lengths x hx
    · obtain rfl := List.mem_singleton.mp hx
      have := h.used_le
      omega
  bytes := by
    have hq : queueEntry e = queueEntry e := rfl
    have hl : (queueEntry e).length = e.length + 2 := rfl
    simp only [List.flatMap_append, List.flatMap_cons, List.flatMap_nil, List.append_nil]
    have hold : Memory.readRing c.qCap (Memory.writeRing c.qCap q.ring q.wr (queueEntry e)) q.rd q.used =
        some (es.flatMap queueEntry) := by
      rw [Memory.readRing_writeRing_other hw, h.bytes]
      intro j k hj hk heq
      rw [h.wr_eq, Nat.mod_add_mod, Nat.add_assoc] at heq
      have := ring_index_inj (cap := c.qCap) (p := q.rd) (by omega) (by omega) heq
      omega
    have hnew : Memory.readRing c.qCap (Memory.writeRing c.qCap q.ring q.wr (queueEntry e)) (q.rd + q.used)
        (queueEntry e).length = some (queueEntry e) := by
      rw [← Memory.readRing_mod, ← h.wr_eq]
      exact Memory.readRing_writeRing _ hw (by omega)
    have := Memory.readRing_append hold hnew
    rwa [hl, show q.used + (e.length + 2) = q.used + 2 + e.length by omega] at this

/-- The oldest entry's header, payload and the entries behind it, as ring spans. -/
theorem Fq.Holds.head {c : Config} {q : Fq} {e : List Byte} {es : List (List Byte)} (h : q.Holds c (e :: es)) :
    Memory.readRing c.qCap q.ring q.rd 2 = some [hiByte e.length, loByte e.length] ∧
      Memory.readRing c.qCap q.ring (q.rd + 2) e.length = some e ∧
      Memory.readRing c.qCap q.ring (q.rd + 2 + e.length) (q.used - 2 - e.length) = some (es.flatMap queueEntry) ∧
      e.length + 2 ≤ q.used := by
  have hb := h.bytes
  have hu := h.used_eq
  simp only [List.flatMap_cons, List.length_append, queueEntry_length] at hb hu
  obtain ⟨h1, h2⟩ := Memory.readRing_split hb
  have h3 : queueEntry e = [hiByte e.length, loByte e.length] ++ e := rfl
  rw [h3] at h1
  obtain ⟨h4, h5⟩ := Memory.readRing_split h1
  refine ⟨h4, h5, ?_, by omega⟩
  rw [queueEntry_length] at h2
  rw [show q.rd + 2 + e.length = q.rd + (e.length + 2) by omega,
    show q.used - 2 - e.length = (es.flatMap queueEntry).length by omega]
  exact h2

/-- FQ.READ of a queue that holds nothing (R102). -/
theorem Fq.Holds.read_nil {c : Config} {q : Fq} (h : q.Holds c []) (n : Nat) : q.read c n = .ok (q, [], some .fqEmpty) := by
  have : q.used = 0 := by simpa using h.used_eq.symm
  simp [Fq.read, this]

/-- FQ.READ of a queue that holds something: the oldest payload if it is short enough, else the whole queue is lost (R101,
R103). -/
theorem Fq.Holds.read_cons {c : Config} {q : Fq} {e : List Byte} {es : List (List Byte)} (h : q.Holds c (e :: es))
    (hq : c.qCap ≤ 65537) (n : Nat) :
    q.read c n =
      if e.length ≤ n then
        .ok ({ q with rd := (q.rd + 2 + e.length) % c.qCap, used := q.used - 2 - e.length }, e, none)
      else .ok (q.emptied, [], some .fqTooLong) := by
  obtain ⟨h1, h2, _, h4⟩ := h.head
  have hl := h.lengths e (by simp)
  have hbe : be16 (hiByte e.length) (loByte e.length) = e.length := be16_hiByte_loByte (by omega)
  have hu : ¬ q.used < 2 := by omega
  simp only [Fq.read, hu, if_false, h1, hbe]
  by_cases hn : e.length ≤ n
  · have : fqReadReason e.length n q.used = none := by
      simp only [fqReadReason]
      rw [if_neg (by omega), if_neg (by omega), if_neg (by omega)]
    simp only [this, h2, if_pos hn]
  · have : fqReadReason e.length n q.used = some .fqTooLong := by
      simp only [fqReadReason]
      rw [if_neg (by omega), if_pos (by omega)]
    simp only [this, if_neg hn]

/-- Taking the oldest entry leaves the entries behind it. -/
theorem Fq.Holds.tail {c : Config} {q : Fq} {e : List Byte} {es : List (List Byte)} (h : q.Holds c (e :: es)) :
    Fq.Holds c { q with rd := (q.rd + 2 + e.length) % c.qCap, used := q.used - 2 - e.length } es := by
  obtain ⟨_, _, h3, h4⟩ := h.head
  have hr := h.rd_lt
  refine ⟨Nat.mod_lt _ (by omega), ?_, ?_, fun x hx => h.lengths x (by simp [hx]), ?_⟩
  · simp only [h.wr_eq]
    rw [Nat.mod_add_mod]
    congr 1
    omega
  · have := h.used_le
    simp only
    omega
  · simp only
    rw [Memory.readRing_mod]
    exact h3

/-- The reset queue holds nothing (R103). -/
theorem Fq.Holds.emptied {c : Config} {q : Fq} {es : List (List Byte)} (h : q.Holds c es) : q.emptied.Holds c [] :=
  Fq.Holds.empty (by
    simp only [Fq.emptied, h.wr_eq]
    exact Nat.mod_lt _ (by have := h.rd_lt; omega)) rfl rfl

/-- FQ.WRITE keeps R30. -/
theorem Fq.Inv.write {c : Config} {q q' : Fq} {cs : List (Option Byte)} {why : Option Reason} (h : q.Inv c)
    (hw : q.write c cs = .ok (q', why)) : q'.Inv c := by
  obtain ⟨es, hes⟩ := h.holds
  rcases Fq.write_ok hw with ⟨_, _, rfl⟩ | ⟨_, hr, bs, rfl, rfl⟩
  · exact h
  · obtain ⟨h1, h2⟩ := fqWriteReason_none.mp hr
    simp only [List.length_map] at h1 h2
    have := hes.rd_lt
    exact ⟨h.ring_ok.writeRing (by omega) _, h.lock_eq, _, hes.append h.ring_ok.1 h1 h2⟩

/-- On R30's states FQ.READ answers, keeps R30 and gives at most `maxLength` bytes. -/
theorem Fq.Inv.read {c : Config} {q : Fq} (h : q.Inv c) (hq : c.qCap ≤ 65537) (n : Nat) :
    ∃ q' bs why, q.read c n = .ok (q', bs, why) ∧ q'.Inv c ∧ bs.length ≤ n := by
  obtain ⟨es, hes⟩ := h.holds
  cases es with
  | nil => exact ⟨_, _, _, hes.read_nil n, h, by simp⟩
  | cons e es =>
    rw [hes.read_cons hq]
    split
    · exact ⟨_, _, _, rfl, ⟨h.ring_ok, h.lock_eq, es, hes.tail⟩, ‹_›⟩
    · exact ⟨_, _, _, rfl, ⟨h.ring_ok, h.lock_eq, [], hes.emptied⟩, by simp⟩

end Sys2Proof.Machine
end

