-- ==== Sys2Proof/Laws/State.lean ====
section
/-! SUPPORT. One lemma per field and per update of the state, each true by definition, so that no proof unfolds a record
update. -/

namespace Sys2Proof.Machine

variable (s : State)

@[simp] theorem State.setDec_cfg (d : Dec) : (s.setDec d).cfg = s.cfg := rfl
@[simp] theorem State.setDec_dec (d : Dec) : (s.setDec d).dec = d := rfl
@[simp] theorem State.setDec_fq (d : Dec) : (s.setDec d).fq = s.fq := rfl
@[simp] theorem State.setDec_host (d : Dec) : (s.setDec d).host = s.host := rfl
@[simp] theorem State.setDec_stats (d : Dec) : (s.setDec d).stats = s.stats := rfl
@[simp] theorem State.setDec_env (d : Dec) : (s.setDec d).env = s.env := rfl
@[simp] theorem State.setDec_caller (d : Dec) : (s.setDec d).caller = s.caller := rfl
@[simp] theorem State.setDec_ports (d : Dec) : (s.setDec d).ports = s.ports := rfl
@[simp] theorem State.setDec_resp (d : Dec) : (s.setDec d).resp = s.resp := rfl
@[simp] theorem State.setDec_reason (d : Dec) : (s.setDec d).reason = s.reason := rfl
@[simp] theorem State.setDec_draws (d : Dec) : (s.setDec d).draws = s.draws := rfl
@[simp] theorem State.setDec_sched (d : Dec) : (s.setDec d).sched = s.sched := rfl

@[simp] theorem State.setFq_cfg (q : Fq) : (s.setFq q).cfg = s.cfg := rfl
@[simp] theorem State.setFq_dec (q : Fq) : (s.setFq q).dec = s.dec := rfl
@[simp] theorem State.setFq_fq (q : Fq) : (s.setFq q).fq = q := rfl
@[simp] theorem State.setFq_host (q : Fq) : (s.setFq q).host = s.host := rfl
@[simp] theorem State.setFq_stats (q : Fq) : (s.setFq q).stats = s.stats := rfl
@[simp] theorem State.setFq_env (q : Fq) : (s.setFq q).env = s.env := rfl
@[simp] theorem State.setFq_caller (q : Fq) : (s.setFq q).caller = s.caller := rfl
@[simp] theorem State.setFq_ports (q : Fq) : (s.setFq q).ports = s.ports := rfl
@[simp] theorem State.setFq_resp (q : Fq) : (s.setFq q).resp = s.resp := rfl
@[simp] theorem State.setFq_reason (q : Fq) : (s.setFq q).reason = s.reason := rfl
@[simp] theorem State.setFq_draws (q : Fq) : (s.setFq q).draws = s.draws := rfl
@[simp] theorem State.setFq_sched (q : Fq) : (s.setFq q).sched = s.sched := rfl

@[simp] theorem State.setHost_cfg (h : HostState) : (s.setHost h).cfg = s.cfg := rfl
@[simp] theorem State.setHost_dec (h : HostState) : (s.setHost h).dec = s.dec := rfl
@[simp] theorem State.setHost_fq (h : HostState) : (s.setHost h).fq = s.fq := rfl
@[simp] theorem State.setHost_host (h : HostState) : (s.setHost h).host = h := rfl
@[simp] theorem State.setHost_stats (h : HostState) : (s.setHost h).stats = s.stats := rfl
@[simp] theorem State.setHost_env (h : HostState) : (s.setHost h).env = s.env := rfl
@[simp] theorem State.setHost_caller (h : HostState) : (s.setHost h).caller = s.caller := rfl
@[simp] theorem State.setHost_ports (h : HostState) : (s.setHost h).ports = s.ports := rfl
@[simp] theorem State.setHost_resp (h : HostState) : (s.setHost h).resp = s.resp := rfl
@[simp] theorem State.setHost_reason (h : HostState) : (s.setHost h).reason = s.reason := rfl
@[simp] theorem State.setHost_draws (h : HostState) : (s.setHost h).draws = s.draws := rfl
@[simp] theorem State.setHost_sched (h : HostState) : (s.setHost h).sched = s.sched := rfl

@[simp] theorem State.setStats_cfg (n : Stats) : (s.setStats n).cfg = s.cfg := rfl
@[simp] theorem State.setStats_dec (n : Stats) : (s.setStats n).dec = s.dec := rfl
@[simp] theorem State.setStats_fq (n : Stats) : (s.setStats n).fq = s.fq := rfl
@[simp] theorem State.setStats_host (n : Stats) : (s.setStats n).host = s.host := rfl
@[simp] theorem State.setStats_stats (n : Stats) : (s.setStats n).stats = n := rfl
@[simp] theorem State.setStats_env (n : Stats) : (s.setStats n).env = s.env := rfl
@[simp] theorem State.setStats_caller (n : Stats) : (s.setStats n).caller = s.caller := rfl
@[simp] theorem State.setStats_ports (n : Stats) : (s.setStats n).ports = s.ports := rfl
@[simp] theorem State.setStats_resp (n : Stats) : (s.setStats n).resp = s.resp := rfl
@[simp] theorem State.setStats_reason (n : Stats) : (s.setStats n).reason = s.reason := rfl
@[simp] theorem State.setStats_draws (n : Stats) : (s.setStats n).draws = s.draws := rfl
@[simp] theorem State.setStats_sched (n : Stats) : (s.setStats n).sched = s.sched := rfl

@[simp] theorem State.setEnv_cfg (e : EnvState) : (s.setEnv e).cfg = s.cfg := rfl
@[simp] theorem State.setEnv_dec (e : EnvState) : (s.setEnv e).dec = s.dec := rfl
@[simp] theorem State.setEnv_fq (e : EnvState) : (s.setEnv e).fq = s.fq := rfl
@[simp] theorem State.setEnv_host (e : EnvState) : (s.setEnv e).host = s.host := rfl
@[simp] theorem State.setEnv_stats (e : EnvState) : (s.setEnv e).stats = s.stats := rfl
@[simp] theorem State.setEnv_env (e : EnvState) : (s.setEnv e).env = e := rfl
@[simp] theorem State.setEnv_caller (e : EnvState) : (s.setEnv e).caller = s.caller := rfl
@[simp] theorem State.setEnv_ports (e : EnvState) : (s.setEnv e).ports = s.ports := rfl
@[simp] theorem State.setEnv_resp (e : EnvState) : (s.setEnv e).resp = s.resp := rfl
@[simp] theorem State.setEnv_reason (e : EnvState) : (s.setEnv e).reason = s.reason := rfl
@[simp] theorem State.setEnv_draws (e : EnvState) : (s.setEnv e).draws = s.draws := rfl
@[simp] theorem State.setEnv_sched (e : EnvState) : (s.setEnv e).sched = s.sched := rfl

@[simp] theorem State.setCaller_cfg (c : Caller) : (s.setCaller c).cfg = s.cfg := rfl
@[simp] theorem State.setCaller_dec (c : Caller) : (s.setCaller c).dec = s.dec := rfl
@[simp] theorem State.setCaller_fq (c : Caller) : (s.setCaller c).fq = s.fq := rfl
@[simp] theorem State.setCaller_host (c : Caller) : (s.setCaller c).host = s.host := rfl
@[simp] theorem State.setCaller_stats (c : Caller) : (s.setCaller c).stats = s.stats := rfl
@[simp] theorem State.setCaller_env (c : Caller) : (s.setCaller c).env = s.env := rfl
@[simp] theorem State.setCaller_caller (c : Caller) : (s.setCaller c).caller = c := rfl
@[simp] theorem State.setCaller_ports (c : Caller) : (s.setCaller c).ports = s.ports := rfl
@[simp] theorem State.setCaller_resp (c : Caller) : (s.setCaller c).resp = s.resp := rfl
@[simp] theorem State.setCaller_reason (c : Caller) : (s.setCaller c).reason = s.reason := rfl
@[simp] theorem State.setCaller_draws (c : Caller) : (s.setCaller c).draws = s.draws := rfl
@[simp] theorem State.setCaller_sched (c : Caller) : (s.setCaller c).sched = s.sched := rfl

@[simp] theorem State.setPorts_cfg (p : Ports) : (s.setPorts p).cfg = s.cfg := rfl
@[simp] theorem State.setPorts_dec (p : Ports) : (s.setPorts p).dec = s.dec := rfl
@[simp] theorem State.setPorts_fq (p : Ports) : (s.setPorts p).fq = s.fq := rfl
@[simp] theorem State.setPorts_host (p : Ports) : (s.setPorts p).host = s.host := rfl
@[simp] theorem State.setPorts_stats (p : Ports) : (s.setPorts p).stats = s.stats := rfl
@[simp] theorem State.setPorts_env (p : Ports) : (s.setPorts p).env = s.env := rfl
@[simp] theorem State.setPorts_caller (p : Ports) : (s.setPorts p).caller = s.caller := rfl
@[simp] theorem State.setPorts_ports (p : Ports) : (s.setPorts p).ports = p := rfl
@[simp] theorem State.setPorts_resp (p : Ports) : (s.setPorts p).resp = s.resp := rfl
@[simp] theorem State.setPorts_reason (p : Ports) : (s.setPorts p).reason = s.reason := rfl
@[simp] theorem State.setPorts_draws (p : Ports) : (s.setPorts p).draws = s.draws := rfl
@[simp] theorem State.setPorts_sched (p : Ports) : (s.setPorts p).sched = s.sched := rfl

@[simp] theorem State.setDraws_cfg (n : Nat) : (s.setDraws n).cfg = s.cfg := rfl
@[simp] theorem State.setDraws_dec (n : Nat) : (s.setDraws n).dec = s.dec := rfl
@[simp] theorem State.setDraws_fq (n : Nat) : (s.setDraws n).fq = s.fq := rfl
@[simp] theorem State.setDraws_host (n : Nat) : (s.setDraws n).host = s.host := rfl
@[simp] theorem State.setDraws_stats (n : Nat) : (s.setDraws n).stats = s.stats := rfl
@[simp] theorem State.setDraws_env (n : Nat) : (s.setDraws n).env = s.env := rfl
@[simp] theorem State.setDraws_caller (n : Nat) : (s.setDraws n).caller = s.caller := rfl
@[simp] theorem State.setDraws_ports (n : Nat) : (s.setDraws n).ports = s.ports := rfl
@[simp] theorem State.setDraws_resp (n : Nat) : (s.setDraws n).resp = s.resp := rfl
@[simp] theorem State.setDraws_reason (n : Nat) : (s.setDraws n).reason = s.reason := rfl
@[simp] theorem State.setDraws_draws (n : Nat) : (s.setDraws n).draws = n := rfl
@[simp] theorem State.setDraws_sched (n : Nat) : (s.setDraws n).sched = s.sched := rfl

@[simp] theorem State.setSched_cfg (ms : List Move) : (s.setSched ms).cfg = s.cfg := rfl
@[simp] theorem State.setSched_dec (ms : List Move) : (s.setSched ms).dec = s.dec := rfl
@[simp] theorem State.setSched_fq (ms : List Move) : (s.setSched ms).fq = s.fq := rfl
@[simp] theorem State.setSched_host (ms : List Move) : (s.setSched ms).host = s.host := rfl
@[simp] theorem State.setSched_stats (ms : List Move) : (s.setSched ms).stats = s.stats := rfl
@[simp] theorem State.setSched_env (ms : List Move) : (s.setSched ms).env = s.env := rfl
@[simp] theorem State.setSched_caller (ms : List Move) : (s.setSched ms).caller = s.caller := rfl
@[simp] theorem State.setSched_ports (ms : List Move) : (s.setSched ms).ports = s.ports := rfl
@[simp] theorem State.setSched_resp (ms : List Move) : (s.setSched ms).resp = s.resp := rfl
@[simp] theorem State.setSched_reason (ms : List Move) : (s.setSched ms).reason = s.reason := rfl
@[simp] theorem State.setSched_draws (ms : List Move) : (s.setSched ms).draws = s.draws := rfl
@[simp] theorem State.setSched_sched (ms : List Move) : (s.setSched ms).sched = ms := rfl

@[simp] theorem State.rxGoTo_cfg (p : RxPosition) : (s.rxGoTo p).cfg = s.cfg := rfl
@[simp] theorem State.rxGoTo_dec (p : RxPosition) : (s.rxGoTo p).dec = s.dec := rfl
@[simp] theorem State.rxGoTo_fq (p : RxPosition) : (s.rxGoTo p).fq = s.fq := rfl
@[simp] theorem State.rxGoTo_stats (p : RxPosition) : (s.rxGoTo p).stats = s.stats := rfl
@[simp] theorem State.rxGoTo_env (p : RxPosition) : (s.rxGoTo p).env = s.env := rfl
@[simp] theorem State.rxGoTo_caller (p : RxPosition) : (s.rxGoTo p).caller = s.caller := rfl
@[simp] theorem State.rxGoTo_ports (p : RxPosition) : (s.rxGoTo p).ports = s.ports := rfl
@[simp] theorem State.rxGoTo_resp (p : RxPosition) : (s.rxGoTo p).resp = s.resp := rfl
@[simp] theorem State.rxGoTo_reason (p : RxPosition) : (s.rxGoTo p).reason = s.reason := rfl
@[simp] theorem State.rxGoTo_draws (p : RxPosition) : (s.rxGoTo p).draws = s.draws := rfl
@[simp] theorem State.rxGoTo_sched (p : RxPosition) : (s.rxGoTo p).sched = s.sched := rfl
@[simp] theorem State.rxGoTo_host (p : RxPosition) : (s.rxGoTo p).host = { s.host with rxAt := p } := rfl

@[simp] theorem State.tickGoTo_cfg (p : TickPosition) : (s.tickGoTo p).cfg = s.cfg := rfl
@[simp] theorem State.tickGoTo_dec (p : TickPosition) : (s.tickGoTo p).dec = s.dec := rfl
@[simp] theorem State.tickGoTo_fq (p : TickPosition) : (s.tickGoTo p).fq = s.fq := rfl
@[simp] theorem State.tickGoTo_stats (p : TickPosition) : (s.tickGoTo p).stats = s.stats := rfl
@[simp] theorem State.tickGoTo_env (p : TickPosition) : (s.tickGoTo p).env = s.env := rfl
@[simp] theorem State.tickGoTo_caller (p : TickPosition) : (s.tickGoTo p).caller = s.caller := rfl
@[simp] theorem State.tickGoTo_ports (p : TickPosition) : (s.tickGoTo p).ports = s.ports := rfl
@[simp] theorem State.tickGoTo_resp (p : TickPosition) : (s.tickGoTo p).resp = s.resp := rfl
@[simp] theorem State.tickGoTo_reason (p : TickPosition) : (s.tickGoTo p).reason = s.reason := rfl
@[simp] theorem State.tickGoTo_draws (p : TickPosition) : (s.tickGoTo p).draws = s.draws := rfl
@[simp] theorem State.tickGoTo_sched (p : TickPosition) : (s.tickGoTo p).sched = s.sched := rfl
@[simp] theorem State.tickGoTo_host (p : TickPosition) : (s.tickGoTo p).host = { s.host with tickAt := p } := rfl

@[simp] theorem State.respond_cfg (r : Response) (w : Option Reason) : (s.respond r w).cfg = s.cfg := rfl
@[simp] theorem State.respond_dec (r : Response) (w : Option Reason) : (s.respond r w).dec = s.dec := rfl
@[simp] theorem State.respond_fq (r : Response) (w : Option Reason) : (s.respond r w).fq = s.fq := rfl
@[simp] theorem State.respond_host (r : Response) (w : Option Reason) : (s.respond r w).host = s.host := rfl
@[simp] theorem State.respond_stats (r : Response) (w : Option Reason) : (s.respond r w).stats = s.stats := rfl
@[simp] theorem State.respond_env (r : Response) (w : Option Reason) : (s.respond r w).env = s.env := rfl
@[simp] theorem State.respond_caller (r : Response) (w : Option Reason) : (s.respond r w).caller = s.caller := rfl
@[simp] theorem State.respond_ports (r : Response) (w : Option Reason) : (s.respond r w).ports = s.ports := rfl
@[simp] theorem State.respond_resp (r : Response) (w : Option Reason) : (s.respond r w).resp = r := rfl
@[simp] theorem State.respond_reason (r : Response) (w : Option Reason) : (s.respond r w).reason = w := rfl
@[simp] theorem State.respond_draws (r : Response) (w : Option Reason) : (s.respond r w).draws = s.draws := rfl
@[simp] theorem State.respond_sched (r : Response) (w : Option Reason) : (s.respond r w).sched = s.sched := rfl

@[simp] theorem State.stays_cfg : s.stays.cfg = s.cfg := rfl
@[simp] theorem State.stays_dec : s.stays.dec = s.dec := rfl
@[simp] theorem State.stays_fq : s.stays.fq = s.fq := rfl
@[simp] theorem State.stays_host : s.stays.host = s.host := rfl
@[simp] theorem State.stays_stats : s.stays.stats = s.stats := rfl
@[simp] theorem State.stays_env : s.stays.env = s.env := rfl
@[simp] theorem State.stays_caller : s.stays.caller = s.caller := rfl
@[simp] theorem State.stays_ports : s.stays.ports = s.ports := rfl
@[simp] theorem State.stays_resp : s.stays.resp = .waits := rfl
@[simp] theorem State.stays_reason : s.stays.reason = none := rfl
@[simp] theorem State.stays_draws : s.stays.draws = s.draws := rfl
@[simp] theorem State.stays_sched : s.stays.sched = s.sched := rfl

@[simp] theorem State.countReceived_cfg : s.countReceived.cfg = s.cfg := rfl
@[simp] theorem State.countReceived_dec : s.countReceived.dec = s.dec := rfl
@[simp] theorem State.countReceived_fq : s.countReceived.fq = s.fq := rfl
@[simp] theorem State.countReceived_host : s.countReceived.host = s.host := rfl
@[simp] theorem State.countReceived_stats : s.countReceived.stats = { s.stats with framesReceived := bump s.cfg s.stats.framesReceived } := rfl
@[simp] theorem State.countReceived_env : s.countReceived.env = s.env := rfl
@[simp] theorem State.countReceived_caller : s.countReceived.caller = s.caller := rfl
@[simp] theorem State.countReceived_ports : s.countReceived.ports = s.ports := rfl
@[simp] theorem State.countReceived_resp : s.countReceived.resp = s.resp := rfl
@[simp] theorem State.countReceived_reason : s.countReceived.reason = s.reason := rfl
@[simp] theorem State.countReceived_draws : s.countReceived.draws = s.draws := rfl
@[simp] theorem State.countReceived_sched : s.countReceived.sched = s.sched := rfl

@[simp] theorem State.countDroppedRx_cfg : s.countDroppedRx.cfg = s.cfg := rfl
@[simp] theorem State.countDroppedRx_dec : s.countDroppedRx.dec = s.dec := rfl
@[simp] theorem State.countDroppedRx_fq : s.countDroppedRx.fq = s.fq := rfl
@[simp] theorem State.countDroppedRx_host : s.countDroppedRx.host = s.host := rfl
@[simp] theorem State.countDroppedRx_stats : s.countDroppedRx.stats = { s.stats with droppedRx := bump s.cfg s.stats.droppedRx } := rfl
@[simp] theorem State.countDroppedRx_env : s.countDroppedRx.env = s.env := rfl
@[simp] theorem State.countDroppedRx_caller : s.countDroppedRx.caller = s.caller := rfl
@[simp] theorem State.countDroppedRx_ports : s.countDroppedRx.ports = s.ports := rfl
@[simp] theorem State.countDroppedRx_resp : s.countDroppedRx.resp = s.resp := rfl
@[simp] theorem State.countDroppedRx_reason : s.countDroppedRx.reason = s.reason := rfl
@[simp] theorem State.countDroppedRx_draws : s.countDroppedRx.draws = s.draws := rfl
@[simp] theorem State.countDroppedRx_sched : s.countDroppedRx.sched = s.sched := rfl

@[simp] theorem State.countProcessed_cfg : s.countProcessed.cfg = s.cfg := rfl
@[simp] theorem State.countProcessed_dec : s.countProcessed.dec = s.dec := rfl
@[simp] theorem State.countProcessed_fq : s.countProcessed.fq = s.fq := rfl
@[simp] theorem State.countProcessed_host : s.countProcessed.host = s.host := rfl
@[simp] theorem State.countProcessed_stats : s.countProcessed.stats = { s.stats with packetsProcessed := bump s.cfg s.stats.packetsProcessed } := rfl
@[simp] theorem State.countProcessed_env : s.countProcessed.env = s.env := rfl
@[simp] theorem State.countProcessed_caller : s.countProcessed.caller = s.caller := rfl
@[simp] theorem State.countProcessed_ports : s.countProcessed.ports = s.ports := rfl
@[simp] theorem State.countProcessed_resp : s.countProcessed.resp = s.resp := rfl
@[simp] theorem State.countProcessed_reason : s.countProcessed.reason = s.reason := rfl
@[simp] theorem State.countProcessed_draws : s.countProcessed.draws = s.draws := rfl
@[simp] theorem State.countProcessed_sched : s.countProcessed.sched = s.sched := rfl

@[simp] theorem State.countDroppedRender_cfg : s.countDroppedRender.cfg = s.cfg := rfl
@[simp] theorem State.countDroppedRender_dec : s.countDroppedRender.dec = s.dec := rfl
@[simp] theorem State.countDroppedRender_fq : s.countDroppedRender.fq = s.fq := rfl
@[simp] theorem State.countDroppedRender_host : s.countDroppedRender.host = s.host := rfl
@[simp] theorem State.countDroppedRender_stats : s.countDroppedRender.stats = { s.stats with droppedRender := bump s.cfg s.stats.droppedRender } := rfl
@[simp] theorem State.countDroppedRender_env : s.countDroppedRender.env = s.env := rfl
@[simp] theorem State.countDroppedRender_caller : s.countDroppedRender.caller = s.caller := rfl
@[simp] theorem State.countDroppedRender_ports : s.countDroppedRender.ports = s.ports := rfl
@[simp] theorem State.countDroppedRender_resp : s.countDroppedRender.resp = s.resp := rfl
@[simp] theorem State.countDroppedRender_reason : s.countDroppedRender.reason = s.reason := rfl
@[simp] theorem State.countDroppedRender_draws : s.countDroppedRender.draws = s.draws := rfl
@[simp] theorem State.countDroppedRender_sched : s.countDroppedRender.sched = s.sched := rfl

@[simp] theorem State.setCells_cfg (b : BufName) (m : Memory) : (s.setCells b m).cfg = s.cfg := by cases b <;> rfl
@[simp] theorem State.setCells_dec (b : BufName) (m : Memory) : (s.setCells b m).dec = s.dec := by cases b <;> rfl
@[simp] theorem State.setCells_fq (b : BufName) (m : Memory) : (s.setCells b m).fq = s.fq := by cases b <;> rfl
@[simp] theorem State.setCells_stats (b : BufName) (m : Memory) : (s.setCells b m).stats = s.stats := by cases b <;> rfl
@[simp] theorem State.setCells_env (b : BufName) (m : Memory) : (s.setCells b m).env = s.env := by cases b <;> rfl
@[simp] theorem State.setCells_ports (b : BufName) (m : Memory) : (s.setCells b m).ports = s.ports := by cases b <;> rfl
@[simp] theorem State.setCells_resp (b : BufName) (m : Memory) : (s.setCells b m).resp = s.resp := by cases b <;> rfl
@[simp] theorem State.setCells_reason (b : BufName) (m : Memory) : (s.setCells b m).reason = s.reason := by cases b <;> rfl
@[simp] theorem State.setCells_draws (b : BufName) (m : Memory) : (s.setCells b m).draws = s.draws := by cases b <;> rfl
@[simp] theorem State.setCells_sched (b : BufName) (m : Memory) : (s.setCells b m).sched = s.sched := by cases b <;> rfl

@[simp] theorem State.writeView_cfg (v : View) (bs : List Byte) : (s.writeView v bs).cfg = s.cfg := by
  simp [State.writeView]
@[simp] theorem State.writeView_dec (v : View) (bs : List Byte) : (s.writeView v bs).dec = s.dec := by
  simp [State.writeView]
@[simp] theorem State.writeView_fq (v : View) (bs : List Byte) : (s.writeView v bs).fq = s.fq := by
  simp [State.writeView]
@[simp] theorem State.writeView_stats (v : View) (bs : List Byte) : (s.writeView v bs).stats = s.stats := by
  simp [State.writeView]
@[simp] theorem State.writeView_env (v : View) (bs : List Byte) : (s.writeView v bs).env = s.env := by
  simp [State.writeView]
@[simp] theorem State.writeView_ports (v : View) (bs : List Byte) : (s.writeView v bs).ports = s.ports := by
  simp [State.writeView]
@[simp] theorem State.writeView_resp (v : View) (bs : List Byte) : (s.writeView v bs).resp = s.resp := by
  simp [State.writeView]
@[simp] theorem State.writeView_reason (v : View) (bs : List Byte) : (s.writeView v bs).reason = s.reason := by
  simp [State.writeView]
@[simp] theorem State.writeView_draws (v : View) (bs : List Byte) : (s.writeView v bs).draws = s.draws := by
  simp [State.writeView]
@[simp] theorem State.writeView_sched (v : View) (bs : List Byte) : (s.writeView v bs).sched = s.sched := by
  simp [State.writeView]

/-- The lifecycle registers are no cells: writing a buffer leaves them. -/
@[simp] theorem State.setCells_host_state (b : BufName) (m : Memory) : (s.setCells b m).host.state = s.host.state := by
  cases b <;> rfl
@[simp] theorem State.setCells_host_stop (b : BufName) (m : Memory) : (s.setCells b m).host.stop = s.host.stop := by
  cases b <;> rfl
@[simp] theorem State.setCells_host_rxDrain (b : BufName) (m : Memory) :
    (s.setCells b m).host.rxDrain = s.host.rxDrain := by
  cases b <;> rfl

@[simp] theorem State.setCells_host_rxAt (b : BufName) (m : Memory) : (s.setCells b m).host.rxAt = s.host.rxAt := by
  cases b <;> rfl
@[simp] theorem State.setCells_host_tickAt (b : BufName) (m : Memory) : (s.setCells b m).host.tickAt = s.host.tickAt := by
  cases b <;> rfl

@[simp] theorem State.writeView_host_state (v : View) (bs : List Byte) :
    (s.writeView v bs).host.state = s.host.state := by
  simp [State.writeView]
@[simp] theorem State.writeView_host_stop (v : View) (bs : List Byte) : (s.writeView v bs).host.stop = s.host.stop := by
  simp [State.writeView]
@[simp] theorem State.writeView_host_rxDrain (v : View) (bs : List Byte) :
    (s.writeView v bs).host.rxDrain = s.host.rxDrain := by
  simp [State.writeView]

@[simp] theorem State.writeView_host_rxAt (v : View) (bs : List Byte) : (s.writeView v bs).host.rxAt = s.host.rxAt := by
  simp [State.writeView]
@[simp] theorem State.writeView_host_tickAt (v : View) (bs : List Byte) :
    (s.writeView v bs).host.tickAt = s.host.tickAt := by
  simp [State.writeView]

/-- Writing no byte changes nothing. -/
@[simp] theorem State.writeView_nil (v : View) : s.writeView v [] = s := by
  obtain ⟨b, _, _⟩ := v
  cases b <;> rfl

/-! A named buffer's size and cells are the configuration's, `host.rbuf`'s or the caller's: no other field's. -/

@[simp] theorem State.respond_buf (b : BufName) (r : Response) (w : Option Reason) : (s.respond r w).buf b = s.buf b := rfl
@[simp] theorem State.setDec_buf (b : BufName) (d : Dec) : (s.setDec d).buf b = s.buf b := rfl
@[simp] theorem State.setFq_buf (b : BufName) (q : Fq) : (s.setFq q).buf b = s.buf b := rfl
@[simp] theorem State.setStats_buf (b : BufName) (n : Stats) : (s.setStats n).buf b = s.buf b := rfl
@[simp] theorem State.setEnv_buf (b : BufName) (e : EnvState) : (s.setEnv e).buf b = s.buf b := rfl
@[simp] theorem State.setPorts_buf (b : BufName) (p : Ports) : (s.setPorts p).buf b = s.buf b := rfl
@[simp] theorem State.rxGoTo_buf (b : BufName) (p : RxPosition) : (s.rxGoTo p).buf b = s.buf b := by cases b <;> rfl
@[simp] theorem State.tickGoTo_buf (b : BufName) (p : TickPosition) : (s.tickGoTo p).buf b = s.buf b := by cases b <;> rfl
@[simp] theorem State.setDraws_buf (b : BufName) (n : Nat) : (s.setDraws n).buf b = s.buf b := rfl
@[simp] theorem State.setSched_buf (b : BufName) (ms : List Move) : (s.setSched ms).buf b = s.buf b := rfl

/-- A write to one buffer's cells: that buffer's cells are the written ones, its size stays. -/
@[simp] theorem State.setCells_buf_self (b : BufName) (m : Memory) :
    (s.setCells b m).buf b = { size := (s.buf b).size, cells := m } := by
  cases b <;> rfl

/-- A write to one buffer's cells leaves every other buffer. -/
theorem State.setCells_buf_other {b b' : BufName} (h : b' ≠ b) (m : Memory) : (s.setCells b m).buf b' = s.buf b' := by
  cases b <;> cases b' <;> first | rfl | exact absurd rfl h

end Sys2Proof.Machine
end

