-- ==== Sys2Proof/Laws/Units.lean ====
section
/-! SUPPORT. What buffer operands, PC.PARSE and BS.LIMIT can do (R110, R119, R153). -/

namespace Sys2Proof.Machine

variable {s t : State} {v : View} {n : Nat}

/-! The header's checks and fields as the numbers the spec compares (R72, R73, R74, R77, R126). -/

theorem flagsVersion_eq_marker {b : Byte} : flagsVersion b = versionMarker ↔ b.toNat / 64 = 1 := by
  revert b
  decide

theorem flagsPush_eq (b : Byte) : flagsPush b = decide (b.toNat % 2 = 1) := by
  revert b
  decide

theorem sequenceOf_toNat (b : Byte) : (sequenceOf b).toNat = b.toNat % 16 := by
  revert b
  decide

theorem dataTypeOk_iff {b : Byte} : dataTypeOk b = true ↔ b = 0x00#8 ∨ b = 0x01#8 := by
  simp [dataTypeOk]

theorem payloadLenOk_iff {n : Nat} : payloadLenOk n = true ↔ 1 ≤ n ∧ n ≤ 1440 := by
  rw [payloadLenOk, Bool.and_eq_true, decide_eq_true_eq, decide_eq_true_eq]
  rfl

theorem scaleParamsOk_iff {mx mn : Nat} : scaleParamsOk mx mn = true ↔ mn ≤ mx ∧ mx ≤ 255 := by
  simp [scaleParamsOk]

/-- The size check, said once (R153). -/
theorem State.checkView_ok : s.checkView v n = .ok () ↔ n ≤ v.size ∧ (n = 0 ∨ v.base + n ≤ (s.buf v.buf).size) := by
  have hv : s.viewCells v = min v.size ((s.buf v.buf).size - v.base) := rfl
  simp only [State.checkView]
  by_cases h : n ≤ s.viewCells v
  · rw [if_pos h]
    simp only [true_iff]
    omega
  · rw [if_neg h]
    simp only [reduceCtorEq, false_iff]
    omega

theorem State.checkView_eq : s.checkView v n = .ok () ∨ s.checkView v n = .error (.fault .bufferTooSmall) := by
  simp only [State.checkView]
  split <;> simp

theorem State.viewByte_of_held {bs : List Byte} {k : Nat} (h : Memory.readCells (s.buf v.buf).cells v.base n = some bs)
    (hk : k < n) : ∃ b, s.viewByte v k = .ok b ∧ bs[k]? = some b := by
  obtain ⟨hl, hc⟩ := Memory.readCells_eq_some.mp h
  refine ⟨bs[k]'(by omega), ?_, by simp⟩
  simp only [State.viewByte, hc k hk]
  rw [List.getElem?_eq_getElem (by omega)]

theorem State.viewBytes_ok {bs : List Byte} :
    s.viewBytes v n = .ok bs ↔ Memory.readCells (s.buf v.buf).cells v.base n = some bs := by
  simp only [State.viewBytes]
  split <;> simp_all

/-- A buffer operand just written: that buffer has the same size and the written cells. -/
theorem State.writeView_buf_self (bs : List Byte) :
    (s.writeView v bs).buf v.buf =
      { size := (s.buf v.buf).size, cells := Memory.writeSpan (s.buf v.buf).cells v.base bs } := by
  simp [State.writeView]

/-- Every other buffer stays. -/
theorem State.writeView_buf_other {b : BufName} (h : b ≠ v.buf) (bs : List Byte) : (s.writeView v bs).buf b = s.buf b := by
  simp [State.writeView, State.setCells_buf_other s h]

/-- Everything a successful PC.PARSE says (R110, R116): the payload view lies within `length`. -/
theorem State.parse_packet {p : Packet} (h : s.parse v n = .ok (.ok p)) :
    s.checkView v n = .ok () ∧ hdrSize ≤ n ∧ hdrSize + p.payloadLen ≤ n ∧ payloadLenOk p.payloadLen = true ∧
      p.payload = { buf := v.buf, base := v.base + hdrSize, size := p.payloadLen } ∧ p.pixelCount = p.payloadLen / 3 ∧
      p.version = versionMarker ∧ dataTypeOk p.dataType = true := by
  simp only [State.parse] at h
  split at h
  · exact absurd h (by simp)
  · rename_i hc
    refine ⟨hc, ?_⟩
    simp only [State.parseHeader] at h
    split at h
    · exact absurd h (by simp)
    · rename_i hn
      split at h
      · exact absurd h (by simp)
      · split at h
        · exact absurd h (by simp)
        · rename_i hv
          split at h
          · exact absurd h (by simp)
          · split at h
            · rename_i hd
              simp only [State.parseLengths] at h
              split at h
              · split at h
                · rename_i hp
                  split at h
                  · exact absurd h (by simp)
                  · rename_i ht
                    split at h
                    · rename_i hpk
                      simp only [Except.ok.injEq] at h
                      subst h
                      simp only [State.packetOf] at hpk
                      split at hpk
                      · simp only [Except.ok.injEq] at hpk
                        subst hpk
                        exact ⟨by omega, by simpa using ht, hp, rfl, rfl, by simpa using hv, hd⟩
                      · exact absurd hpk (by simp)
                    · exact absurd h (by simp)
                · exact absurd h (by simp)
              · exact absurd h (by simp)
            · exact absurd h (by simp)

/-- PC.PARSE of a buffer whose first `length` cells hold values answers (R110). -/
theorem State.parse_answers {bs : List Byte} (hc : s.checkView v n = .ok ())
    (h : Memory.readCells (s.buf v.buf).cells v.base n = some bs) : ∃ r, s.parse v n = .ok r := by
  simp only [State.parse, hc, State.parseHeader]
  split
  · exact ⟨_, rfl⟩
  · rename_i hn
    have hb : ∀ k, k < 10 → ∃ b, s.viewByte v k = .ok b := fun k hk =>
      (State.viewByte_of_held h (k := k) (by simp only [hdrSize] at hn; omega)).imp fun _ hb => hb.1
    obtain ⟨b0, h0⟩ := hb 0 (by omega)
    obtain ⟨b1, h1⟩ := hb 1 (by omega)
    obtain ⟨b2, h2⟩ := hb 2 (by omega)
    obtain ⟨b3, h3⟩ := hb 3 (by omega)
    obtain ⟨b4, h4⟩ := hb 4 (by omega)
    obtain ⟨b5, h5⟩ := hb 5 (by omega)
    obtain ⟨b6, h6⟩ := hb 6 (by omega)
    obtain ⟨b7, h7⟩ := hb 7 (by omega)
    obtain ⟨b8, h8⟩ := hb 8 (by omega)
    obtain ⟨b9, h9⟩ := hb 9 (by omega)
    simp only [h0, h2, State.parseLengths, State.packetOf, h1, h3, h4, h5, h6, h7, h8, h9]
    split
    · exact ⟨_, rfl⟩
    · split
      · split
        · split <;> exact ⟨_, rfl⟩
        · exact ⟨_, rfl⟩
      · exact ⟨_, rfl⟩

@[simp] theorem scalePixels_length (c : Config) (k : Nat) (px : List Byte) : (scalePixels c k px).length = px.length := by
  simp only [scalePixels]
  split <;> simp

/-- Everything BS.LIMIT can do (R119). -/
theorem State.limit_ok {count total thr mx mn : Nat} (h : s.limit v count total thr mx mn = .ok t) :
    scaleParamsOk mx mn = true ∧ s.checkView v (3 * count) = .ok () ∧
      ∃ px, Memory.readCells (s.buf v.buf).cells v.base (3 * count) = some px ∧
        t = s.writeView v (scalePixels s.cfg (selectScale (litCount px) total thr mx mn) px) := by
  simp only [State.limit] at h
  split at h
  · rename_i hp
    split at h
    · exact absurd h (by simp)
    · rename_i hc
      split at h
      · exact absurd h (by simp)
      · rename_i px hpx
        simp only [Except.ok.injEq] at h
        exact ⟨hp, hc, px, State.viewBytes_ok.mp hpx, h.symm⟩
  · exact absurd h (by simp)

/-- BS.LIMIT with legal parameters on cells that hold values answers (R119). -/
theorem State.limit_answers {count total thr mx mn : Nat} {px : List Byte} (hp : scaleParamsOk mx mn = true)
    (hc : s.checkView v (3 * count) = .ok ())
    (h : Memory.readCells (s.buf v.buf).cells v.base (3 * count) = some px) :
    s.limit v count total thr mx mn =
      .ok (s.writeView v (scalePixels s.cfg (selectScale (litCount px) total thr mx mn) px)) := by
  simp [State.limit, hp, hc, State.viewBytes_ok.mpr h]

/-- In every branch `minScale <= scale <= maxScale` (R123). -/
theorem selectScale_bounds {lit total thr mx mn : Nat} (h : mn ≤ mx) :
    mn ≤ selectScale lit total thr mx mn ∧ selectScale lit total thr mx mn ≤ mx := by
  simp only [selectScale]
  split
  · omega
  · split
    · omega
    · have : (lit - thr) * (mx - mn) / (total - thr) ≤ mx - mn := by
        refine Nat.div_le_of_le_mul ?_
        exact Nat.mul_le_mul_right _ (by omega)
      generalize (lit - thr) * (mx - mn) / (total - thr) = q at this
      omega

/-- A scale of at most 255 never overflows a byte (R124). -/
theorem scaleByte_toNat {k : Nat} (c : Byte) (h : k ≤ 255) : (scaleByte k c).toNat = c.toNat * k / 256 := by
  have hc := c.isLt
  have : c.toNat * k ≤ 255 * 255 := Nat.mul_le_mul (by omega) h
  simp only [scaleByte, BitVec.toNat_ofNat, Nat.shiftRight_eq_div_pow]
  omega

end Sys2Proof.Machine
end

