-- ==== Sys2Proof/Laws/HostLoop.lean ====
section
/-! SUPPORT. What the queue's operations do to the whole state, and everything each step of HOST.RX_BYTE and of HOST.RENDER_TICK
can do (R133, R134), said once. -/

namespace Sys2Proof.Machine

/-- Everything FQ.WRITE does to the state: the queue alone changes. -/
theorem State.fqWrite_ok {s t : State} {cs : List (Option Byte)} {why : Option Reason} (h : s.fqWrite cs = .ok (t, why)) :
    ∃ q, s.fq.write s.cfg cs = .ok (q, why) ∧ t = s.setFq q := by
  simp only [State.fqWrite] at h
  split at h
  · exact absurd h (by simp)
  · rename_i q w hq
    simp only [Except.ok.injEq, Prod.mk.injEq] at h
    exact ⟨q, by rw [hq, h.2], h.1.symm⟩

/-- Everything FQ.READ does to the state: the queue, and the destination's first cells. -/
theorem State.fqRead_ok {s t : State} {n : Nat} {dst : View} {bs : List Byte} {why : Option Reason}
    (h : s.fqRead n dst = .ok (t, bs, why)) :
    s.checkView dst n = .ok () ∧ ∃ q, s.fq.read s.cfg n = .ok (q, bs, why) ∧ t = (s.setFq q).writeView dst bs := by
  simp only [State.fqRead] at h
  split at h
  · exact absurd h (by simp)
  · rename_i hc
    split at h
    · exact absurd h (by simp)
    · rename_i q bs' w hq
      simp only [Except.ok.injEq, Prod.mk.injEq] at h
      obtain ⟨h1, h2, h3⟩ := h
      subst h2 h3
      exact ⟨hc, q, hq, h1.symm⟩

/-- Everything the first step of HOST.RX_BYTE can do (R133). -/
theorem hostRxByte_ok {s t : State} (h : hostRxByte s = .ok t) :
    (s.env.input = [] ∧ t = s.stays) ∨
      ∃ b rest d ready why, s.env.input = b :: rest ∧ s.dec.push s.cfg b = .ok (d, ready, why) ∧
        t = if ready then (((s.takeInput rest).setDec d).rxGoTo .frame).respond (.frameReady true) none
          else ((s.takeInput rest).setDec d).respond .done why := by
  simp only [hostRxByte] at h
  split at h
  · rename_i hi
    simp only [Except.ok.injEq] at h
    exact .inl ⟨hi, h.symm⟩
  · rename_i b rest hi
    refine .inr ⟨b, rest, ?_⟩
    have hd : (s.takeInput rest).dec = s.dec := rfl
    rw [hd] at h
    split at h
    · exact absurd h (by simp)
    · rename_i d why hp
      simp only [Except.ok.injEq] at h
      exact ⟨d, true, why, hi, hp, h.symm⟩
    · rename_i d why hp
      simp only [Except.ok.injEq] at h
      exact ⟨d, false, why, hi, hp, h.symm⟩

/-- Everything a later step of HOST.RX_BYTE can do (R133), by the position it is taken from. -/
theorem rxProceed_ok {s t : State} (h : rxProceed s = .ok t) :
    (s.host.rxAt = .idle ∧ t = s.stays) ∨
      (s.host.rxAt = .frame ∧ ∃ frame, s.dec.frame s.cfg = .ok frame ∧
        t = (s.rxGoTo (.write frame)).respond (.frame s.dec.outLen frame) none) ∨
      (∃ frame q why, s.host.rxAt = .write frame ∧ s.fq.write s.cfg (frame.map some) = .ok (q, why) ∧
        t = ((s.setFq q).rxGoTo (.count why)).respond (.wrOk why.isNone) why) ∨
      (∃ why, s.host.rxAt = .count why ∧ t = rxCount why s) := by
  unfold rxProceed at h
  split at h
  · rename_i hp
    simp only [Except.ok.injEq] at h
    exact .inl ⟨hp, h.symm⟩
  · rename_i hp
    refine .inr (.inl ⟨hp, ?_⟩)
    unfold rxFrame at h
    split at h
    · exact absurd h (by simp)
    · rename_i frame hf
      simp only [Except.ok.injEq] at h
      exact ⟨frame, hf, h.symm⟩
  · rename_i frame hp
    refine .inr (.inr (.inl ⟨frame, ?_⟩))
    unfold rxWrite at h
    split at h
    · exact absurd h (by simp)
    · rename_i u why hu
      obtain ⟨q, hq, rfl⟩ := State.fqWrite_ok hu
      simp only [Except.ok.injEq] at h
      exact ⟨q, why, hp, hq, h.symm⟩
  · rename_i why hp
    simp only [Except.ok.injEq] at h
    exact .inr (.inr (.inr ⟨why, hp, h.symm⟩))

/-- Everything the first step of HOST.RENDER_TICK can do (R134). -/
theorem hostRenderTick_ok {s t : State} (h : hostRenderTick s = .ok t) :
    t = if s.fq.hasData then (s.tickGoTo .read).respond (.hasData true) none else s.respond .done none := by
  unfold hostRenderTick at h
  split at h <;> simp_all

/-- Everything a later step of HOST.RENDER_TICK can do (R134), by the position it is taken from. -/
theorem tickProceed_ok {s t : State} (h : tickProceed s = .ok t) :
    (s.host.tickAt = .idle ∧ t = s.stays) ∨
      (s.host.tickAt = .read ∧ ∃ u bs why, s.fqRead s.cfg.renderBufCap (rbufView s.cfg) = .ok (u, bs, why) ∧
        t = (u.tickGoTo (.parse bs.length)).respond (.read bs.length bs) why) ∨
      (∃ n, s.host.tickAt = .parse n ∧
        ((∃ r, s.parse (rbufView s.cfg) n = .ok (.error r) ∧ t = (s.tickGoTo (.drop r)).respond .parseFail (some r)) ∨
          (∃ p, s.parse (rbufView s.cfg) n = .ok (.ok p) ∧
            t = (s.tickGoTo (routePacket s.cfg.channels p)).respond (.packet p) none))) ∨
      (∃ p ch u, s.host.tickAt = .scale p ch ∧
        s.limit p.payload (clampedCount p ch) ch.pixels bsThresholdDefault bsMaxScaleDefault bsMinScaleDefault = .ok u ∧
        t = (u.tickGoTo (.pixels p ch)).respond .done none) ∨
      (∃ p ch px, s.host.tickAt = .pixels p ch ∧ s.viewBytes p.payload (3 * clampedCount p ch) = .ok px ∧
        t = (((s.ledCalls (setPixels ch.out (p.offset / 3) px)).flushIf p.push ch.out).tickGoTo .count).respond
          (if p.push then .flushing else .underway) none) ∨
      (s.host.tickAt = .count ∧ t = tickCount s) ∨
      (∃ r, s.host.tickAt = .drop r ∧ t = tickDrop r s) := by
  unfold tickProceed at h
  split at h
  · rename_i hp
    simp only [Except.ok.injEq] at h
    exact .inl ⟨hp, h.symm⟩
  · rename_i hp
    refine .inr (.inl ⟨hp, ?_⟩)
    unfold tickRead at h
    split at h
    · exact absurd h (by simp)
    · rename_i u bs why hu
      simp only [Except.ok.injEq] at h
      exact ⟨u, bs, why, hu, h.symm⟩
  · rename_i n hp
    refine .inr (.inr (.inl ⟨n, hp, ?_⟩))
    unfold tickParse at h
    split at h
    · exact absurd h (by simp)
    · rename_i r hr
      simp only [Except.ok.injEq] at h
      exact .inl ⟨r, hr, h.symm⟩
    · rename_i p hr
      simp only [Except.ok.injEq] at h
      exact .inr ⟨p, hr, h.symm⟩
  · rename_i p ch hp
    refine .inr (.inr (.inr (.inl ⟨p, ch, ?_⟩)))
    unfold tickScale at h
    split at h
    · exact absurd h (by simp)
    · rename_i u hu
      simp only [Except.ok.injEq] at h
      exact ⟨u, hp, hu, h.symm⟩
  · rename_i p ch hp
    refine .inr (.inr (.inr (.inr (.inl ⟨p, ch, ?_⟩))))
    unfold tickPixels at h
    split at h
    · exact absurd h (by simp)
    · rename_i px hu
      simp only [Except.ok.injEq] at h
      exact ⟨px, hp, hu, h.symm⟩
  · rename_i hp
    simp only [Except.ok.injEq] at h
    exact .inr (.inr (.inr (.inr (.inr (.inl ⟨hp, h.symm⟩)))))
  · rename_i r hp
    simp only [Except.ok.injEq] at h
    exact .inr (.inr (.inr (.inr (.inr (.inr ⟨r, hp, h.symm⟩)))))

/-- What the routing of a packet gives (R136, R137): a channel of the table with the packet's id that its start lies in, or the
drop of a packet that no channel takes. -/
theorem routePacket_cases {chs : List Channel} (p : Packet) :
    (lookupChannel chs p.dest = none ∧ routePacket chs p = .drop .unknownDest) ∨
      ∃ ch, lookupChannel chs p.dest = some ch ∧
        routePacket chs p = if ch.pixels ≤ p.offset / 3 then .drop .startBeyond else .scale p ch := by
  unfold routePacket
  cases h : lookupChannel chs p.dest with
  | none => exact .inl ⟨rfl, rfl⟩
  | some ch => exact .inr ⟨ch, rfl, rfl⟩

/-- A channel that the lookup finds is in the table, under the id looked up (R136). -/
theorem lookupChannel_some {chs : List Channel} {id : Byte} {ch : Channel} (h : lookupChannel chs id = some ch) :
    ch ∈ chs ∧ ch.id = id :=
  ⟨List.mem_of_find?_eq_some h, by simpa using List.find?_some h⟩

end Sys2Proof.Machine
end

