-- ==== Sys2Proof/Laws/PerInstr.lean ====
section
/-! SUPPORT. A statement about each operation as the host's decoder interface reads it: its command word is 16 times its unit
plus its operation number (R81), and the table's eight bits decode to it. -/

namespace Sys2Proof.Laws.Encoding

def Statement (i : Instr) : Prop :=
  (encode i).toNat = 16 * i.unit.toNat + i.op.toNat ∧ decodeTableWord 8 (encode i).toNat = some i

theorem decPush : Statement .decPush := ⟨by decide, by decide⟩
theorem decFrame : Statement .decFrame := ⟨by decide, by decide⟩
theorem fqWrite : Statement .fqWrite := ⟨by decide, by decide⟩
theorem fqRead : Statement .fqRead := ⟨by decide, by decide⟩
theorem fqSpace : Statement .fqSpace := ⟨by decide, by decide⟩
theorem fqHasData : Statement .fqHasData := ⟨by decide, by decide⟩
theorem fqUsage : Statement .fqUsage := ⟨by decide, by decide⟩
theorem pcParse : Statement .pcParse := ⟨by decide, by decide⟩
theorem bsLimit : Statement .bsLimit := ⟨by decide, by decide⟩
theorem hostBegin : Statement .hostBegin := ⟨by decide, by decide⟩
theorem hostEnd : Statement .hostEnd := ⟨by decide, by decide⟩
theorem hostRxByte : Statement .hostRxByte := ⟨by decide, by decide⟩
theorem hostRenderTick : Statement .hostRenderTick := ⟨by decide, by decide⟩

end Sys2Proof.Laws.Encoding
end

