-- ==== Sys2Proof/Tests/Slice0.lean ====
section
/-! SUPPORT. The model's own tests: command words written out bit by bit from R81, ill-formed operands and configurations,
one step per test on a small state with the result taken from 95_test_vectors.md (the vector's id stands at the test), and a
witness for every statement with hypotheses. -/

namespace Sys2Proof.Tests

open Sys2Proof Sys2Proof.Machine

/-! Decoding (R81). -/

theorem test_decode_decPush : decodeWord 0b00010000#8 = .ok .decPush := by decide
theorem test_decode_decFrame : decodeWord 0b00010001#8 = .ok .decFrame := by decide
theorem test_decode_fqWrite : decodeWord 0b00100000#8 = .ok .fqWrite := by decide
theorem test_decode_fqRead : decodeWord 0b00100001#8 = .ok .fqRead := by decide
theorem test_decode_fqSpace : decodeWord 0b00100010#8 = .ok .fqSpace := by decide
theorem test_decode_fqHasData : decodeWord 0b00100011#8 = .ok .fqHasData := by decide
theorem test_decode_fqUsage : decodeWord 0b00100100#8 = .ok .fqUsage := by decide
theorem test_decode_pcParse : decodeWord 0b00110000#8 = .ok .pcParse := by decide
theorem test_decode_bsLimit : decodeWord 0b01000000#8 = .ok .bsLimit := by decide
theorem test_decode_hostBegin : decodeWord 0b11110000#8 = .ok .hostBegin := by decide
theorem test_decode_hostEnd : decodeWord 0b11110001#8 = .ok .hostEnd := by decide
theorem test_decode_hostRxByte : decodeWord 0b11110010#8 = .ok .hostRxByte := by decide
theorem test_decode_hostRenderTick : decodeWord 0b11110011#8 = .ok .hostRenderTick := by decide

/-- The first unused word of each unit, and units the table leaves out (R82). -/
theorem test_decode_undefined : ∀ w ∈ [0x00#8, 0x0F#8, 0x12#8, 0x1F#8, 0x25#8, 0x31#8, 0x41#8, 0x50#8, 0xE0#8, 0xF4#8, 0xFF#8],
    decodeWord w = .error (.undefinedOperation w) := by decide

theorem test_decode_no_word : decodeBytes [] = .error .noWord := by decide

theorem test_decode_leaves_the_rest : decodeBytes [0x30#8, 0x10#8] = .ok (.pcParse, [0x10#8]) := by decide

/-! Ill-formed operands (R40 to R43): each check of `Ports.fit` refuses one. -/

def okPorts : Ports := portsAtReset

theorem test_fit_reset_ports : ∀ i ∈ [Instr.decPush, .decFrame, .fqWrite, .fqRead, .fqSpace, .fqHasData, .fqUsage, .pcParse,
    .bsLimit, .hostBegin, .hostEnd, .hostRxByte, .hostRenderTick], okPorts.fit i = true := by decide

theorem unfit_wrData_of_length {n : Nat} (h : 65536 ≤ n) :
    Ports.fit .fqWrite { okPorts with wrData := List.replicate n none } = false := by
  simp only [Ports.fit, List.length_replicate, decide_eq_false_iff_not]
  omega

theorem test_unfit_wrData : Ports.fit .fqWrite { okPorts with wrData := List.replicate 65536 none } = false :=
  unfit_wrData_of_length (Nat.le_refl _)

theorem test_unfit_rdMax : Ports.fit .fqRead { okPorts with rdMax := 65536 } = false := by decide
theorem test_unfit_pcLength : Ports.fit .pcParse { okPorts with pcLength := 65536 } = false := by decide
theorem test_unfit_bsCount : Ports.fit .bsLimit { okPorts with bsCount := 65536 } = false := by decide
theorem test_unfit_bsTotal : Ports.fit .bsLimit { okPorts with bsTotal := 65536 } = false := by decide
theorem test_unfit_bsThreshold : Ports.fit .bsLimit { okPorts with bsThreshold := 65536 } = false := by decide
theorem test_unfit_bsMaxScale : Ports.fit .bsLimit { okPorts with bsMaxScale := 256 } = false := by decide
theorem test_unfit_bsMinScale : Ports.fit .bsLimit { okPorts with bsMinScale := 256 } = false := by decide

/-! Configurations at and outside R8's bounds. -/

/-- The configuration of most tests: DEC-1's capacities halved, FQ-1's ring, and the two channels of PROG-3. -/
def cfg : Config where
  accCap := 4
  decCap := 8
  qCap := 16
  renderBufCap := 14
  ctrWidth := 32
  accOverflowKeepByte := false
  truncPolicy := .fail
  fullScaleIdentity := true
  channels := [{ id := 1, pixels := 50, out := 7 }, { id := 2, pixels := 6, out := 8 }]

theorem test_config_bounds : ∀ c ∈
    [cfg, { cfg with accCap := 1 }, { cfg with accCap := 65535 }, { cfg with decCap := 1 }, { cfg with decCap := 65535 },
      { cfg with qCap := 3 }, { cfg with qCap := 65537 }, { cfg with renderBufCap := 1 }, { cfg with renderBufCap := 65535 },
      { cfg with ctrWidth := 1 }, { cfg with channels := [] },
      { cfg with channels := [{ id := 0, pixels := 0, out := 0 }, { id := 255, pixels := 65535, out := 0 }] }],
    c.valid = true := by decide

theorem test_config_outside : ∀ c ∈
    [{ cfg with accCap := 0 }, { cfg with accCap := 65536 }, { cfg with decCap := 0 }, { cfg with decCap := 65536 },
      { cfg with qCap := 2 }, { cfg with qCap := 65538 }, { cfg with renderBufCap := 0 }, { cfg with renderBufCap := 65536 },
      { cfg with ctrWidth := 0 }, { cfg with channels := [{ id := 1, pixels := 65536, out := 0 }] },
      { cfg with channels := [{ id := 1, pixels := 4, out := 0 }, { id := 1, pixels := 5, out := 1 }] }],
    c.valid = false := by decide

/-! Small states. -/

/-- The reset state of a configuration with an agent on the ports. -/
def from_ (c : Config) (a : Agent) : State := (State.resetWith c).setPorts { portsAtReset with agent := a }

/-- The state that an outcome goes on in, if it does. -/
def nextOf (o : Host.Outcome State Fault Refusal) : Option State :=
  match o with
  | .next t => some t
  | _ => none

def faultOf (o : Host.Outcome State Fault Refusal) : Option Fault :=
  match o with
  | .fault f => some f
  | _ => none

def refusalOf (o : Host.Outcome State Fault Refusal) : Option Refusal :=
  match o with
  | .refused r => some r
  | _ => none

/-- Bytes as the cells of a buffer from index 0 on. -/
def cellsOf (bs : List Byte) : Memory := Memory.writeSpan [] 0 bs

/-- DEC with these bytes accumulated, agent RX on the ports with the byte `b`. -/
def accState (c : Config) (bs : List Byte) (b : Byte) : State :=
  ((from_ c .rx).setDec { acc := cellsOf bs, accLen := bs.length, out := [], outLen := 0, frameValid := false }).withByte b

/-- DEC with a frame exposed. -/
def frameState : State :=
  (from_ cfg .rx).setDec { acc := [], accLen := 0, out := cellsOf [0x11, 0x22], outLen := 2, frameValid := true }

/-- A queue whose ring holds these bytes from index 0 on, `used` of them in the span. -/
def ringState (a : Agent) (bs : List Byte) (wr used : Nat) : State :=
  ((from_ cfg a).setFq { ring := cellsOf bs, rd := 0, wr := wr, used := used, lock := .free }).setCaller
    { dst := { size := 20, cells := [] }, pix := { size := 0, cells := [] } }

/-- The destination of the tests' reads. -/
def dstView : View := { buf := .dst, base := 0, size := 20 }

/-- The queue after row FQ-3: one entry, `[AA BB CC]`. -/
def oneEntry (a : Agent) : State := ringState a [0x00, 0x03, 0xAA, 0xBB, 0xCC] 5 5

/-- A parse of `bs`, of the given length, in RENDER's read destination. -/
def parseState (bs : List Byte) (length : Nat) : State :=
  ((from_ cfg .render).setCaller { dst := { size := bs.length, cells := cellsOf bs }, pix := { size := 0, cells := [] } }).setPorts
    { portsAtReset with
        agent := .render
        pcBuf := { buf := .dst, base := 0, size := bs.length }
        pcLength := length }

/-- `H9 ++ P9` of the PC vectors. -/
def h9p9 : List Byte :=
  [0x41, 0x00, 0x01, 0x01, 0x00, 0x00, 0x00, 0x00, 0x00, 0x09, 0x11, 0x11, 0x11, 0x11, 0x11, 0x11, 0x11, 0x11, 0x11]

/-- A BS.LIMIT call on the pixel buffer `px`. -/
def limitState (px : List Byte) (count total threshold maxScale minScale : Nat) : State :=
  ((from_ cfg .render).setCaller { dst := { size := 0, cells := [] }, pix := { size := px.length, cells := cellsOf px } }).setPorts
    { portsAtReset with
        agent := .render
        bsPix := { buf := .pix, base := 0, size := px.length }
        bsCount := count
        bsTotal := total
        bsThreshold := threshold
        bsMaxScale := maxScale
        bsMinScale := minScale }

/-- Running, with input waiting and agent RX on the ports. -/
def rxState (run : RunState) (drain : Nat) (input : List Byte) : State :=
  ((from_ cfg .rx).setHost { (from_ cfg .rx).host with state := run, rxDrain := drain }).setEnv
    { ledLog := [], input := input, flushPending := none }

/-- The packet of PROG-3's frame e with its offset, flags and destination free: 13 bytes, one pixel. -/
def packet1 (flags dest off : Byte) : List Byte :=
  [flags, 0x05, 0x01, dest, 0x00, 0x00, 0x00, off, 0x00, 0x03] ++ [0x01, 0x02, 0x03] ++ []

/-- A queue that holds one such packet, agent RENDER on the ports. -/
def tickState (flags dest off : Byte) : State := ringState .render (queueEntry (packet1 flags dest off)) 15 15

/-! One step each, against 95_test_vectors.md. -/

/-- DEC-8's second byte: appended. -/
theorem test_decPush_data : (nextOf (exec .decPush (accState cfg [0x05] 0x11))).map (fun t => (t.resp, t.dec.accLen, t.dec.acc)) =
    some (.frameReady false, 2, [(0, 0x05), (1, 0x11)]) := by decide

/-- R23 and R84: a data byte after a frame closes the window, and `dec.out_len` is 0. -/
theorem test_decPush_closes_the_window :
    (nextOf (exec .decPush (frameState.withByte 0x05))).map (fun t => (t.dec.frameValid, t.dec.outLen, t.dec.accLen)) =
      some (false, 0, 1) := by decide

/-- DEC-6's delimiter: `[03 11 22]` gives the frame `[11 22]`. -/
theorem test_decPush_delimiter :
    (nextOf (exec .decPush (accState cfg [0x03, 0x11, 0x22] 0x00))).map (fun t => (t.resp, t.dec.accLen, t.dec.outLen, t.dec.out)) =
      some (.frameReady true, 0, 2, [(0, 0x11), (1, 0x22)]) := by decide

/-- DEC-6: the frame. -/
theorem test_decFrame : (nextOf (exec .decFrame frameState)).map State.resp = some (.frame 2 [0x11, 0x22]) := by decide

/-- DEC-1: no frame after reset. -/
theorem test_decFrame_faults : faultOf (exec .decFrame (from_ cfg .rx)) = some .frameNotValid := by decide

/-- FQ-3, and FQ-20's header split across the ring's end. -/
theorem test_fqWrite : (nextOf (exec .fqWrite ((from_ cfg .rx).withPayload [0xAA, 0xBB, 0xCC]))).map (fun t => (t.resp, t.fq.ring, t.fq.wr, t.fq.used)) =
    some (.wrOk true, [(0, 0x00), (1, 0x03), (2, 0xAA), (3, 0xBB), (4, 0xCC)], 5, 5) := by decide

theorem test_fqWrite_wraps :
    (nextOf (exec .fqWrite (((from_ { cfg with qCap := 8 } .rx).setFq { ring := [], rd := 7, wr := 7, used := 0, lock := .free }).withPayload
      [0xB1, 0xB2]))).map (fun t => (t.resp, t.fq.ring, t.fq.wr, t.fq.used)) =
        some (.wrOk true, [(0, 0x02), (1, 0xB1), (2, 0xB2), (7, 0x00)], 3, 4) := by decide

/-- FQ-7's read, on the queue after FQ-3. -/
theorem test_fqRead : (nextOf (exec .fqRead ((oneEntry .render).withRead 20 dstView))).map (fun t => (t.resp, t.fq.rd, t.fq.used, t.caller.dst.cells)) =
    some (.read 3 [0xAA, 0xBB, 0xCC], 5, 0, [(0, 0xAA), (1, 0xBB), (2, 0xCC)]) := by decide

/-- FQ-26: a length above the bytes queued behind it resets the queue. -/
theorem test_fqRead_resets : (nextOf (exec .fqRead ((ringState .render [0x00, 0x07] 5 5).withRead 20 dstView))).map (fun t => (t.resp, t.fq.rd, t.fq.wr, t.fq.used, t.reason)) =
    some (.read 0 [], 5, 5, 0, some .fqShortQueue) := by decide

/-- PROG-2's queries after its first step. -/
theorem test_fqSpace : (nextOf (exec .fqSpace (oneEntry .rx))).map State.resp = some (.space 11) := by decide
theorem test_fqUsage : (nextOf (exec .fqUsage (oneEntry .rx))).map State.resp = some (.usage 31) := by decide
theorem test_fqHasData : (nextOf (exec .fqHasData (oneEntry .render))).map State.resp = some (.hasData true) := by decide
theorem test_fqHasData_empty : (nextOf (exec .fqHasData (from_ cfg .render))).map State.resp = some (.hasData false) := by decide

/-- PC-24: the reserved sequence and flags bits are ignored, the offset is big-endian. -/
theorem test_pcParse :
    (nextOf (exec .pcParse (parseState [0x7F, 0xF5, 0x00, 0x00, 0x00, 0x00, 0x01, 0x00, 0x00, 0x03, 0x01, 0x02, 0x03] 13))).map State.resp =
      some (.packet
        { flags := 0x7F, version := 0b01, push := true, sequence := 5, dataType := 0x00, dest := 0x00, offset := 256,
          payloadLen := 3, payload := { buf := .dst, base := 10, size := 3 }, pixelCount := 1 }) := by decide

/-- PC-26: the version is checked before the data type and the payload length. -/
theorem test_pcParse_order :
    (nextOf (exec .pcParse (parseState [0x00, 0x00, 0x05, 0x01, 0x00, 0x00, 0x00, 0x00, 0x00, 0x00] 10))).map (fun t => (t.resp, t.reason)) =
      some (.parseFail, some .version) := by decide

/-- BS-8. -/
theorem test_bsLimit : (nextOf (exec .bsLimit (limitState [0xFF, 0x80, 0x01] 1 1 0 255 102))).map (fun t => t.caller.pix.cells) =
    some [(0, 0x65), (1, 0x33), (2, 0x00)] := by decide

/-- The interpolated pair of the order independence vector. -/
theorem test_bsLimit_interpolates :
    (nextOf (exec .bsLimit (limitState [0x00, 0x00, 0x00, 0xFF, 0x80, 0x01] 2 2 0 255 102))).map (fun t => t.caller.pix.cells) =
      some [(0, 0x00), (1, 0x00), (2, 0x00), (3, 0xB2), (4, 0x59), (5, 0x00)] := by decide

/-- SRC-4 and the BS rows on scale selection. -/
theorem test_selectScale :
    [selectScale 4 100 4 255 102, selectScale 100 100 4 255 102, selectScale 52 100 4 255 102, selectScale 5 100 4 255 102,
      selectScale 3 3 4 255 102, selectScale 2 1 0 255 102, selectScale 5 6 4 255 0] = [255, 102, 179, 254, 255, 102, 128] := by decide

/-- R130: the counters are zeroed. -/
theorem test_hostBegin :
    (nextOf (exec .hostBegin ((from_ cfg .env).setStats { framesReceived := 3, droppedRx := 1, packetsProcessed := 2, droppedRender := 5 }))).map (fun t => (t.host.state, t.host.stop, t.stats)) = some (.running, false, Stats.zero) := by decide

/-- H-8: the drain count is the input's length. -/
theorem test_hostEnd :
    (nextOf (exec .hostEnd ((rxState .running 0 [0x02, 0xAA, 0x00]).setPorts { portsAtReset with agent := .env }))).map (fun t => (t.host.state, t.host.stop, t.host.rxDrain)) = some (.stopped, true, 3) := by decide

/-- H-8's row k = 1. -/
theorem test_hostRxByte_drains :
    (nextOf (exec .hostRxByte (rxState .stopped 3 [0x02, 0xAA, 0x00]))).map (fun t => (t.env.input, t.host.rxDrain, t.dec.accLen)) =
      some ([0xAA, 0x00], 2, 1) := by decide

/-- The last step of PROG-4's row `02 D1 00`: the frame is ready, and RX's next step reads it. -/
theorem test_hostRxByte_frame :
    (nextOf (exec .hostRxByte ((rxState .running 0 [0x00]).setDec
      { acc := cellsOf [0x02, 0xD1], accLen := 2, out := [], outLen := 0, frameValid := false }))).map (fun t => (t.env.input, t.resp, t.dec.frameValid, t.host.rxAt, t.fq.used)) =
        some ([], .frameReady true, true, .frame, 0) := by decide

/-- RX inside HOST.RX_BYTE, at a position. -/
def rxAtState (p : RxPosition) : State := (rxState .running 0 []).rxGoTo p

/-- The same row's FQ.WRITE: the frame is queued, and not counted yet. -/
theorem test_rxWrite :
    (nextOf (proceed .rx (rxAtState (.write [0xD1])))).map (fun t => (t.resp, t.fq.ring, t.fq.used, t.host.rxAt, t.stats.framesReceived)) =
      some (.wrOk true, [(0, 0x00), (1, 0x01), (2, 0xD1)], 3, .count none, 0) := by decide

/-- R133: the count is a transaction of its own, so a HOST.BEGIN before it zeroes the counters first. -/
theorem test_rxCount_after_begin :
    ((nextOf (exec .hostBegin ((rxAtState (.count none)).setPorts { portsAtReset with agent := .env }))).bind (fun t =>
      nextOf (proceed .rx t))).map (fun t => (t.stats.framesReceived, t.host.rxAt)) = some (1, .idle) := by decide

/-- A render tick's first step, on a queue with an entry. -/
theorem test_hostRenderTick :
    (nextOf (exec .hostRenderTick (tickState 0x41 2 0x11))).map (fun t => (t.resp, t.host.tickAt, t.fq.used)) =
      some (.hasData true, .read, 15) := by decide

/-- RENDER inside a tick, at a position, with these bytes in `host.rbuf`. -/
def tickAtState (p : TickPosition) (rbuf : List Byte) : State :=
  (from_ cfg .render).setHost { (from_ cfg .render).host with rbuf := cellsOf rbuf, tickAt := p }

/-- H-5's first packet: a start at the channel's end is dropped. -/
theorem test_tickParse_startBeyond :
    (nextOf (proceed .render (tickAtState (.parse 13) (packet1 0x41 2 0x12)))).map (fun t => t.host.tickAt) =
      some (.drop .startBeyond) := by decide +kernel

/-- As PC.PARSE of it. -/
def packet1Of (flags dest off : Byte) : Packet where
  flags := flags
  version := flagsVersion flags
  push := flagsPush flags
  sequence := 5
  dataType := 0x01
  dest := dest
  offset := off.toNat
  payloadLen := 3
  payload := { buf := .rbuf, base := 10, size := 3 }
  pixelCount := 1

/-- As H-5's second packet: it is routed to channel 2. -/
theorem test_tickParse_routes :
    (nextOf (proceed .render (tickAtState (.parse 13) (packet1 0x41 2 0x11)))).map (fun t => t.host.tickAt) =
      some (.scale (packet1Of 0x41 2 0x11) { id := 2, pixels := 6, out := 8 }) := by decide +kernel

/-- Its LED driver calls: the pixel at the channel's last index, and the flush that holds the tick. -/
theorem test_tickPixels :
    (nextOf (proceed .render (tickAtState (.pixels (packet1Of 0x41 2 0x11) { id := 2, pixels := 6, out := 8 }) (packet1 0x41 2 0x11)))).map (fun t => (t.env.ledLog, t.env.flushPending, t.resp, t.host.tickAt, t.stats.packetsProcessed)) =
      some ([.setPixel 8 5 0x01 0x02 0x03, .flush 8], some 8, .flushing, .count, 0) := by decide +kernel

/-- H-5's first packet again: the drop is counted. -/
theorem test_tickDrop :
    (nextOf (proceed .render (tickAtState (.drop .startBeyond) []))).map (fun t => (t.env.ledLog, t.stats.droppedRender, t.reason, t.host.tickAt)) =
      some ([], 1, some .startBeyond, .idle) := by decide

/-- The refusals of R154. -/
theorem test_wrong_agent : refusalOf (exec .fqWrite (from_ cfg .render)) = some .wrongAgent := by decide
theorem test_undefined_word : refusalOf (step (State.reset.withFetchWord 8 0x25)) = some (.undefinedOperation 0x25) := by decide

/-- BS-14. -/
theorem test_bad_scales : refusalOf (exec .bsLimit (limitState [0xFF, 0xFF, 0xFF] 1 10 4 100 200)) = some .badScaleParams := by decide

/-- The reference encoder and Unstuff (SRC-1, the direct Unstuff table). -/
theorem test_wire : wire [0x11, 0x00, 0x22] = [0x02, 0x11, 0x02, 0x22, 0x00] := by decide
theorem test_unstuff_zero_code : unstuff .fail 16 [0x02, 0x11, 0x00, 0x03, 0x22, 0x33] = .ok [0x11, 0x00] := by decide

/-! Witnesses: for every statement with hypotheses, a concrete state and operands that meet them, and for a statement with
several clauses one for each, at a boundary of its range. -/

/-- DEC with nothing accumulated. -/
def idleDec : Dec := { acc := [], accLen := 0, out := [], outLen := 0, frameValid := false }

/-- A queue whose ring holds these bytes from index 0 on, all of them in the span. -/
def queueOf (bs : List Byte) : Fq := { ring := cellsOf bs, rd := 0, wr := bs.length % 16, used := bs.length, lock := .free }

/-- A state on `cfg` built from its parts. -/
def mk (a : Agent) (d : Dec) (q : Fq) (run : RunState) (drain : Nat) (input : List Byte) (sched : List Move) : State :=
  { from_ cfg a with
      dec := d
      fq := q
      host := { state := run, stop := false, rxDrain := drain, rbuf := [], rxAt := .idle, tickAt := .idle }
      env := { ledLog := [], input := input, flushPending := none }
      sched := sched }

theorem idleDec_inv : idleDec.Inv cfg :=
  ⟨Memory.Ok.nil _, Memory.Ok.nil _, by decide, ⟨[], by decide, by decide⟩, by decide, rfl, ⟨[], rfl⟩⟩

theorem emptyQueue_holds : (queueOf []).Holds cfg [] := Fq.Holds.empty (by decide) (by decide) (by decide)

theorem emptyQueue_inv : (queueOf []).Inv cfg := ⟨⟨by decide, by decide⟩, by decide, [], emptyQueue_holds⟩

theorem mk_inv {a : Agent} {d : Dec} {q : Fq} {run : RunState} {drain : Nat} {input : List Byte} {sched : List Move}
    (hd : d.Inv cfg) (hq : q.Inv cfg) (hr : run = .running → drain = 0) (hl : drain ≤ input.length) :
    (mk a d q run drain input sched).Inv :=
  ⟨(by decide : cfg.valid = true), hd, hq, Memory.Ok.nil _, Memory.Ok.nil _, Memory.Ok.nil _, ⟨fun h => ⟨rfl, hr h⟩, hl⟩,
    ⟨Nat.two_pow_pos _, Nat.two_pow_pos _, Nat.two_pow_pos _, Nat.two_pow_pos _⟩,
    ⟨(fun h => nomatch h), (fun _ h => nomatch h), (fun _ _ h => h.elim (fun h => nomatch h) (fun h => nomatch h)),
      fun h => absurd rfl h⟩⟩

/-- DEC with these bytes accumulated. -/
def accDec (bs : List Byte) : Dec := { acc := cellsOf bs, accLen := bs.length, out := [], outLen := 0, frameValid := false }

theorem accDec_inv {bs : List Byte} (h1 : bs.length ≤ 4) (h2 : (0x00#8) ∉ bs) (h3 : Memory.Ok (cellsOf bs) 4) :
    (accDec bs).Inv cfg :=
  ⟨h3, Memory.Ok.nil _, h1, ⟨bs, Memory.readCells_writeSpan _ _ _ List.Pairwise.nil, h2⟩, Nat.zero_le _, rfl,
    ⟨[], rfl⟩⟩

/-- The move that issues a command word with `okPorts` from an agent. -/
def req (w : CommandWord) (a : Agent) : Move := .request w { okPorts with agent := a }

/-- Waiting for a flush: RENDER's tick, RX's step on the input, and the flush's return. -/
def waiting (a : Agent) (sched : List Move) : State :=
  { mk a idleDec (queueOf []) .running 0 [0x05] sched with
      host := { (mk a idleDec (queueOf []) .running 0 [0x05] sched).host with tickAt := .count }
      env := { ledLog := [.flush 8], input := [0x05], flushPending := some 8 } }

theorem witness_EncodeThenDecodeGivesTheOperation : decodeWord 0xF3#8 = .ok .hostRenderTick := by decide

theorem witness_UndefinedWordsAndWrongAgentsAreRefused :
    (mk .env idleDec (queueOf []) .stopped 0 [] [req 0x25 .rx]).cfg.valid = true ∧
      (∀ i, decodeWord 0x25#8 ≠ .ok i) ∧ (from_ cfg .render).ports.agent ≠ .rx ∧ (from_ cfg .env).ports.agent ≠ .rx ∧
      (from_ cfg .rx).ports.agent ≠ .render ∧ (from_ cfg .env).ports.agent ≠ .render := by
  refine ⟨by decide, ?_, by decide, by decide, by decide, by decide⟩
  intro i
  cases i <;> decide

theorem witness_StepRunsTheDecodedRequest :
    (mk .env idleDec (queueOf []) .stopped 0 [] [req 0x10 .rx]).cfg.valid = true ∧
      (mk .env idleDec (queueOf []) .stopped 0 [] [req 0x10 .rx]).sched = req 0x10 .rx :: [] ∧
      decodeWord 0x10#8 = .ok .decPush := by decide

/-- Each kind of move; a fill while RENDER is free and while it waits for a flush. -/
theorem witness_StepOfAMoveThatIsNoRequest :
    (∀ m ∈ [Move.supply [0x01#8], .proceed .rx, .placeDst [none, some 0x11#8], .placePix [some 0x22#8], .flushReturn],
      (mk .env idleDec (queueOf []) .stopped 0 [] [m]).cfg.valid = true ∧
        (mk .env idleDec (queueOf []) .stopped 0 [] [m]).sched = m :: [] ∧
        (mk .env idleDec (queueOf []) .stopped 0 [] [m]).agentFree .render = true ∧
        (mk .env idleDec (queueOf []) .stopped 0 [] [m]).env.flushPending = none) ∧
      (∀ m ∈ [Move.placeDst [none, some 0x11#8], .placePix [some 0x22#8]], (waiting .env [m]).cfg.valid = true ∧
        (waiting .env [m]).sched = m :: [] ∧ (waiting .env [m]).agentFree .render = false) ∧
      (mk .env idleDec (queueOf []) .stopped 0 [] []).sched = [] := by decide

/-- A fill: an unwritten cell, the byte after it, and the first cell past the end. -/
theorem test_placeDst :
    (nextOf (step (mk .env idleDec (queueOf []) .stopped 0 [] [.placeDst [none, some 0x11#8]]))).map
        (fun t => (t.caller.dst.size, [0, 1, 2].map (Memory.read t.caller.dst.cells))) =
      some (2, [none, some 0x11#8, none]) := by decide

theorem test_placePix :
    (nextOf (step (mk .env idleDec (queueOf []) .stopped 0 [] [.placePix [some 0x22#8, none]]))).map
        (fun t => (t.caller.pix.size, [0, 1].map (Memory.read t.caller.pix.cells))) =
      some (2, [some 0x22#8, none]) := by decide

/-- The bounds at their least, and `Q_CAP` one below. -/
theorem witness_ConstructionChecksTheBounds :
    (1 ≤ 1 ∧ 1 ≤ 65535 ∧ 3 ≤ 3 ∧ 3 ≤ 65537 ∧ (∀ ch ∈ cfg.channels, ch.pixels ≤ 65535) ∧ (cfg.channels.map Channel.id).Nodup) ∧
      ¬ (3 ≤ ({ cfg with qCap := 2 } : Config).qCap) := by decide

theorem witness_ResetMeetsTheInvariants : Config.suggested.valid = true := by decide

theorem witness_StepKeepsTheStateInvariant :
    (mk .env idleDec (queueOf []) .stopped 0 [] [req 0x10 .rx]).Inv ∧
      (nextOf (step (mk .env idleDec (queueOf []) .stopped 0 [] [req 0x10 .rx]))).isSome = true :=
  ⟨mk_inv idleDec_inv emptyQueue_inv (by decide) (by decide), by decide⟩

/-- The LED driver calls of a pushed packet: a step that writes a pixel and flushes. -/
def tickStep : State :=
  (tickAtState (.pixels (packet1Of 0x41 2 0x11) { id := 2, pixels := 6, out := 8 }) (packet1 0x41 2 0x11)).setSched [.proceed .render]

theorem witness_StepKeepsLedCallsInBounds :
    tickStep.LedInv ∧ (nextOf (step tickStep)).map (fun t => t.env.ledLog.length) = some 2 := by
  refine ⟨⟨(fun _ h => nomatch h), (fun _ h => nomatch h), ?_⟩, by decide +kernel⟩
  rintro p ch (h | h)
  · exact nomatch h
  · obtain ⟨rfl, rfl⟩ := TickPosition.pixels.inj h
    decide

theorem witness_StepKeepsTheConfigurationAndAppendsToTheLedLog : (nextOf (step tickStep)).isSome = true := by decide +kernel

theorem witness_ContextsDoNotTouchEachOthersState :
    (tickState 0x41 2 0x11).ports.agent = .render ∧
      (nextOf (exec .hostRenderTick (tickState 0x41 2 0x11))).isSome = true ∧
      (rxState .running 0 [0x02]).ports.agent = .rx ∧ (nextOf (exec .hostRxByte (rxState .running 0 [0x02]))).isSome = true ∧
      (nextOf (proceed .render (tickAtState (.drop .short) []))).isSome = true ∧
      (nextOf (proceed .rx (rxAtState (.write [0xD1])))).isSome = true := by
  decide

/-- The last free cell of the accumulation. -/
theorem witness_DecPushAppendsADataByte :
    (accState cfg [0x05, 0x11, 0x22] 0x33).ready .decPush = true ∧ Memory.wf (accState cfg [0x05, 0x11, 0x22] 0x33).dec.acc ∧
      (accState cfg [0x05, 0x11, 0x22] 0x33).ports.inByte ≠ 0x00#8 ∧
        (accState cfg [0x05, 0x11, 0x22] 0x33).dec.accLen < cfg.accCap := by
  decide

/-- DEC-16 and DEC-17: the byte `44` finds four bytes. -/
theorem witness_DecPushDiscardsAFullAccumulation :
    ∀ c ∈ [cfg, { cfg with accOverflowKeepByte := true }],
      (accState c [0x05, 0x11, 0x22, 0x33] 0x44).ready .decPush = true ∧
      Memory.wf (accState c [0x05, 0x11, 0x22, 0x33] 0x44).dec.acc ∧
      (accState c [0x05, 0x11, 0x22, 0x33] 0x44).ports.inByte ≠ 0x00#8 ∧
      c.accCap ≤ (accState c [0x05, 0x11, 0x22, 0x33] 0x44).dec.accLen := by decide

theorem witness_DelimiterWithNothingAccumulated :
    (accState cfg [] 0x00).ready .decPush = true ∧ (accState cfg [] 0x00).ports.inByte = 0x00#8 ∧
      (accState cfg [] 0x00).dec.accLen = 0 := by decide

/-- Each cause of R94: nothing accumulated, a truncated run, a zero-length result, and DEC-13's overflow. -/
theorem witness_StateAfterNoFrame :
    (∀ bs ∈ [[], [0x05#8, 0x11#8, 0x22#8], [0x01#8]], (accState cfg bs 0x00).ports.inByte = 0x00#8 ∧
      (nextOf (exec .decPush (accState cfg bs 0x00))).map State.resp = some (.frameReady false)) ∧
    (nextOf (exec .decPush (accState { cfg with decCap := 2 } [0x04, 0x11, 0x22, 0x33] 0x00))).map (fun t => (t.resp, t.reason)) =
      some (.frameReady false, some .decOverflow) := by decide

/-- A frame of one byte and DEC-15's, which fills the accumulation. -/
theorem witness_DelimiterExposesTheUnstuffedFrame :
    ∀ x ∈ [([0x02#8, 0x11#8], [0x11#8]), ([0x04#8, 0x11#8, 0x22#8, 0x33#8], [0x11#8, 0x22#8, 0x33#8])],
      (accState cfg x.1 0x00).ready .decPush = true ∧ (accState cfg x.1 0x00).dec.Inv cfg ∧
      (accState cfg x.1 0x00).ports.inByte = 0x00#8 ∧ (accState cfg x.1 0x00).dec.accLen ≠ 0 ∧
      Memory.readCells (accState cfg x.1 0x00).dec.acc 0 (accState cfg x.1 0x00).dec.accLen = some x.1 ∧
      unstuff cfg.truncPolicy cfg.decCap x.1 = .ok x.2 ∧ x.2 ≠ [] := by
  intro x hx
  rcases List.mem_cons.mp hx with rfl | hx
  · exact ⟨by decide, accDec_inv (bs := [0x02#8, 0x11#8]) (by decide) (by decide) ⟨by decide, by decide⟩, by decide,
    by decide, by decide,
      by decide, by decide⟩
  · obtain rfl := List.mem_singleton.mp hx
    exact ⟨by decide, accDec_inv (bs := [0x04#8, 0x11#8, 0x22#8, 0x33#8]) (by decide) (by decide) ⟨by decide,
      by decide⟩, by decide, by decide,
      by decide, by decide, by decide⟩

/-- R91: a run one byte short, under each policy, and one that is whole. -/
theorem test_unstuff_truncated :
    unstuff .fail 16 [0x05, 0x11, 0x22] = .error .decTruncated ∧ unstuff .copyAvailable 16 [0x05, 0x11, 0x22] = .ok [0x11, 0x22] ∧
      unstuff .fail 16 [0x04, 0x11, 0x22] = .error .decTruncated ∧
      unstuff .fail 16 [0x03, 0x11, 0x22] = .ok [0x11, 0x22] := by decide

/-- R90: exactly the capacity, and one byte past it from a run (also a truncated one) and from an implicit zero. -/
theorem test_unstuff_overflow :
    unstuff .fail 2 [0x03, 0x11, 0x22] = .ok [0x11, 0x22] ∧ unstuff .fail 1 [0x03, 0x11, 0x22] = .error .decOverflow ∧
      unstuff .copyAvailable 1 [0x05, 0x11, 0x22] = .error .decOverflow ∧
      unstuff .fail 2 [0x05, 0x11, 0x22] = .error .decTruncated ∧
      unstuff .fail 1 [0x02, 0x11, 0x01] = .error .decOverflow ∧ unstuff .fail 2 [0x02, 0x11, 0x01] = .ok [0x11, 0x00] := by decide

/-- DEC-8 and DEC-4: a failure, and a result of no byte. -/
theorem witness_UnstuffRunByRunAndDelimiterAfterItFails :
    [0x11#8].length ≤ 1 ∧ 4 = (0x05#8).toNat - 1 ∧
    (∀ bs ∈ [[0x05#8, 0x11#8, 0x22#8], [0x01#8]], (accState cfg bs 0x00).ready .decPush = true ∧
      (accState cfg bs 0x00).dec.Inv cfg ∧ (accState cfg bs 0x00).ports.inByte = 0x00#8 ∧ (accState cfg bs 0x00).dec.accLen ≠ 0 ∧
      Memory.readCells (accState cfg bs 0x00).dec.acc 0 (accState cfg bs 0x00).dec.accLen = some bs) ∧
    unstuff cfg.truncPolicy cfg.decCap [0x05#8, 0x11#8, 0x22#8] = .error .decTruncated ∧
    unstuff cfg.truncPolicy cfg.decCap [0x01#8] = .ok [] := by
  refine ⟨by decide, by decide, ?_, by decide, by decide⟩
  intro bs hb
  rcases List.mem_cons.mp hb with rfl | hb
  · exact ⟨by decide, accDec_inv (bs := [0x05#8, 0x11#8, 0x22#8]) (by decide) (by decide) ⟨by decide, by decide⟩,
    by decide, by decide,
      by decide⟩
  · obtain rfl := List.mem_singleton.mp hb
    exact ⟨by decide, accDec_inv (bs := [0x01#8]) (by decide) (by decide) ⟨by decide, by decide⟩, by decide, by decide, by decide⟩

theorem witness_DecPushAlwaysAnswersAndDelimitersEmpty :
    ((mk .rx idleDec (queueOf []) .stopped 0 [] []).withByte 0x00).ready .decPush = true ∧
      (mk .rx idleDec (queueOf []) .stopped 0 [] []).dec.Inv cfg ∧
      ((mk .rx idleDec (queueOf []) .stopped 0 [] []).withByte 0x00).ports.inByte = 0x00#8 :=
  ⟨by decide, idleDec_inv, by decide⟩

/-- Both kinds of byte, on a full accumulation and on one with room. -/
theorem witness_DecPushFrame :
    ∀ x ∈ [([0x05#8, 0x11#8, 0x22#8, 0x33#8], 0x44#8), ([0x05#8], 0x44#8), ([0x02#8, 0x11#8], 0x00#8)],
      (nextOf (exec .decPush (accState cfg x.1 x.2))).isSome = true ∧ Memory.wf (accState cfg x.1 x.2).dec.acc := by decide

theorem frameState_inv : frameState.dec.Inv frameState.cfg :=
  ⟨Memory.Ok.nil _, ⟨by decide, by decide⟩, by decide, ⟨[], by decide, by decide⟩, by decide, by decide,
    ⟨[0x11, 0x22], by decide⟩⟩

theorem witness_DecFrameReadsTheExposedFrame :
    (frameState.ready .decFrame = true ∧ frameState.dec.Inv frameState.cfg ∧ frameState.dec.frameValid = true) ∧
      ((mk .rx idleDec (queueOf []) .stopped 0 [] []).ready .decFrame = true ∧
        (mk .rx idleDec (queueOf []) .stopped 0 [] []).dec.Inv cfg ∧
        (mk .rx idleDec (queueOf []) .stopped 0 [] []).dec.frameValid = false) :=
  ⟨⟨by decide, frameState_inv, by decide⟩, by decide, idleDec_inv, by decide⟩

/-- The longest frame whose stuffed form fits `cfg`'s accumulation. -/
theorem witness_StuffedFramesDecodeToThemselves :
    (from_ cfg .rx).host.rxAt = .idle ∧ Memory.wf (from_ cfg .rx).dec.acc ∧ Memory.wf (from_ cfg .rx).dec.out ∧
      (from_ cfg .rx).dec.accLen = 0 ∧ 1 ≤ [0x11#8, 0x00#8, 0x22#8].length ∧ [0x11#8, 0x00#8, 0x22#8].length ≤ cfg.decCap ∧
      (stuff [0x11#8, 0x00#8, 0x22#8]).length = cfg.accCap := by decide

theorem witness_UnstuffGivesFewerBytesThanItTakes :
    ([0x02#8, 0x11#8] ≠ [] ∧ unstuff .fail 16 [0x02#8, 0x11#8] = .ok [0x11#8]) ∧
      (accState { cfg with decCap := 3 } [0x04, 0x11, 0x22, 0x33] 0x00).cfg.accCap = 3 + 1 ∧
      (nextOf (exec .decPush (accState { cfg with decCap := 3 } [0x04, 0x11, 0x22, 0x33] 0x00))).isSome = true := by decide

/-- Two decoders: after reset, and with the cells of an old frame left in both buffers. -/
theorem witness_ResynchronisationAfterADelimiter :
    frameState.cfg = (from_ cfg .rx).cfg ∧ frameState.host.rxAt = .idle ∧ Memory.wf (from_ cfg .rx).dec.acc ∧ Memory.wf frameState.dec.acc ∧
      Memory.wf (from_ cfg .rx).dec.out ∧ Memory.wf frameState.dec.out ∧ (from_ cfg .rx).dec.accLen = 0 ∧
      frameState.dec.accLen = 0 ∧ (feed [0x02, 0x33, 0x00] (from_ cfg .rx)).map Prod.fst = some [false, false, true] := by decide

/-- Each refusal: no byte, one byte more than the capacity, and one byte more than the free space after FQ-3. -/
theorem witness_FqWriteRefusalChangesNothing :
    (((oneEntry .rx).withPayload []).ready .fqWrite = true ∧ ((oneEntry .rx).withPayload []).ports.wrData.length = 0) ∧
      (((oneEntry .rx).withPayload (List.replicate 17 1)).ready .fqWrite = true ∧
        cfg.qCap < ((oneEntry .rx).withPayload (List.replicate 17 1)).ports.wrData.length) ∧
      (((oneEntry .rx).withPayload (List.replicate 10 1)).ready .fqWrite = true ∧
        cfg.qCap - ((oneEntry .rx).withPayload (List.replicate 10 1)).fq.used <
          ((oneEntry .rx).withPayload (List.replicate 10 1)).ports.wrData.length + 2) := by decide

/-- FQ-5's kind: the entry fills the ring exactly. -/
theorem witness_FqWriteStoresOneEntry :
    ((oneEntry .rx).withPayload (List.replicate 9 1)).ready .fqWrite = true ∧ Memory.wf (oneEntry .rx).fq.ring ∧
      cfg.qCap ≤ 65537 ∧ ((oneEntry .rx).withPayload (List.replicate 9 1)).ports.wrData = (List.replicate 9 (1#8)).map some ∧
      1 ≤ (List.replicate 9 (1#8)).length ∧ (List.replicate 9 (1#8)).length + 2 = cfg.qCap - (oneEntry .rx).fq.used := by decide

theorem oneEntry_holds (a : Agent) : (oneEntry a).fq.Holds cfg [[0xAA, 0xBB, 0xCC]] := by
  cases a <;> exact ⟨by decide, by decide, by decide, by decide, by decide⟩

theorem witness_FqReadOfAnEmptyQueue :
    ((ringState .render [] 0 0).withRead 20 dstView).ready .fqRead = true ∧
      ((ringState .render [] 0 0).withRead 20 dstView).ports.rdMax = (ringState .render [] 0 0).viewCells dstView ∧
      (ringState .render [] 0 0).fq.used < 2 := by decide

/-- FQ-25, FQ-11 and FQ-26's kinds: each header condition. -/
theorem witness_FqReadResetsACorruptQueue :
    ∀ x ∈ [(0x00#8, 0x00#8, 20), (0x00#8, 0x03#8, 2), (0x00#8, 0x04#8, 20)],
      ((ringState .render [x.1, x.2.1, 0xAA, 0xBB, 0xCC] 5 5).withRead x.2.2 dstView).ready .fqRead = true ∧
      x.2.2 ≤ ((ringState .render [x.1, x.2.1, 0xAA, 0xBB, 0xCC] 5 5).withRead x.2.2 dstView).viewCells dstView ∧
      2 ≤ (ringState .render [x.1, x.2.1, 0xAA, 0xBB, 0xCC] 5 5).fq.used ∧
      Memory.readRing cfg.qCap (ringState .render [x.1, x.2.1, 0xAA, 0xBB, 0xCC] 5 5).fq.ring 0 2 = some [x.1, x.2.1] ∧
      (be16 x.1 x.2.1 = 0 ∨ x.2.2 < be16 x.1 x.2.1 ∨
        (ringState .render [x.1, x.2.1, 0xAA, 0xBB, 0xCC] 5 5).fq.used - 2 < be16 x.1 x.2.1) := by decide

/-- Their last clauses: an empty queue that meets R30, and FQ-11's kind, an entry longer than a `maxLength` of 2. -/
theorem witness_FqReads_of_a_sound_queue :
    cfg.valid = true ∧ (ringState .render [] 0 0).fq.Inv cfg ∧ (oneEntry .render).fq.Inv cfg ∧
      ((oneEntry .render).withRead 2 dstView).ready .fqRead = true ∧ 2 < be16 0x00 0x03 :=
  ⟨by decide, ⟨⟨by decide, by decide⟩, by decide, [], Fq.Holds.empty (by decide) (by decide) (by decide)⟩,
    ⟨⟨by decide, by decide⟩, by decide, _, oneEntry_holds .render⟩, by decide, by decide⟩

/-- A `maxLength` equal to the entry's length. -/
theorem witness_FqReadTakesTheHeadEntry :
    ((oneEntry .render).withRead 3 dstView).ready .fqRead = true ∧
      ((oneEntry .render).withRead 3 dstView).ports.rdMax ≤ ((oneEntry .render).withRead 3 dstView).viewCells dstView ∧
      Memory.wf ((oneEntry .render).buf .dst).cells ∧ 2 ≤ (oneEntry .render).fq.used ∧
      Memory.readRing cfg.qCap (oneEntry .render).fq.ring 0 2 = some [0x00, 0x03] ∧ 1 ≤ be16 0x00 0x03 ∧
      be16 0x00 0x03 = ((oneEntry .render).withRead 3 dstView).ports.rdMax ∧
      be16 0x00 0x03 = (oneEntry .render).fq.used - 2 ∧
      Memory.readRing cfg.qCap (oneEntry .render).fq.ring 2 (be16 0x00 0x03) = some [0xAA, 0xBB, 0xCC] := by decide

theorem witness_QueueOperationsRefineAListOfPayloads :
    (oneEntry .render).cfg.valid = true ∧ (oneEntry .render).fq.Inv cfg ∧
      (oneEntry .render).fq.Holds cfg [[0xAA, 0xBB, 0xCC]] ∧ (ringState .render [] 0 0).fq.Holds cfg [] ∧
      (oneEntry .render).agentFree .rx = true ∧ (oneEntry .render).agentFree .render = true ∧ 20 ≤ (oneEntry .render).viewCells dstView :=
  ⟨by decide, ⟨⟨by decide, by decide⟩, by decide, _, oneEntry_holds .render⟩, oneEntry_holds .render,
    Fq.Holds.empty (by decide) (by decide) (by decide), by decide, by decide, by decide⟩

/-- The state after `s` writes or reads, for a trace. -/
def after (i : Instr) (s : State) : State := (nextOf (exec i s)).getD s

/-- SRC-2's shape: a write, a write that finds no room, a read, and a read of the empty queue. -/
theorem witness_QueueIsFirstInFirstOut :
    (ringState .render [] 0 0).cfg.valid = true ∧ (ringState .render [] 0 0).fq.Inv cfg ∧
      (ringState .render [] 0 0).fq.used = 0 ∧ ∃ u, QueueTrace (ringState .render [] 0 0) [[0xAA]] [[0xAA]] u := by
  refine ⟨by decide, ⟨⟨by decide, by decide⟩, by decide, [], Fq.Holds.empty (by decide) (by decide) (by decide)⟩, by decide, ?_⟩
  have h1 : exec .fqWrite ((ringState .render [] 0 0).withPayload [0xAA]) =
      .next (after .fqWrite ((ringState .render [] 0 0).withPayload [0xAA])) := by rfl
  let s1 := after .fqWrite ((ringState .render [] 0 0).withPayload [0xAA])
  have h2 : exec .fqWrite (s1.withPayload (List.replicate 12 1)) = .next (after .fqWrite (s1.withPayload (List.replicate 12 1))) := by rfl
  let s2 := after .fqWrite (s1.withPayload (List.replicate 12 1))
  have h3 : exec .fqRead (s2.withRead 1 dstView) = .next (after .fqRead (s2.withRead 1 dstView)) := by rfl
  let s3 := after .fqRead (s2.withRead 1 dstView)
  have h4 : exec .fqRead (s3.withRead 0 dstView) = .next (after .fqRead (s3.withRead 0 dstView)) := by rfl
  have f2 : s2.headFits 1 := by
    intro h l _ hr
    have he : Memory.readRing s2.cfg.qCap s2.fq.ring s2.fq.rd 2 = some [0x00#8, 0x01#8] := by decide
    rw [he] at hr
    simp only [Option.some.injEq, List.cons.injEq, and_true] at hr
    rw [← hr.1, ← hr.2]
    decide
  have f3 : s3.headFits 0 := by
    intro h l hu _
    exact absurd hu (by decide)
  exact ⟨_, .accepted [0xAA] h1 (by decide) (.refused (List.replicate 12 1) h2 (by decide)
    (.taken 1 dstView [0xAA] f2 h3 (by decide) (by decide) (.nothing 0 dstView f3 h4 (by decide) (.nil _))))⟩

theorem witness_QueueQueriesAnswerTheUsedCount :
    (oneEntry .rx).ready .fqSpace = true ∧ (oneEntry .render).ready .fqHasData = true ∧ (oneEntry .rx).ready .fqUsage = true := by
  decide

/-- A queue with one entry, and writes of the longest payload that fits and of one byte more. -/
theorem witness_QueueQueriesAndWhatAWriteMayDo :
    (oneEntry .rx).cfg.valid = true ∧ (oneEntry .rx).fq.Inv cfg ∧ (oneEntry .rx).agentFree .rx = true ∧
      (nextOf (exec .fqWrite ((oneEntry .rx).withPayload (List.replicate 9 1)))).map State.resp = some (.wrOk true) ∧
      (nextOf (exec .fqWrite ((oneEntry .rx).withPayload (List.replicate 10 1)))).map State.resp = some (.wrOk false) :=
  ⟨by decide, ⟨⟨by decide, by decide⟩, by decide, _, oneEntry_holds .rx⟩, by decide, by decide, by decide⟩

/-- PC-1, with `length` at its least. -/
theorem witness_PcParseGivesThePacket :
    (parseState h9p9 19).ready .pcParse = true ∧
      (parseState h9p9 19).ports.pcLength ≤ (parseState h9p9 19).viewCells (parseState h9p9 19).ports.pcBuf ∧
      Memory.readCells ((parseState h9p9 19).buf .dst).cells 0 10 =
        some [0x41, 0x00, 0x01, 0x01, 0x00, 0x00, 0x00, 0x00, 0x00, 0x09] ∧
      (0x41#8).toNat / 64 = 1 ∧ (0x01#8 = 0x00#8 ∨ 0x01#8 = 0x01#8) ∧ 1 ≤ be16 0x00 0x09 ∧ be16 0x00 0x09 ≤ 1440 ∧
      10 + be16 0x00 0x09 = (parseState h9p9 19).ports.pcLength := by decide

/-- The header of PC-1 with the flags, the data type and the length bytes free. -/
def headerOf (flags dtype hi lo : Byte) : List Byte := [flags, 0x00, dtype, 0x01, 0x00, 0x00, 0x00, 0x00, hi, lo]

/-- A parse of a bare header. -/
def headerState (flags dtype hi lo : Byte) (length : Nat) : State := parseState (headerOf flags dtype hi lo) length

/-- Each check fails alone, at a boundary of its range: PC-5; a version below and one above; PC-15; the last check's witness. -/
theorem witness_PcParseFailsInTheListedOrder :
    ((headerState 0x41 0x01 0x00 0x09 9).ready .pcParse = true ∧ (headerState 0x41 0x01 0x00 0x09 9).ports.pcLength < 10) ∧
    (∀ f ∈ [0x3F#8, 0x80#8], (headerState f 0x01 0x00 0x09 10).ready .pcParse = true ∧
      (headerState f 0x01 0x00 0x09 10).viewByte (headerState f 0x01 0x00 0x09 10).ports.pcBuf 0 = .ok f ∧ f.toNat / 64 ≠ 1) ∧
    ((headerState 0x40 0x02 0x00 0x09 10).viewByte (headerState 0x40 0x02 0x00 0x09 10).ports.pcBuf 2 = .ok 0x02 ∧
      (0x40#8).toNat / 64 = 1) ∧
    ((parseState h9p9 18).ready .pcParse = true ∧ (parseState h9p9 18).viewByte (parseState h9p9 18).ports.pcBuf 9 = .ok 0x09 ∧
      (parseState h9p9 18).ports.pcLength + 1 = 10 + be16 0x00 0x09) := by decide

/-- The payload length check's two boundaries, 0 and 1441 (PC-17, PC-21). -/
theorem witness_PcParseFailsInTheListedOrder_length :
    (headerState 0x41 0x01 0x00 0x00 10).viewByte (headerState 0x41 0x01 0x00 0x00 10).ports.pcBuf 9 = .ok 0x00 ∧
      be16 0x00 0x00 = 0 ∧
      (headerState 0x41 0x01 0x05 0xA1 10).viewByte (headerState 0x41 0x01 0x05 0xA1 10).ports.pcBuf 8 = .ok 0x05 ∧
      (headerState 0x41 0x01 0x05 0xA1 10).viewByte (headerState 0x41 0x01 0x05 0xA1 10).ports.pcBuf 9 = .ok 0xA1 ∧
      be16 0x05 0xA1 = 1441 := by decide +kernel

/-- Two states that agree on the header's bytes and on nothing after them. -/
theorem witness_PcParseIsAFunctionOfItsBytes :
    (parseState h9p9 19).ready .pcParse = true ∧ (parseState (h9p9.take 10 ++ List.replicate 9 0x77) 19).ready .pcParse = true ∧
      (parseState (h9p9.take 10 ++ List.replicate 9 0x77) 19).ports.pcBuf = (parseState h9p9 19).ports.pcBuf ∧
      (parseState (h9p9.take 10 ++ List.replicate 9 0x77) 19).ports.pcLength = (parseState h9p9 19).ports.pcLength ∧
      19 ≤ (parseState (h9p9.take 10 ++ List.replicate 9 0x77) 19).viewCells (parseState h9p9 19).ports.pcBuf ∧
      (∀ k, k < 10 → Memory.read ((parseState (h9p9.take 10 ++ List.replicate 9 0x77) 19).buf .dst).cells (0 + k) =
        Memory.read ((parseState h9p9 19).buf .dst).cells (0 + k)) ∧
      (nextOf (exec .pcParse (parseState h9p9 19))).isSome = true := by decide

theorem witness_ReadOnlyOperationsFrame :
    (nextOf (exec .decFrame frameState)).isSome = true ∧ (nextOf (exec .fqSpace (oneEntry .rx))).isSome = true ∧
      (nextOf (exec .fqHasData (oneEntry .rx))).isSome = true ∧ (nextOf (exec .fqUsage (oneEntry .rx))).isSome = true ∧
      (nextOf (exec .pcParse (parseState h9p9 19))).isSome = true := by decide

/-- BS-8 and the interpolated pair: the branches at `minScale` and between the limits; BS-15: at `maxScale`. -/
theorem witness_BsLimitScalesEveryByte :
    ∀ x ∈ [([0xFF#8, 0x80#8, 0x01#8], 1, 1, 0, 1, 102), ([0x00#8, 0x00#8, 0x00#8, 0xFF#8, 0x80#8, 0x01#8], 2, 2, 0, 1, 179),
        ([0xFF#8, 0xFF#8, 0xFF#8], 1, 10, 4, 1, 255)],
      (limitState x.1 x.2.1 x.2.2.1 x.2.2.2.1 255 102).ready .bsLimit = true ∧
      3 * x.2.1 ≤ (limitState x.1 x.2.1 x.2.2.1 x.2.2.2.1 255 102).viewCells
        (limitState x.1 x.2.1 x.2.2.1 x.2.2.2.1 255 102).ports.bsPix ∧
      Memory.wf ((limitState x.1 x.2.1 x.2.2.1 x.2.2.2.1 255 102).buf .pix).cells ∧
      Memory.readCells ((limitState x.1 x.2.1 x.2.2.1 x.2.2.2.1 255 102).buf .pix).cells 0 (3 * x.2.1) = some x.1 ∧
      litCount x.1 = x.2.2.2.2.1 ∧ selectScale x.2.2.2.2.1 x.2.2.1 x.2.2.2.1 255 102 = x.2.2.2.2.2 := by decide

theorem witness_ScaleStaysBetweenTheLimits : 102 ≤ 255 ∧ 7 ≤ 7 := by decide

/-- Scales one apart the wrong way round, and `maxScale` one too large. -/
theorem witness_BsLimitRefusesBadScales :
    ((limitState [] 0 10 4 100 101).ready .bsLimit = true ∧
      (limitState [] 0 10 4 100 101).ports.bsMaxScale < (limitState [] 0 10 4 100 101).ports.bsMinScale) ∧
      ((limitState [] 0 10 4 256 102).ready .bsLimit = true ∧ 255 < (limitState [] 0 10 4 256 102).ports.bsMaxScale) := by decide

theorem witness_FullScaleIsTheIdentity :
    cfg.fullScaleIdentity = true ∧ ({ cfg with fullScaleIdentity := false } : Config).fullScaleIdentity = false := by decide

/-- The pixels' bytes of a call, as the statement reads them. -/
def pixelBytes {n : Nat} (f : Fin n → Byte × Byte × Byte) : List Byte := (List.ofFn f).flatMap (fun x => [x.1, x.2.1, x.2.2])

/-- Two pixels swapped, and what BS.LIMIT makes of them in the order independence vector. -/
theorem witness_BsLimitIsOrderIndependent :
    (∀ f : Fin 2 → Byte × Byte × Byte, pixelBytes f = (List.ofFn f).flatMap (fun x => [x.1, x.2.1, x.2.2])) ∧
      scalePixels cfg (selectScale (litCount (pixelBytes ![(0x00#8, 0x00#8, 0x00#8), (0xFF#8, 0x80#8, 0x01#8)])) 2 0 255 102)
        (pixelBytes ![(0x00#8, 0x00#8, 0x00#8), (0xFF#8, 0x80#8, 0x01#8)]) =
        pixelBytes ![(0x00#8, 0x00#8, 0x00#8), (0xB2#8, 0x59#8, 0x00#8)] :=
  ⟨fun _ => rfl, by decide⟩

theorem witness_ScaledBytesShrink : 255 ≤ 255 ∧ 1 ≤ (0x01#8).toNat := by decide

/-- A parse of a packet of one payload byte, cell `k` of its buffer unwritten. -/
def holeState (k : Nat) : State :=
  (parseState [0x41, 0x00, 0x01, 0x01, 0x00, 0x00, 0x00, 0x00, 0x00, 0x01, 0x11] 11).setCaller
    { dst := { size := 11
               cells := (cellsOf [0x41, 0x00, 0x01, 0x01, 0x00, 0x00, 0x00, 0x00, 0x00, 0x01, 0x11]).filter (fun c => c.1 != k) }
      pix := { size := 0, cells := [] } }

/-- R110: an unwritten header cell stops the parse where it reads it; the payload is not read. -/
theorem test_parse_unwritten :
    (∀ k ∈ [0, 1, 2, 3, 4, 5, 6, 7, 8, 9], faultOf (exec .pcParse (holeState k)) = some .readUnwritten) ∧
      faultOf (exec .pcParse (holeState 10)) = none := by decide

/-- Each contract broken by one cell. -/
theorem witness_BrokenBufferContractsFault :
    (((oneEntry .render).withRead 21 dstView).ready .fqRead = true ∧
      ((oneEntry .render).withRead 21 dstView).viewCells dstView + 1 = 21) ∧
    ((parseState h9p9 20).ready .pcParse = true ∧ (parseState h9p9 20).viewCells (parseState h9p9 20).ports.pcBuf + 1 = 20) ∧
    ((limitState [0x01, 0x02] 1 10 4 255 102).ready .bsLimit = true ∧
      (limitState [0x01, 0x02] 1 10 4 255 102).viewCells (limitState [0x01, 0x02] 1 10 4 255 102).ports.bsPix + 1 = 3 * 1) ∧
    (((from_ cfg .rx).setPorts { portsAtReset with agent := .rx, wrData := [none] }).ready .fqWrite = true ∧
      none ∈ [(none : Option Byte)]) ∧
    (∀ k ∈ [0, 1, 2, 3, 4, 5, 6, 7, 8, 9], (holeState k).ready .pcParse = true ∧ (holeState k).viewCells (holeState k).ports.pcBuf = 11 ∧
      Memory.read (holeState k).caller.dst.cells (0 + k) = none ∧
      (1 ≤ k → Memory.read (holeState k).caller.dst.cells 0 = some 0x41#8 ∧ (0x41#8).toNat / 64 = 1) ∧
      (k ≠ 0 ∧ k ≠ 2 → Memory.read (holeState k).caller.dst.cells 2 = some 0x01#8) ∧
      (k ∈ [1, 3, 4, 5, 6, 7] → Memory.read (holeState k).caller.dst.cells 8 = some 0x00#8 ∧
        Memory.read (holeState k).caller.dst.cells 9 = some 0x01#8 ∧ be16 0x00#8 0x01#8 = 1 ∧ 10 + 1 ≤ (holeState k).ports.pcLength)) ∧
    (((limitState [0x01, 0x02, 0x03] 1 10 4 255 102).setCaller
        { dst := { size := 0, cells := [] }, pix := { size := 3, cells := [(0, 0x01), (1, 0x02)] } }).ready .bsLimit = true ∧
      Memory.read [(0, 0x01), (1, 0x02)] (0 + 2) = none) := by decide

/-- The run state of each clause. -/
theorem witness_HostBeginStartsThePipeline :
    (mk .env idleDec (queueOf []) .stopped 0 [] []).ready .hostBegin = true ∧
      (mk .env idleDec (queueOf []) .stopped 0 [] []).host.state = .stopped ∧
      (mk .env idleDec (queueOf []) .running 0 [] []).ready .hostBegin = true ∧
      (mk .env idleDec (queueOf []) .running 0 [] []).host.state = .running := by decide

theorem witness_HostEndStopsThePipeline :
    (mk .env idleDec (queueOf []) .stopped 0 [] []).ready .hostEnd = true ∧
      (mk .env idleDec (queueOf []) .stopped 0 [] []).host.state = .stopped ∧
      (mk .env idleDec (queueOf []) .running 0 [] []).ready .hostEnd = true ∧
      (mk .env idleDec (queueOf []) .running 0 [] []).host.state = .running := by decide

/-- A data byte while Running, a delimiter that completes nothing as the last byte drained, and one that completes a frame. -/
theorem witness_RxByteFeedsTheDecoder :
    ∀ x ∈ [(RunState.running, 0, 0x05#8, idleDec, accDec [0x05], false, none),
        (.stopped, 1, 0x00#8, idleDec, idleDec, false, some Reason.decEmpty),
        (.running, 0, 0x00#8, accDec [0x02, 0xD1],
          { acc := cellsOf [0x02, 0xD1], accLen := 0, out := cellsOf [0xD1], outLen := 1, frameValid := true }, true, none)],
      (mk .rx x.2.2.2.1 (queueOf []) x.1 x.2.1 [x.2.2.1] []).ready .hostRxByte = true ∧
      (mk .rx x.2.2.2.1 (queueOf []) x.1 x.2.1 [x.2.2.1] []).env.input = x.2.2.1 :: [] ∧
      x.2.2.2.1.push cfg x.2.2.1 = .ok (x.2.2.2.2.1, x.2.2.2.2.2.1, x.2.2.2.2.2.2) := by decide

/-- A frame of one byte completed, with a queue that takes it and with one that has one byte too little room. -/
theorem witness_RxByteQueuesACompletedFrame :
    (mk .rx (accDec [0x02, 0xD1]) (queueOf []) .running 0 [0x00] []).ready .hostRxByte = true ∧
      (mk .rx (accDec [0x02, 0xD1]) (queueOf []) .running 0 [0x00] []).Inv ∧ (queueOf []).Holds cfg [] ∧
      (mk .rx (accDec [0x02, 0xD1]) (queueOf (queueEntry (List.replicate 12 0x01))) .running 0 [0x00] []).Inv ∧
      (queueOf (queueEntry (List.replicate 12 0x01))).Holds cfg [List.replicate 12 0x01] ∧
      cfg.qCap - (queueOf (queueEntry (List.replicate 12 0x01))).used + 1 = [0xD1#8].length + 2 ∧
      (accDec [0x02, 0xD1]).push cfg 0x00 =
        .ok ({ acc := cellsOf [0x02, 0xD1], accLen := 0, out := cellsOf [0xD1], outLen := 1, frameValid := true }, true, none) ∧
      Memory.readCells (cellsOf [0xD1]) 0 1 = some [0xD1] := by
  have hd : (accDec [0x02, 0xD1]).Inv cfg := accDec_inv (by decide) (by decide) ⟨by decide, by decide⟩
  have hh : (queueOf (queueEntry (List.replicate 12 0x01))).Holds cfg [List.replicate 12 0x01] :=
    ⟨by decide, by decide, by decide, by decide, by decide⟩
  exact ⟨by decide, mk_inv hd emptyQueue_inv (by decide) (by decide), emptyQueue_holds,
    mk_inv hd ⟨⟨by decide, by decide⟩, by decide, _, hh⟩ (by decide) (by decide), hh, by decide, by decide, by decide⟩

theorem witness_RxStepsAfterEndAreBounded :
    (rxState .running 0 []).ports.agent = .rx ∧ (rxState .running 0 []).env.input = [] ∧
      (rxState .stopped 0 [0x01]).host.state = .stopped ∧ (rxState .stopped 0 [0x01]).host.rxDrain = 0 ∧
      (rxAtState .frame).ports.agent = .rx ∧ (rxAtState .frame).host.rxAt ≠ .idle ∧
      (rxState .stopped 1 [0x01]).ports.agent = .rx ∧ (rxState .stopped 1 [0x01]).host.state = .stopped ∧
      (nextOf (exec .hostRxByte (rxState .stopped 1 [0x01]))).map State.resp = some .done := by decide

theorem witness_HostOperationsNeverStop :
    (∀ a : Agent, (mk a idleDec (queueOf []) .stopped 0 [] []).Inv ∧
      (mk a idleDec (queueOf []) .stopped 0 [] []).ports.agent = a) :=
  fun a => ⟨mk_inv idleDec_inv emptyQueue_inv (by decide) (by decide), by cases a <;> decide⟩

/-- An empty queue, Running and Stopped, and one with an entry. -/
theorem witness_RenderTickLooksAtTheQueueFirst :
    (mk .render idleDec (queueOf []) .stopped 0 [] []).ready .hostRenderTick = true ∧
      (mk .render idleDec (queueOf []) .running 0 [] []).ready .hostRenderTick = true ∧
      (mk .render idleDec (queueOf []) .stopped 0 [] []).fq.used = 0 ∧
      (oneEntry .render).ready .hostRenderTick = true ∧ 0 < (oneEntry .render).fq.used := by decide

/-- A queue with one entry, as RENDER finds it. -/
def entryState (e : List Byte) : State := mk .render idleDec (queueOf (queueEntry e)) .stopped 0 [] []

/-- The tick of an entry that fits is ready, its state meets the invariant, and its queue holds the entry. -/
theorem entryState_ok {e : List Byte} (hl : 1 ≤ e.length ∧ e.length ≤ 14) (h1 : (entryState e).ready .hostRenderTick = true)
    (h2 : Memory.wf (entryState e).fq.ring ∧ Memory.below (entryState e).fq.ring 16)
    (h3 : Memory.readRing cfg.qCap (entryState e).fq.ring 0 (e.length + 2) = some (queueEntry e)) :
    (entryState e).ready .hostRenderTick = true ∧ (entryState e).Inv ∧ (entryState e).fq.Holds cfg [e] := by
  have hq : (entryState e).fq.Holds cfg [e] := by
    refine ⟨Nat.zero_lt_succ 15, ?_, ?_, ?_, ?_⟩
    · show (queueEntry e).length % 16 = (0 + (queueEntry e).length) % 16
      rw [Nat.zero_add]
    · show e.length + 2 ≤ 16
      exact Nat.add_le_add_right hl.2 2
    · intro x hx
      obtain rfl := List.mem_singleton.mp hx
      exact hl
    · rw [List.flatMap_singleton]
      exact h3
  exact ⟨h1, mk_inv idleDec_inv ⟨h2, rfl, _, hq⟩ (fun _ => rfl) (Nat.zero_le _), hq⟩

/-- A queue with one packet of 13 bytes. -/
def packetState (flags dest off : Byte) : State := entryState (packet1 flags dest off)

theorem packetState_ok {f d o : Byte} (h1 : (packetState f d o).ready .hostRenderTick = true)
    (h2 : Memory.wf (packetState f d o).fq.ring ∧ Memory.below (packetState f d o).fq.ring 16)
    (h3 : Memory.readRing cfg.qCap (packetState f d o).fq.ring 0 15 = some (queueEntry (packet1 f d o))) :
    (packetState f d o).ready .hostRenderTick = true ∧ (packetState f d o).Inv ∧
      (packetState f d o).fq.Holds cfg [packet1 f d o] :=
  entryState_ok ⟨by show 1 ≤ (13 : Nat); decide, by show (13 : Nat) ≤ 14; decide⟩ h1 h2 h3

/-- The last pixel of channel 2: with the push flag, and without it. -/
theorem witness_RenderTickWritesThePixels :
    ((packetState 0x41 2 0x11).ready .hostRenderTick = true ∧ (packetState 0x41 2 0x11).Inv ∧
      (packetState 0x41 2 0x11).fq.Holds cfg
        [[0x41, 0x05, 0x01, 0x02, 0x00, 0x00, 0x00, 0x11, 0x00, 0x03] ++ [0x01, 0x02, 0x03] ++ []]) ∧
    ((packetState 0x40 2 0x11).ready .hostRenderTick = true ∧ (packetState 0x40 2 0x11).Inv ∧
      (packetState 0x40 2 0x11).fq.Holds cfg
        [[0x40, 0x05, 0x01, 0x02, 0x00, 0x00, 0x00, 0x11, 0x00, 0x03] ++ [0x01, 0x02, 0x03] ++ []]) :=
  ⟨packetState_ok (by decide +kernel) (by decide +kernel) (by decide +kernel),
    packetState_ok (by decide +kernel) (by decide +kernel) (by decide +kernel)⟩

/-- The same packets' other hypotheses. -/
theorem witness_RenderTickWritesThePixels_operands :
    10 + [0x01#8, 0x02#8, 0x03#8].length + ([] : List Byte).length ≤ cfg.renderBufCap ∧ (0x41#8).toNat / 64 = 1 ∧
      (0x40#8).toNat / 64 = 1 ∧ [0x01#8, 0x02#8, 0x03#8].length = be16 0x00 0x03 ∧
      ({ id := 2, pixels := 6, out := 8 } : Channel) ∈ cfg.channels ∧ be32 0x00 0x00 0x00 0x11 / 3 = 5 ∧ 5 < 6 ∧
      min ([0x01#8, 0x02#8, 0x03#8].length / 3) (6 - 5) = 1 ∧
      selectScale (litCount ([0x01#8, 0x02#8, 0x03#8].take (3 * 1))) 6 4 255 102 = 255 := by decide +kernel

/-- An id that no channel has, and a start at the channel's end. -/
theorem witness_RenderTickDropsBadAndUnroutedPackets :
    ((packetState 0x41 9 0x00).ready .hostRenderTick = true ∧ (packetState 0x41 9 0x00).Inv ∧
      (packetState 0x41 9 0x00).fq.Holds cfg
        [[0x41, 0x05, 0x01, 0x09, 0x00, 0x00, 0x00, 0x00, 0x00, 0x03] ++ [0x01, 0x02, 0x03] ++ []] ∧
      (∀ ch ∈ cfg.channels, ch.id = 9#8 → ch.pixels ≤ be32 0x00 0x00 0x00 0x00 / 3)) ∧
    ((packetState 0x41 2 0x12).ready .hostRenderTick = true ∧ (packetState 0x41 2 0x12).Inv ∧
      (packetState 0x41 2 0x12).fq.Holds cfg
        [[0x41, 0x05, 0x01, 0x02, 0x00, 0x00, 0x00, 0x12, 0x00, 0x03] ++ [0x01, 0x02, 0x03] ++ []] ∧
      (∀ ch ∈ cfg.channels, ch.id = 2#8 → ch.pixels ≤ be32 0x00 0x00 0x00 0x12 / 3)) := by
  obtain ⟨a1, a2, a3⟩ := packetState_ok (f := 0x41) (d := 9) (o := 0x00) (by decide +kernel) (by decide +kernel) (by decide +kernel)
  obtain ⟨b1, b2, b3⟩ := packetState_ok (f := 0x41) (d := 2) (o := 0x12) (by decide +kernel) (by decide +kernel) (by decide +kernel)
  exact ⟨⟨a1, a2, a3, by decide +kernel⟩, b1, b2, b3, by decide +kernel⟩

/-- Each check's boundary: 9 bytes; a version below and one above; a data type; payload lengths 0 and 1441; one byte missing. -/
def badEntries : List (List Byte × Reason) :=
  [((headerOf 0x41 0x01 0x00 0x09).take 9, .short), (headerOf 0x3F 0x01 0x00 0x09, .version),
    (headerOf 0x80 0x01 0x00 0x09, .version), (headerOf 0x40 0x02 0x00 0x09, .dataType),
    (headerOf 0x41 0x01 0x00 0x00, .payloadLength), (headerOf 0x41 0x01 0x05 0xA1, .payloadLength),
    (headerOf 0x41 0x01 0x00 0x04 ++ [0x01, 0x02, 0x03], .truncated)]

/-- What the statement asks of an entry that fails PC.PARSE, but for the invariant. -/
theorem badEntries_ready : ∀ x ∈ badEntries,
    (1 ≤ x.1.length ∧ x.1.length ≤ 14) ∧ (entryState x.1).ready .hostRenderTick = true ∧
      (Memory.wf (entryState x.1).fq.ring ∧ Memory.below (entryState x.1).fq.ring 16) ∧
      Memory.readRing cfg.qCap (entryState x.1).fq.ring 0 (x.1.length + 2) = some (queueEntry x.1) ∧
      (if x.1.length < 10 then some Reason.short
        else if (x.1.getD 0 0).toNat / 64 ≠ 1 then some .version
        else if x.1.getD 2 0 ≠ 0x00#8 ∧ x.1.getD 2 0 ≠ 0x01#8 then some .dataType
        else if be16 (x.1.getD 8 0) (x.1.getD 9 0) = 0 ∨ 1440 < be16 (x.1.getD 8 0) (x.1.getD 9 0) then some .payloadLength
        else if x.1.length < 10 + be16 (x.1.getD 8 0) (x.1.getD 9 0) then some .truncated
        else none) = some x.2 := by decide +kernel

theorem witness_RenderTickDropsBadAndUnroutedPackets_bad : ∀ x ∈ badEntries,
    (entryState x.1).ready .hostRenderTick = true ∧ (entryState x.1).Inv ∧ (entryState x.1).fq.Holds cfg [x.1] ∧
      x.1.length ≤ cfg.renderBufCap := by
  intro x hx
  obtain ⟨h1, h2, h3, h4, _⟩ := badEntries_ready x hx
  obtain ⟨g1, g2, g3⟩ := entryState_ok h1 h2 h3 h4
  exact ⟨g1, g2, g3, h1.2⟩

/-- H-6's kind: a queued entry one byte longer than the render buffer's capacity. -/
def overlong : State := { packetState 0x41 0x01 0x00 with cfg := { cfg with renderBufCap := 12 } }

theorem witness_RenderTickOfAnOverlongEntry :
    overlong.ready .hostRenderTick = true ∧ overlong.Inv ∧ overlong.fq.Holds overlong.cfg [packet1 0x41 0x01 0x00] ∧
      overlong.cfg.renderBufCap + 1 = (packet1 0x41 0x01 0x00).length := by
  obtain ⟨_, h, h'⟩ := packetState_ok (f := 0x41) (d := 0x01) (o := 0x00) (by decide +kernel) (by decide +kernel) (by decide +kernel)
  have hq : overlong.fq.Holds overlong.cfg [packet1 0x41 0x01 0x00] :=
    ⟨h'.rd_lt, h'.wr_eq, h'.used_le, h'.lengths, h'.bytes⟩
  exact ⟨by decide +kernel,
    ⟨by decide, ⟨Memory.Ok.nil _, Memory.Ok.nil _, Nat.zero_le _, ⟨[], rfl, by decide⟩, Nat.zero_le _, rfl, ⟨[], rfl⟩⟩,
      ⟨h.fq.ring_ok, h.fq.lock_eq, _, hq⟩, Memory.Ok.nil _, Memory.Ok.nil _, Memory.Ok.nil _,
      ⟨fun _ => ⟨rfl, rfl⟩, Nat.zero_le _⟩, ⟨Nat.two_pow_pos _, Nat.two_pow_pos _, Nat.two_pow_pos _, Nat.two_pow_pos _⟩,
      ⟨(fun h => nomatch h), (fun _ h => nomatch h), (fun _ _ h => h.elim (fun h => nomatch h) (fun h => nomatch h)),
        fun h => absurd rfl h⟩⟩,
    hq, rfl⟩

/-- `waiting`, the flush returned. -/
def returned (a : Agent) : State := { waiting a [] with env := { (waiting a []).env with flushPending := none } }

/-- Each agent inside an operation; a flush not returned, with RX's operation and its later step; the count after the return. -/
theorem witness_PendingFlushesAndOpenOperationsHoldTheirAgent :
    ((rxAtState .frame).ports.agent = .rx ∧ (rxAtState .frame).host.rxAt ≠ .idle ∧ admits .decPush .rx = true) ∧
      ((waiting .render []).ports.agent = .render ∧ (waiting .render []).host.tickAt ≠ .idle ∧
        (waiting .render []).env.flushPending ≠ none ∧ admits .hostRenderTick .render = true) ∧
      (waiting .render []).env.flushPending = some 8 ∧ (waiting .rx []).ports.agent = .rx ∧
      (nextOf (exec .hostRxByte (returned .rx))).isSome = true ∧
      (nextOf (proceed .rx ((returned .rx).rxGoTo (.count none)))).isSome = true ∧
      (waiting .env [.flushReturn]).cfg.valid = true ∧ (waiting .env [.flushReturn]).sched = .flushReturn :: [] ∧
      (returned .render).host.tickAt = .count ∧ (returned .render).env.flushPending = none := by decide

/-- RX reads its own counter while a flush is pending, ENV another's, and RENDER waits. -/
theorem witness_CounterReads :
    (waiting .env [.readCounter .rx .droppedRx]).cfg.valid = true ∧
      (waiting .env [.readCounter .rx .droppedRx]).sched = .readCounter .rx .droppedRx :: [] ∧
      (waiting .env []).agentFree .rx = true ∧ Agent.rx = Counter.droppedRx.writer ∧
      (waiting .env []).agentFree .env = true ∧ Agent.env ≠ Counter.droppedRx.writer ∧
      (waiting .env []).agentFree .render = false := by decide

/-- R35: the two drop counters add up, modulo the width. -/
theorem test_reportedDropped :
    ({ from_ { cfg with ctrWidth := 4 } .env with
        stats := { framesReceived := 0, droppedRx := 9, packetsProcessed := 0, droppedRender := 8 } } : State).reportedDropped = 1 := by
  decide

/-- Ended, with a tick on the empty queue still scheduled. -/
theorem witness_TheLoopsDoNothingAfterTheEndOfARun :
    ∀ a : Agent, (mk a idleDec (queueOf []) .running 0 [] [req 0xF3 .render]).Ended ∧
      (mk a idleDec (queueOf []) .running 0 [] [req 0xF3 .render]).fq.lock = .free ∧
      (mk a idleDec (queueOf []) .running 0 [] [req 0xF3 .render]).ports.agent = a :=
  fun _ => ⟨⟨rfl, (fun _ h => nomatch (List.mem_singleton.mp h)), ⟨rfl, rfl⟩, rfl, ⟨rfl, rfl⟩⟩, rfl, rfl⟩

theorem witness_StoringOperationsFrame :
    ((nextOf (exec .fqWrite ((oneEntry .rx).withPayload [0x01]))).isSome = true ∧ Memory.wf (oneEntry .rx).fq.ring) ∧
      ((nextOf (exec .fqRead ((oneEntry .render).withRead 3 dstView))).isSome = true ∧
        Memory.wf ((oneEntry .render).buf dstView.buf).cells) ∧
      ((nextOf (exec .bsLimit (limitState [0xFF, 0x80, 0x01] 1 1 0 255 102))).isSome = true ∧
        Memory.wf ((limitState [0xFF, 0x80, 0x01] 1 1 0 255 102).buf .pix).cells) := by decide

/-- A packet routed to channel 2, its bytes in `host.rbuf`, before BS.LIMIT. -/
def scaleState : State :=
  tickAtState (.scale (packet1Of 0x41 2 0x11) { id := 2, pixels := 6, out := 8 }) (packet1 0x41 2 0x11)

theorem scaleState_loops : scaleState.LoopInv := by
  refine ⟨(fun h => nomatch h), (fun _ h => nomatch h), ?_, fun h => absurd rfl h⟩
  rintro p ch (h | h)
  · obtain ⟨rfl, rfl⟩ := TickPosition.scale.inj h
    exact ⟨rfl, by decide, rfl, ⟨[0x01, 0x02, 0x03], by decide +kernel⟩, by decide, by decide⟩
  · exact nomatch h

/-- The first step of each operation, RX's FQ.WRITE, and RENDER's FQ.READ and BS.LIMIT. -/
theorem witness_HostOperationsFrame :
    (nextOf (exec .hostBegin (from_ cfg .env))).isSome = true ∧ (nextOf (exec .hostEnd (from_ cfg .env))).isSome = true ∧
      (nextOf (exec .hostRxByte (rxState .running 0 [0x01]))).isSome = true ∧
      (Memory.wf (rxState .running 0 [0x01]).dec.acc ∧ Memory.wf (rxState .running 0 [0x01]).dec.out) ∧
      (nextOf (proceed .rx (rxAtState (.write [0xD1])))).isSome = true ∧ Memory.wf (rxAtState (.write [0xD1])).fq.ring ∧
      (nextOf (exec .hostRenderTick (tickState 0x41 2 0x11))).isSome = true ∧
      (nextOf (proceed .render ((oneEntry .render).tickGoTo .read))).isSome = true ∧
      Memory.wf ((oneEntry .render).tickGoTo .read).host.rbuf ∧
      (nextOf (proceed .render scaleState)).isSome = true ∧ Memory.wf scaleState.host.rbuf := by decide +kernel

theorem witness_HostOperationsFrame_loops : scaleState.LoopInv ∧ ((oneEntry .render).tickGoTo .read).LoopInv :=
  ⟨scaleState_loops, (fun h => nomatch h), (fun _ h => nomatch h), (fun _ _ h => h.elim (fun h => nomatch h) (fun h => nomatch h)),
    fun h => absurd rfl h⟩

end Sys2Proof.Tests
end

section
/-! PROOFS. The scope of the model: the step of a scheduled request (R5, R81) and the bounds of construction (R8, R154). -/

namespace Sys2Proof

/-- R8's channel bounds as propositions. -/
theorem channelsValid_iff (chs : List Channel) :
    channelsValid chs = true ↔ (∀ ch ∈ chs, ch.pixels ≤ 65535) ∧ (chs.map Channel.id).Nodup := by
  simp only [channelsValid, Bool.and_eq_true, List.all_eq_true, decide_eq_true_eq]

/-- R8's bounds as propositions. -/
theorem Config.valid_iff (c : Config) :
    c.valid = true ↔
      1 ≤ c.accCap ∧ c.accCap ≤ 65535 ∧ 1 ≤ c.decCap ∧ c.decCap ≤ 65535 ∧ 3 ≤ c.qCap ∧ c.qCap ≤ 65537 ∧
        1 ≤ c.renderBufCap ∧ c.renderBufCap ≤ 65535 ∧ 1 ≤ c.ctrWidth ∧
        (∀ ch ∈ c.channels, ch.pixels ≤ 65535) ∧ (c.channels.map Channel.id).Nodup := by
  simp only [Config.valid, Bool.and_eq_true, decide_eq_true_eq, channelsValid_iff, and_assoc]

end Sys2Proof

namespace Sys2Proof.Machine

theorem State.construct_of_valid {c : Config} (h : c.valid = true) :
    State.construct c = .next (State.resetWith c) := if_pos h

theorem State.construct_of_not_valid {c : Config} (h : ¬ c.valid = true) :
    State.construct c = .refused .badConfig := if_neg h

/-- On a valid configuration the head of the schedule is the move fetched, and it is taken off. -/
theorem fetch_of_sched_cons {s : State} {m : Move} {rest : List Move} (hv : s.cfg.valid = true)
    (hs : s.sched = m :: rest) : fetch s = fetchMove m (s.setSched rest) := by
  simp only [fetch, if_pos hv, hs]

/-- A request whose word spells an operation asks for it to run, with the request's operands on the ports. -/
theorem fetchMove_request_of_decode {w : CommandWord} {i : Instr} (hd : decodeWord w = .ok i) (p : Ports) (s : State) :
    fetchMove (.request w p) s = .run i (s.setPorts p) := by
  simp only [fetchMove, hd]

theorem step_of_fetch_run {s t : State} {i : Instr} (h : fetch s = .run i t) : step s = exec i t := by
  simp only [step, h]

end Sys2Proof.Machine

section

open Sys2Proof Sys2Proof.Machine

/-- Settles O4: the request is fetched, its word decodes, and the step runs what was fetched. -/
theorem stepRunsTheDecodedRequest : Obligations.StepRunsTheDecodedRequest := by
  intro s w p rest i hv hs hd
  have hfetch : fetch s = .run i ((s.setSched rest).setPorts p) :=
    (fetch_of_sched_cons hv hs).trans (fetchMove_request_of_decode hd p _)
  exact step_of_fetch_run hfetch

/-- Settles O6: `Config.valid`, on which construction turns, is the conjunction of R8's bounds. -/
theorem constructionChecksTheBounds : Obligations.ConstructionChecksTheBounds := by
  intro c
  rw [← Config.valid_iff]
  exact ⟨State.construct_of_valid, State.construct_of_not_valid⟩

end
end

section
/-! PROOFS. What each operation behind `opBody` and each environment move can do to the state, said once. -/

namespace Sys2Proof.Machine

variable {s t : State}

theorem decPush_ok (h : decPush s = .ok t) :
    ∃ d ready why, s.dec.push s.cfg s.ports.inByte = .ok (d, ready, why) ∧
      t = (s.setDec d).respond (.frameReady ready) why := by
  unfold decPush at h
  split at h
  · exact absurd h (by simp)
  · next d ready why hp => exact ⟨d, ready, why, hp, (Except.ok.inj h).symm⟩

theorem decFrame_ok (h : decFrame s = .ok t) :
    ∃ bs, s.dec.frame s.cfg = .ok bs ∧ t = s.respond (.frame s.dec.outLen bs) none := by
  unfold decFrame at h
  split at h
  · exact absurd h (by simp)
  · next bs hf => exact ⟨bs, hf, (Except.ok.inj h).symm⟩

theorem fqWrite_ok (h : fqWrite s = .ok t) :
    ∃ q why, s.fq.write s.cfg s.ports.wrData = .ok (q, why) ∧ t = (s.setFq q).respond (.wrOk why.isNone) why := by
  unfold fqWrite at h
  split at h
  · exact absurd h (by simp)
  · next u why hw =>
    obtain ⟨q, hq, rfl⟩ := State.fqWrite_ok hw
    exact ⟨q, why, hq, (Except.ok.inj h).symm⟩

theorem fqRead_ok (h : fqRead s = .ok t) :
    ∃ u bs why, s.fqRead s.ports.rdMax s.ports.rdDst = .ok (u, bs, why) ∧ t = u.respond (.read bs.length bs) why := by
  unfold fqRead at h
  split at h
  · exact absurd h (by simp)
  · next u bs why hr => exact ⟨u, bs, why, hr, (Except.ok.inj h).symm⟩

theorem pcParse_ok (h : pcParse s = .ok t) :
    (∃ r, s.parse s.ports.pcBuf s.ports.pcLength = .ok (.error r) ∧ t = s.respond .parseFail (some r)) ∨
      ∃ p, s.parse s.ports.pcBuf s.ports.pcLength = .ok (.ok p) ∧ t = s.respond (.packet p) none := by
  unfold pcParse at h
  split at h
  · exact absurd h (by simp)
  · next r hr => exact .inl ⟨r, hr, (Except.ok.inj h).symm⟩
  · next p hp => exact .inr ⟨p, hp, (Except.ok.inj h).symm⟩

theorem bsLimit_ok (h : bsLimit s = .ok t) :
    ∃ u, s.limit s.ports.bsPix s.ports.bsCount s.ports.bsTotal s.ports.bsThreshold s.ports.bsMaxScale
        s.ports.bsMinScale = .ok u ∧ t = u.respond .done none := by
  unfold bsLimit at h
  split at h
  · exact absurd h (by simp)
  · next u hu => exact ⟨u, hu, (Except.ok.inj h).symm⟩

theorem hostBegin_ok (h : hostBegin s = .ok t) :
    t = s.respond .done none ∨
      t = ((s.setStats Stats.zero).setHost { s.host with state := .running, stop := false, rxDrain := 0 }).respond
        .done none := by
  unfold hostBegin at h
  split at h
  · exact .inl (Except.ok.inj h).symm
  · exact .inr (Except.ok.inj h).symm

theorem hostEnd_ok (h : hostEnd s = .ok t) :
    t = s.respond .done none ∨
      t = (s.setHost { s.host with state := .stopped, stop := true, rxDrain := s.env.input.length }).respond
        .done none := by
  unfold hostEnd at h
  split at h
  · exact .inl (Except.ok.inj h).symm
  · exact .inr (Except.ok.inj h).symm

/-- While Stopped a byte taken is one of those left to drain (R132). -/
theorem State.takeInput_stopped {rest : List Byte} (hs : s.host.state = .stopped) :
    s.takeInput rest =
      (s.setHost { s.host with rxDrain := s.host.rxDrain - 1 }).setEnv { s.env with input := rest } := by
  rw [State.takeInput, if_pos hs]
  rfl

theorem State.takeInput_running {rest : List Byte} (hs : s.host.state = .running) :
    s.takeInput rest = s.setEnv { s.env with input := rest } := by
  rw [State.takeInput, if_neg (by simp [hs])]
  rfl

@[simp] theorem State.takeInput_rxAt (rest : List Byte) : (s.takeInput rest).host.rxAt = s.host.rxAt := by
  simp only [State.takeInput, State.setHost_host]
  split <;> rfl

/-- The agent on the ports is free to begin an operation that is ready (R133, R134, R145). -/
theorem State.agentFree_of_ready {i : Instr} (h : s.ready i = true) : s.agentFree s.ports.agent = true := by
  simp only [State.ready, State.enabled, Bool.and_eq_true] at h
  exact h.2.1.2

theorem State.rxAt_idle_of_ready {i : Instr} (h : s.ready i = true) (hi : ∀ a, admits i a = (a == .rx)) :
    s.host.rxAt = .idle := by
  have ha : s.ports.agent = .rx := by
    simp only [State.ready, Bool.and_eq_true, hi] at h
    exact eq_of_beq h.1
  have hf := State.agentFree_of_ready h
  rw [ha] at hf
  exact eq_of_beq hf

/-- A RENDER that may begin an operation waits for no flush (R145). -/
theorem State.no_flush_of_ready {i : Instr} (h : s.ready i = true) (hi : ∀ a, admits i a = (a == .render)) :
    s.env.flushPending = none := by
  have ha : s.ports.agent = .render := by
    simp only [State.ready, Bool.and_eq_true, hi] at h
    exact eq_of_beq h.1
  have hf := State.agentFree_of_ready h
  simp only [ha, State.agentFree, Bool.and_eq_true] at hf
  exact Option.isNone_iff_eq_none.mp hf.2

/-- A RENDER that may take its next transaction waits for no flush (R145). -/
theorem State.no_flush_of_mayProceed (h : s.mayProceed .render = true) : s.env.flushPending = none := by
  simp only [State.mayProceed, Bool.and_eq_true] at h
  exact Option.isNone_iff_eq_none.mp h.1

/-- The flush of a pushed packet and the tick's position are separate fields. -/
theorem State.flushIf_tickGoTo (push : Bool) (out : Nat) (p : TickPosition) :
    (s.flushIf push out).tickGoTo p = (s.tickGoTo p).flushIf push out := by
  cases push <;> rfl

end Sys2Proof.Machine
end

section
/-! PROOFS. The state invariant, one rule per update of the state: what must hold for the update to keep it. -/

namespace Sys2Proof.Machine

variable {s t : State}

/-- A span reads iff each of its cells holds a value. -/
theorem Memory.readCells_held_iff {m : Memory} {a n : Nat} :
    (∃ bs, Memory.readCells m a n = some bs) ↔ ∀ k, k < n → (Memory.read m (a + k)).isSome = true := by
  induction n generalizing a with
  | zero => simp [Memory.readCells]
  | succ n ih =>
    have hsucc : (∃ bs, Memory.readCells m a (n + 1) = some bs) ↔
        (Memory.read m a).isSome = true ∧ ∃ bs, Memory.readCells m (a + 1) n = some bs := by
      rw [Memory.readCells_succ]
      cases Memory.read m a <;> cases Memory.readCells m (a + 1) n <;> simp
    rw [hsucc, ih]
    constructor
    · rintro ⟨h0, hs⟩ (_ | k) hk
      · exact h0
      · simpa [Nat.add_assoc, Nat.add_comm 1 k] using hs k (by omega)
    · intro h
      refine ⟨h 0 (by omega), fun k hk => ?_⟩
      simpa [Nat.add_assoc, Nat.add_comm 1 k] using h (k + 1) (by omega)

/-- A span inside a span that reads, reads. -/
theorem Memory.readCells_held_sub {m : Memory} {a n a' n' : Nat} (h : ∃ bs, Memory.readCells m a n = some bs)
    (ha : a ≤ a') (hn : a' + n' ≤ a + n) : ∃ bs, Memory.readCells m a' n' = some bs := by
  rw [Memory.readCells_held_iff] at h ⊢
  intro k hk
  have := h (a' - a + k) (by omega)
  rwa [show a + (a' - a + k) = a' + k by omega] at this

/-- Writing bytes takes no cell's value away. -/
theorem Memory.readCells_held_writeSpan {m : Memory} (hm : Memory.wf m) (p : Nat) (xs : List Byte) {a n : Nat}
    (h : ∃ bs, Memory.readCells m a n = some bs) : ∃ bs, Memory.readCells (Memory.writeSpan m p xs) a n = some bs := by
  rw [Memory.readCells_held_iff] at h ⊢
  intro k hk
  rw [Memory.read_writeSpan _ _ _ _ hm]
  split
  · rw [List.getElem?_eq_getElem (by omega)]
    rfl
  · exact h k hk

theorem bump_lt (c : Config) (n : Nat) : bump c n < 2 ^ c.ctrWidth := Nat.mod_lt _ (Nat.two_pow_pos _)

theorem Stats.Inv.zero (c : Config) : Stats.zero.Inv c :=
  have h := Nat.two_pow_pos c.ctrWidth
  ⟨h, h, h, h⟩

theorem State.LifecycleInv.congr (h : s.LifecycleInv) (hh : t.host = s.host) (hi : t.env.input = s.env.input) :
    t.LifecycleInv := by
  constructor
  · rw [hh]
    exact h.running_clear
  · rw [hh, hi]
    exact h.drain_le

theorem State.Routed.congr {p : Packet} {ch : Channel} (h : s.Routed p ch) (hc : t.cfg = s.cfg)
    (hb : t.host.rbuf = s.host.rbuf) : t.Routed p ch where
  view := h.view
  fits := hc ▸ h.fits
  pixels := h.pixels
  held := hb ▸ h.held
  channel := hc ▸ h.channel
  start := h.start

/-- An update that leaves RENDER's position, the configuration and `host.rbuf` has only the other two clauses of the positions'
invariant to keep. -/
theorem State.LoopInv.congr (h : s.LoopInv) (hc : t.cfg = s.cfg) (hh : t.host.rbuf = s.host.rbuf)
    (ht : t.host.tickAt = s.host.tickAt) (hr : t.host.rxAt = .frame → t.dec.frameValid = true)
    (hf : t.env.flushPending ≠ none → s.host.tickAt = .count) : t.LoopInv where
  rx_frame := hr
  tick_parse := by
    rw [hc, hh, ht]
    exact h.tick_parse
  tick_route p ch hp := (h.tick_route p ch (ht ▸ hp)).congr hc hh
  flush hp := ht ▸ hf hp

/-- The ports, the schedule, the response and the count of draws are in no clause of the invariant. -/
theorem State.Inv.congr (h : s.Inv) (hcfg : t.cfg = s.cfg) (hdec : t.dec = s.dec) (hfq : t.fq = s.fq)
    (hhost : t.host = s.host) (hstats : t.stats = s.stats) (henv : t.env = s.env) (hcaller : t.caller = s.caller) :
    t.Inv where
  cfg_valid := hcfg ▸ h.cfg_valid
  dec := hcfg ▸ hdec ▸ h.dec
  fq := hcfg ▸ hfq ▸ h.fq
  rbuf_ok := hcfg ▸ hhost ▸ h.rbuf_ok
  dst_ok := hcaller ▸ h.dst_ok
  pix_ok := hcaller ▸ h.pix_ok
  lifecycle := h.lifecycle.congr hhost (by rw [henv])
  stats := hcfg ▸ hstats ▸ h.stats
  loops := h.loops.congr hcfg (by rw [hhost]) (by rw [hhost]) (by rw [hhost, hdec]; exact h.loops.rx_frame)
    (by rw [henv]; exact h.loops.flush)

theorem State.Inv.respond (h : s.Inv) (r : Response) (why : Option Reason) : (s.respond r why).Inv :=
  h.congr rfl rfl rfl rfl rfl rfl rfl

theorem State.Inv.stays (h : s.Inv) : s.stays.Inv := h.respond _ _

theorem State.Inv.setPorts (h : s.Inv) (p : Ports) : (s.setPorts p).Inv := h.congr rfl rfl rfl rfl rfl rfl rfl

theorem State.Inv.setSched (h : s.Inv) (ms : List Move) : (s.setSched ms).Inv := h.congr rfl rfl rfl rfl rfl rfl rfl

theorem State.Inv.setDraws (h : s.Inv) (n : Nat) : (s.setDraws n).Inv := h.congr rfl rfl rfl rfl rfl rfl rfl

/-- The decoder may change while RX does not stand before DEC.FRAME, or with the window open. -/
theorem State.Inv.setDec (h : s.Inv) {d : Dec} (hd : d.Inv s.cfg) (hf : s.host.rxAt = .frame → d.frameValid = true) :
    (s.setDec d).Inv :=
  { h with
    dec := hd
    lifecycle := h.lifecycle.congr rfl rfl
    loops := h.loops.congr rfl rfl rfl hf h.loops.flush }

theorem State.Inv.setFq (h : s.Inv) {q : Fq} (hq : q.Inv s.cfg) : (s.setFq q).Inv :=
  { h with
    fq := hq
    lifecycle := h.lifecycle.congr rfl rfl
    loops := h.loops.congr rfl rfl rfl h.loops.rx_frame h.loops.flush }

theorem State.Inv.setStats (h : s.Inv) {n : Stats} (hn : n.Inv s.cfg) : (s.setStats n).Inv :=
  { h with
    stats := hn
    lifecycle := h.lifecycle.congr rfl rfl
    loops := h.loops.congr rfl rfl rfl h.loops.rx_frame h.loops.flush }

theorem State.Inv.countFrame (h : s.Inv) (why : Option Reason) : (s.countFrame why).Inv := by
  cases why with
  | none => exact h.setStats { h.stats with framesReceived := bump_lt _ _ }
  | some r => exact h.setStats { h.stats with droppedRx := bump_lt _ _ }

theorem State.Inv.countProcessed (h : s.Inv) : s.countProcessed.Inv :=
  h.setStats { h.stats with packetsProcessed := bump_lt _ _ }

theorem State.Inv.countDroppedRender (h : s.Inv) : s.countDroppedRender.Inv :=
  h.setStats { h.stats with droppedRender := bump_lt _ _ }

/-- The environment may change as long as the bytes left to drain are there, and a flush is awaited only by a tick that has
issued its calls (R132, R145). -/
theorem State.Inv.setEnv (h : s.Inv) {e : EnvState} (hi : s.host.rxDrain ≤ e.input.length)
    (hf : e.flushPending ≠ none → s.host.tickAt = .count) : (s.setEnv e).Inv :=
  { h with
    lifecycle := ⟨h.lifecycle.running_clear, hi⟩
    loops := h.loops.congr rfl rfl rfl h.loops.rx_frame hf }

theorem State.Inv.ledCalls (h : s.Inv) (calls : List LedCall) : (s.ledCalls calls).Inv :=
  h.setEnv h.lifecycle.drain_le h.loops.flush

theorem State.Inv.flushIf (h : s.Inv) (push : Bool) (out : Nat) (hc : s.host.tickAt = .count) :
    (s.flushIf push out).Inv := by
  cases push with
  | false => exact h
  | true => exact h.setEnv h.lifecycle.drain_le fun _ => hc

theorem State.Inv.setCaller (h : s.Inv) {c : Caller} (hd : Memory.Ok c.dst.cells c.dst.size)
    (hp : Memory.Ok c.pix.cells c.pix.size) : (s.setCaller c).Inv :=
  { h with
    dst_ok := hd
    pix_ok := hp
    lifecycle := h.lifecycle.congr rfl rfl
    loops := h.loops.congr rfl rfl rfl h.loops.rx_frame h.loops.flush }

/-- The lifecycle registers (R130 to R132). -/
theorem State.Inv.setRun (h : s.Inv) {r : RunState} {stop : Bool} {k : Nat} (hr : r = .running → stop = false ∧ k = 0)
    (hk : k ≤ s.env.input.length) :
    (s.setHost { s.host with state := r, stop := stop, rxDrain := k }).Inv :=
  { h with
    lifecycle := ⟨hr, hk⟩
    loops := h.loops.congr rfl rfl rfl h.loops.rx_frame h.loops.flush }

theorem State.Inv.rxGoTo (h : s.Inv) {p : RxPosition} (hp : p = .frame → s.dec.frameValid = true) : (s.rxGoTo p).Inv :=
  { h with
    lifecycle := ⟨h.lifecycle.running_clear, h.lifecycle.drain_le⟩
    loops := h.loops.congr rfl rfl rfl hp h.loops.flush }

/-- RENDER may go to a position whose next transaction can be taken; with a flush awaited, only past its LED driver calls. -/
theorem State.Inv.tickGoTo (h : s.Inv) {p : TickPosition}
    (hn : ∀ n, p = .parse n → n ≤ s.cfg.renderBufCap ∧ ∃ bs, Memory.readCells s.host.rbuf 0 n = some bs)
    (hr : ∀ pk ch, p = .scale pk ch ∨ p = .pixels pk ch → s.Routed pk ch)
    (hf : s.env.flushPending ≠ none → p = .count) : (s.tickGoTo p).Inv :=
  { h with
    lifecycle := ⟨h.lifecycle.running_clear, h.lifecycle.drain_le⟩
    loops := ⟨h.loops.rx_frame, hn, fun pk ch hp => (hr pk ch hp).congr rfl rfl, hf⟩ }

/-- Nothing is asked of a RENDER that reads, counts or drops next, or is through. -/
theorem State.Inv.tickGoTo_bare (h : s.Inv) {p : TickPosition}
    (hp : p = .idle ∨ p = .read ∨ p = .count ∨ ∃ r, p = .drop r) (hf : s.env.flushPending ≠ none → p = .count) :
    (s.tickGoTo p).Inv := by
  refine h.tickGoTo ?_ ?_ hf
  · rintro n rfl
    simp at hp
  · rintro pk ch (rfl | rfl) <;> simp at hp

theorem State.Inv.buf_ok (h : s.Inv) (b : BufName) : Memory.Ok (s.buf b).cells (s.buf b).size := by
  cases b with
  | rbuf => exact h.rbuf_ok
  | dst => exact h.dst_ok
  | pix => exact h.pix_ok

/-- A buffer's cells may be replaced by cells in canonical form, if none loses its value. -/
theorem State.Inv.setCells (h : s.Inv) {b : BufName} {m : Memory} (hm : Memory.Ok m (s.buf b).size)
    (hheld : ∀ a n, (∃ bs, Memory.readCells (s.buf b).cells a n = some bs) → ∃ bs, Memory.readCells m a n = some bs) :
    (s.setCells b m).Inv := by
  cases b with
  | rbuf =>
    exact { h with
      rbuf_ok := hm
      lifecycle := ⟨h.lifecycle.running_clear, h.lifecycle.drain_le⟩
      loops :=
        { rx_frame := h.loops.rx_frame
          tick_parse := fun n hn => (h.loops.tick_parse n hn).imp_right (hheld 0 n)
          tick_route := fun p ch hp =>
            { h.loops.tick_route p ch hp with held := hheld _ _ (h.loops.tick_route p ch hp).held }
          flush := h.loops.flush } }
  | dst => exact h.setCaller hm h.pix_ok
  | pix => exact h.setCaller h.dst_ok hm

/-- Bytes may be written to a buffer operand that has room for them. -/
theorem State.Inv.writeView (h : s.Inv) {v : View} {n : Nat} (hc : s.checkView v n = .ok ()) {bs : List Byte}
    (hl : bs.length ≤ n) : (s.writeView v bs).Inv := by
  cases bs with
  | nil => exact (State.writeView_nil s v).symm ▸ h
  | cons b bs =>
    have hfit : v.base + (b :: bs).length ≤ (s.buf v.buf).size := by
      have := (State.checkView_ok.mp hc).2
      simp only [List.length_cons] at hl ⊢
      omega
    have hok := h.buf_ok v.buf
    exact h.setCells (hok.writeSpan _ hfit) fun _ _ => Memory.readCells_held_writeSpan hok.1 _ _

theorem State.Inv.takeInput (h : s.Inv) {b : Byte} {rest : List Byte} (hi : s.env.input = b :: rest) :
    (s.takeInput rest).Inv := by
  have hd := h.lifecycle.drain_le
  rw [hi, List.length_cons] at hd
  cases hs : s.host.state with
  | stopped =>
    rw [State.takeInput_stopped hs]
    have hrun : (s.setHost { s.host with rxDrain := s.host.rxDrain - 1 }).Inv :=
      h.setRun (r := s.host.state) (by simp [hs]) (by rw [hi, List.length_cons]; omega)
    exact hrun.setEnv (by simp only [State.setHost_host]; omega) h.loops.flush
  | running =>
    rw [State.takeInput_running hs]
    have h0 := (h.lifecycle.running_clear hs).2
    exact h.setEnv (by omega) h.loops.flush

theorem State.Inv.accCap_pos (h : s.Inv) : 1 ≤ s.cfg.accCap := ((Config.valid_iff _).mp h.cfg_valid).1

theorem State.Inv.qCap_le (h : s.Inv) : s.cfg.qCap ≤ 65537 := by
  obtain ⟨-, -, -, -, -, hq, -⟩ := (Config.valid_iff _).mp h.cfg_valid
  exact hq

/-- A read that answers keeps R30 and gives at most `maxLength` bytes. -/
theorem Fq.Inv.read_ok {c : Config} {q q' : Fq} (h : q.Inv c) (hc : c.qCap ≤ 65537) {n : Nat} {bs : List Byte}
    {why : Option Reason} (hr : q.read c n = .ok (q', bs, why)) : q'.Inv c ∧ bs.length ≤ n := by
  obtain ⟨_, _, _, hr', hinv⟩ := h.read hc n
  rw [hr] at hr'
  simp only [Except.ok.injEq, Prod.mk.injEq] at hr'
  obtain ⟨rfl, rfl, rfl⟩ := hr'
  exact hinv

/-- FQ.READ, into any operand. -/
theorem State.Inv.fqRead (h : s.Inv) {n : Nat} {v : View} {bs : List Byte} {why : Option Reason}
    (hr : s.fqRead n v = .ok (t, bs, why)) : t.Inv := by
  obtain ⟨hc, q, hq, rfl⟩ := State.fqRead_ok hr
  obtain ⟨hinv, hl⟩ := h.fq.read_ok h.qCap_le hq
  exact (h.setFq hinv).writeView hc hl

/-- BS.LIMIT, on any operand. -/
theorem State.Inv.limit (h : s.Inv) {v : View} {count total thr mx mn : Nat}
    (hl : s.limit v count total thr mx mn = .ok t) : t.Inv := by
  obtain ⟨-, hc, px, hpx, rfl⟩ := State.limit_ok hl
  exact h.writeView hc (by rw [scalePixels_length, Memory.readCells_length hpx])

end Sys2Proof.Machine
end

section
/-! PROOFS. Every operation, every later transaction and every environment move keeps the state invariant. -/

namespace Sys2Proof.Machine

variable {s t : State}

theorem decPush_inv (h : s.Inv) (hr : s.ready .decPush = true) (ht : decPush s = .ok t) : t.Inv := by
  obtain ⟨d, ready, why, hp, rfl⟩ := decPush_ok ht
  have hidle := State.rxAt_idle_of_ready hr fun _ => rfl
  exact (h.setDec (h.dec.push h.accCap_pos hp) (by simp [hidle])).respond _ _

theorem hostBegin_inv (h : s.Inv) (ht : hostBegin s = .ok t) : t.Inv := by
  rcases hostBegin_ok ht with rfl | rfl
  · exact h.respond _ _
  · exact ((h.setStats (Stats.Inv.zero _)).setRun (fun _ => ⟨rfl, rfl⟩) (Nat.zero_le _)).respond _ _

theorem hostEnd_inv (h : s.Inv) (ht : hostEnd s = .ok t) : t.Inv := by
  rcases hostEnd_ok ht with rfl | rfl
  · exact h.respond _ _
  · exact (h.setRun (by simp) le_rfl).respond _ _

theorem hostRxByte_inv (h : s.Inv) (hr : s.ready .hostRxByte = true) (ht : hostRxByte s = .ok t) : t.Inv := by
  have hidle := State.rxAt_idle_of_ready hr fun _ => rfl
  rcases hostRxByte_ok ht with ⟨-, rfl⟩ | ⟨b, rest, d, ready, why, hi, hp, rfl⟩
  · exact h.stays
  · have hpush : ((s.takeInput rest).setDec d).Inv :=
      (h.takeInput hi).setDec (h.dec.push h.accCap_pos hp) (by simp [hidle])
    cases ready with
    | false => exact hpush.respond _ _
    | true => exact (hpush.rxGoTo fun _ => Dec.push_ready hp).respond _ _

theorem hostRenderTick_inv (h : s.Inv) (hr : s.ready .hostRenderTick = true) (ht : hostRenderTick s = .ok t) :
    t.Inv := by
  have hf := State.no_flush_of_ready hr fun _ => rfl
  obtain rfl := hostRenderTick_ok ht
  split
  · exact (h.tickGoTo_bare (by simp) (absurd hf)).respond _ _
  · exact h.respond _ _

theorem opBody_inv {i : Instr} (h : s.Inv) (hr : s.ready i = true) (ht : opBody i s = .ok t) : t.Inv := by
  cases i with
  | decPush => exact decPush_inv h hr ht
  | decFrame =>
    obtain ⟨bs, -, rfl⟩ := decFrame_ok ht
    exact h.respond _ _
  | fqWrite =>
    obtain ⟨q, why, hq, rfl⟩ := fqWrite_ok ht
    exact (h.setFq (h.fq.write hq)).respond _ _
  | fqRead =>
    obtain ⟨u, bs, why, hu, rfl⟩ := fqRead_ok ht
    exact (h.fqRead hu).respond _ _
  | fqSpace | fqHasData | fqUsage =>
    obtain rfl := Except.ok.inj ht
    exact h.respond _ _
  | pcParse =>
    rcases pcParse_ok ht with ⟨r, -, rfl⟩ | ⟨p, -, rfl⟩ <;> exact h.respond _ _
  | bsLimit =>
    obtain ⟨u, hu, rfl⟩ := bsLimit_ok ht
    exact (h.limit hu).respond _ _
  | hostBegin => exact hostBegin_inv h ht
  | hostEnd => exact hostEnd_inv h ht
  | hostRxByte => exact hostRxByte_inv h hr ht
  | hostRenderTick => exact hostRenderTick_inv h hr ht

theorem exec_inv {i : Instr} (h : s.Inv) (ht : exec i s = .next t) : t.Inv := by
  rcases exec_next ht with ⟨hr, hb⟩ | ⟨-, rfl⟩
  · exact opBody_inv h hr hb
  · exact h.stays

theorem rxProceed_inv (h : s.Inv) (ht : rxProceed s = .ok t) : t.Inv := by
  rcases rxProceed_ok ht with ⟨-, rfl⟩ | ⟨-, frame, -, rfl⟩ | ⟨frame, q, why, -, hq, rfl⟩ | ⟨why, -, rfl⟩
  · exact h.stays
  · exact (h.rxGoTo (by simp)).respond _ _
  · exact ((h.setFq (h.fq.write hq)).rxGoTo (by simp)).respond _ _
  · exact ((h.countFrame why).rxGoTo (by simp)).respond _ _

/-- FQ.READ into `host.rbuf`: the bytes that PC.PARSE gets next hold values. -/
theorem tickRead_inv (h : s.Inv) (hf : s.env.flushPending = none) {u : State} {bs : List Byte} {why : Option Reason}
    (hr : s.fqRead s.cfg.renderBufCap (rbufView s.cfg) = .ok (u, bs, why)) : (u.tickGoTo (.parse bs.length)).Inv := by
  have hu : u.Inv := h.fqRead hr
  obtain ⟨-, q, hq, rfl⟩ := State.fqRead_ok hr
  obtain ⟨-, hl⟩ := h.fq.read_ok h.qCap_le hq
  refine hu.tickGoTo ?_ (by simp) (by simp [hf])
  intro n hn
  obtain rfl := TickPosition.parse.inj hn
  exact ⟨by simpa using hl, bs, Memory.readCells_writeSpan _ _ _ h.rbuf_ok.1⟩

/-- A parsed packet that a channel takes is routed (R136, R137). -/
theorem State.Inv.routed_of_parse (h : s.Inv) {n : Nat} {p : Packet} {ch : Channel} (ha : s.host.tickAt = .parse n)
    (hp : s.parse (rbufView s.cfg) n = .ok (.ok p)) (hl : lookupChannel s.cfg.channels p.dest = some ch)
    (hs : p.offset / 3 < ch.pixels) : s.Routed p ch := by
  obtain ⟨hn, hheld⟩ := h.loops.tick_parse n ha
  obtain ⟨-, -, hle, -, hview, hpix, -, -⟩ := State.parse_packet hp
  exact
    { view := by simpa [rbufView] using hview
      fits := by omega
      pixels := hpix
      held := Memory.readCells_held_sub hheld (Nat.zero_le _) (by omega)
      channel := (lookupChannel_some hl).1
      start := hs }

theorem tickRoute_inv (h : s.Inv) (hf : s.env.flushPending = none) {n : Nat} {p : Packet}
    (ha : s.host.tickAt = .parse n) (hp : s.parse (rbufView s.cfg) n = .ok (.ok p)) :
    (s.tickGoTo (routePacket s.cfg.channels p)).Inv := by
  rcases routePacket_cases (chs := s.cfg.channels) p with ⟨-, hr⟩ | ⟨ch, hl, hr⟩
  · rw [hr]
    exact h.tickGoTo_bare (by simp) (absurd hf)
  · rw [hr]
    split
    · exact h.tickGoTo_bare (by simp) (absurd hf)
    · next hlt =>
      refine h.tickGoTo (by simp) ?_ (absurd hf)
      rintro _ _ (heq | heq)
      · obtain ⟨rfl, rfl⟩ := TickPosition.scale.inj heq
        exact h.routed_of_parse ha hp hl (by omega)
      · exact nomatch heq

/-- BS.LIMIT of the payload leaves the packet routed: it takes no cell's value away. -/
theorem tickScale_inv (h : s.Inv) (hf : s.env.flushPending = none) {p : Packet} {ch : Channel} {u : State}
    {count total thr mx mn : Nat} (ha : s.host.tickAt = .scale p ch)
    (hl : s.limit p.payload count total thr mx mn = .ok u) : (u.tickGoTo (.pixels p ch)).Inv := by
  have hu : u.Inv := h.limit hl
  obtain ⟨-, -, px, -, rfl⟩ := State.limit_ok hl
  refine hu.tickGoTo (by simp) ?_ (by simp [hf])
  rintro _ _ (heq | heq)
  · exact nomatch heq
  · obtain ⟨rfl, rfl⟩ := TickPosition.pixels.inj heq
    exact hu.loops.tick_route p ch (.inl (by simpa using ha))

theorem tickPixels_inv (h : s.Inv) (calls : List LedCall) (push : Bool) (out : Nat) :
    (((s.ledCalls calls).flushIf push out).tickGoTo .count).Inv := by
  rw [State.flushIf_tickGoTo]
  exact ((h.ledCalls calls).tickGoTo_bare (by simp) fun _ => rfl).flushIf push out rfl

theorem tickProceed_inv (h : s.Inv) (hm : s.mayProceed .render = true) (ht : tickProceed s = .ok t) : t.Inv := by
  have hf := State.no_flush_of_mayProceed hm
  rcases tickProceed_ok ht with ⟨-, rfl⟩ | ⟨-, u, bs, why, hu, rfl⟩ |
    ⟨n, ha, ⟨r, -, rfl⟩ | ⟨p, hp, rfl⟩⟩ | ⟨p, ch, u, ha, hu, rfl⟩ | ⟨p, ch, px, -, -, rfl⟩ | ⟨-, rfl⟩ | ⟨r, -, rfl⟩
  · exact h.stays
  · exact (tickRead_inv h hf hu).respond _ _
  · exact (h.tickGoTo_bare (by simp) (absurd hf)).respond _ _
  · exact (tickRoute_inv h hf ha hp).respond _ _
  · exact (tickScale_inv h hf ha hu).respond _ _
  · exact (tickPixels_inv h _ _ _).respond _ _
  · exact (h.countProcessed.tickGoTo_bare (by simp) (absurd hf)).respond _ _
  · exact (h.countDroppedRender.tickGoTo_bare (by simp) (absurd hf)).respond _ _

theorem proceed_inv {a : Agent} (h : s.Inv) (ht : proceed a s = .next t) : t.Inv := by
  rcases proceed_next ht with rfl | ⟨-, -, hp⟩ | ⟨-, hm, hp⟩
  · exact h.stays
  · exact rxProceed_inv h hp
  · exact tickProceed_inv h hm hp

theorem execSupply_inv (h : s.Inv) (bytes : List Byte) : (execSupply bytes s).Inv := by
  refine h.setEnv ?_ h.loops.flush
  have := h.lifecycle.drain_le
  simp only [List.length_append]
  omega

theorem execFlushReturn_inv (h : s.Inv) : (execFlushReturn s).Inv := by
  unfold execFlushReturn
  split
  · exact h.stays
  · exact (h.setEnv (e := { s.env with flushPending := none }) h.lifecycle.drain_le (absurd rfl)).respond _ _

theorem execPlaceDst_inv (h : s.Inv) (cells : List (Option Byte)) : (execPlaceDst cells s).Inv := by
  unfold execPlaceDst
  split
  · exact h.setCaller (Buf.ofCells_ok cells) h.pix_ok
  · exact h.stays

theorem execPlacePix_inv (h : s.Inv) (cells : List (Option Byte)) : (execPlacePix cells s).Inv := by
  unfold execPlacePix
  split
  · exact h.setCaller h.dst_ok (Buf.ofCells_ok cells)
  · exact h.stays

theorem execReadCounter_inv (h : s.Inv) (a : Agent) (c : Counter) : (execReadCounter a c s).Inv := by
  unfold execReadCounter
  split
  · split
    · exact h.respond _ _
    · exact (h.setDraws _).respond _ _
  · exact h.stays

theorem step_inv (h : s.Inv) (ht : step s = .next t) : t.Inv := by
  obtain ⟨-, ⟨-, rfl⟩ | ⟨m, rest, -, hm⟩⟩ := step_next ht
  · exact h
  · have hs := h.setSched rest
    rcases hm with ⟨w, p, i, -, -, hx⟩ | ⟨a, -, hx⟩ | ⟨bs, -, rfl⟩ | ⟨-, rfl⟩ | ⟨cs, -, rfl⟩ | ⟨cs, -, rfl⟩ |
      ⟨a, c, -, rfl⟩
    · exact exec_inv (hs.setPorts p) hx
    · exact proceed_inv hs hx
    · exact execSupply_inv hs bs
    · exact execFlushReturn_inv hs
    · exact execPlaceDst_inv hs cs
    · exact execPlacePix_inv hs cs
    · exact execReadCounter_inv hs a c

end Sys2Proof.Machine

section

open Sys2Proof Sys2Proof.Machine

/-- Settles O9: whichever of its moves a step is, each update that makes it up keeps the invariant. -/
theorem stepKeepsTheStateInvariant : Obligations.StepKeepsTheStateInvariant := fun _ _ => step_inv

end
end

section
/-! PROOFS. The state invariants at reset (R166), the configuration and the log of LED driver calls along a step (R33, R38), the
moves that are no request, and the operations that store nothing. -/

namespace Sys2Proof.Machine

variable {s t : State} {c : Config}

theorem Dec.Inv.reset : (State.resetWith c).dec.Inv c where
  acc_ok := Memory.Ok.nil _
  out_ok := Memory.Ok.nil _
  acc_fits := Nat.zero_le _
  acc_held := ⟨[], rfl, by simp⟩
  out_fits := Nat.zero_le _
  window := rfl
  out_held := ⟨[], rfl⟩

theorem Config.qCap_pos (hc : c.valid = true) : 0 < c.qCap := by
  obtain ⟨-, -, -, -, hq, -⟩ := (Config.valid_iff c).mp hc
  omega

theorem Fq.Inv.reset (hc : 0 < c.qCap) : (State.resetWith c).fq.Inv c where
  ring_ok := Memory.Ok.nil _
  lock_eq := rfl
  holds := ⟨[], Fq.Holds.empty hc rfl rfl⟩

theorem State.Inv.reset (hc : c.valid = true) : (State.resetWith c).Inv where
  cfg_valid := hc
  dec := Dec.Inv.reset
  fq := Fq.Inv.reset (Config.qCap_pos hc)
  rbuf_ok := Memory.Ok.nil _
  dst_ok := Memory.Ok.nil _
  pix_ok := Memory.Ok.nil _
  lifecycle := ⟨nofun, le_rfl⟩
  stats := Stats.Inv.zero c
  loops := ⟨nofun, nofun, fun _ _ h => h.elim nofun nofun, fun h => absurd rfl h⟩

theorem State.LedInv.reset : (State.resetWith c).LedInv where
  allowed := nofun
  pending := nofun
  routed _ _ h := h.elim nofun nofun

theorem State.CleanEntry.reset : (State.resetWith c).CleanEntry where
  dec_idle := ⟨rfl, rfl⟩
  fq_empty := ⟨rfl, rfl⟩
  counters := rfl
  stopped := rfl
  led_empty := rfl
  not_inside := ⟨rfl, rfl, rfl, rfl⟩

theorem Config.suggested_valid : Config.suggested.valid = true := by decide

/-- From `s` to `t` the configuration stays (R33, R36) and the log of LED driver calls only grows (R38). -/
def State.GrowsTo (s t : State) : Prop := t.cfg = s.cfg ∧ ∃ calls, t.env.ledLog = s.env.ledLog ++ calls

theorem State.GrowsTo.of_same (hc : t.cfg = s.cfg) (hl : t.env.ledLog = s.env.ledLog) : s.GrowsTo t :=
  ⟨hc, [], by rw [hl, List.append_nil]⟩

theorem State.GrowsTo.respond (h : s.GrowsTo t) (r : Response) (why : Option Reason) : s.GrowsTo (t.respond r why) := h

theorem State.GrowsTo.tickGoTo (h : s.GrowsTo t) (p : TickPosition) : s.GrowsTo (t.tickGoTo p) := h

theorem State.GrowsTo.stays (s : State) : s.GrowsTo s.stays := .of_same rfl rfl

theorem State.fqRead_growsTo {n : Nat} {v : View} {bs : List Byte} {why : Option Reason}
    (h : s.fqRead n v = .ok (t, bs, why)) : s.GrowsTo t := by
  obtain ⟨-, q, -, rfl⟩ := State.fqRead_ok h
  exact .of_same (by simp) (by simp)

theorem State.limit_growsTo {v : View} {count total thr mx mn : Nat} (h : s.limit v count total thr mx mn = .ok t) :
    s.GrowsTo t := by
  obtain ⟨-, -, px, -, rfl⟩ := State.limit_ok h
  exact .of_same (by simp) (by simp)

theorem State.ledCalls_growsTo (s : State) (calls : List LedCall) (push : Bool) (out : Nat) :
    s.GrowsTo ((s.ledCalls calls).flushIf push out) := by
  cases push with
  | false => exact ⟨rfl, calls, rfl⟩
  | true => exact ⟨rfl, calls ++ [LedCall.flush out], List.append_assoc _ _ _⟩

theorem opBody_growsTo {i : Instr} (h : opBody i s = .ok t) : s.GrowsTo t := by
  cases i with
  | decPush =>
    obtain ⟨d, ready, why, -, rfl⟩ := decPush_ok h
    exact .of_same rfl rfl
  | decFrame =>
    obtain ⟨bs, -, rfl⟩ := decFrame_ok h
    exact .of_same rfl rfl
  | fqWrite =>
    obtain ⟨q, why, -, rfl⟩ := fqWrite_ok h
    exact .of_same rfl rfl
  | fqRead =>
    obtain ⟨u, bs, why, hu, rfl⟩ := fqRead_ok h
    exact (State.fqRead_growsTo hu).respond _ _
  | fqSpace | fqHasData | fqUsage =>
    obtain rfl := Except.ok.inj h
    exact .of_same rfl rfl
  | pcParse => rcases pcParse_ok h with ⟨r, -, rfl⟩ | ⟨p, -, rfl⟩ <;> exact .of_same rfl rfl
  | bsLimit =>
    obtain ⟨u, hu, rfl⟩ := bsLimit_ok h
    exact (State.limit_growsTo hu).respond _ _
  | hostBegin => rcases hostBegin_ok h with rfl | rfl <;> exact .of_same rfl rfl
  | hostEnd => rcases hostEnd_ok h with rfl | rfl <;> exact .of_same rfl rfl
  | hostRxByte =>
    rcases hostRxByte_ok h with ⟨-, rfl⟩ | ⟨b, rest, d, ready, why, -, -, rfl⟩
    · exact .stays s
    · cases ready <;> exact .of_same rfl rfl
  | hostRenderTick =>
    obtain rfl := hostRenderTick_ok h
    split <;> exact .of_same rfl rfl

theorem exec_growsTo {i : Instr} (h : exec i s = .next t) : s.GrowsTo t := by
  rcases exec_next h with ⟨-, hb⟩ | ⟨-, rfl⟩
  · exact opBody_growsTo hb
  · exact .stays s

theorem rxProceed_growsTo (h : rxProceed s = .ok t) : s.GrowsTo t := by
  rcases rxProceed_ok h with ⟨-, rfl⟩ | ⟨-, frame, -, rfl⟩ | ⟨frame, q, why, -, -, rfl⟩ | ⟨why, -, rfl⟩
  · exact .stays s
  · exact .of_same rfl rfl
  · exact .of_same rfl rfl
  · cases why <;> exact .of_same rfl rfl

theorem tickProceed_growsTo (h : tickProceed s = .ok t) : s.GrowsTo t := by
  rcases tickProceed_ok h with ⟨-, rfl⟩ | ⟨-, u, bs, why, hu, rfl⟩ |
    ⟨n, -, ⟨r, -, rfl⟩ | ⟨p, -, rfl⟩⟩ | ⟨p, ch, u, -, hu, rfl⟩ | ⟨p, ch, px, -, -, rfl⟩ | ⟨-, rfl⟩ | ⟨r, -, rfl⟩
  · exact .stays s
  · exact ((State.fqRead_growsTo hu).tickGoTo _).respond _ _
  · exact .of_same rfl rfl
  · exact .of_same rfl rfl
  · exact ((State.limit_growsTo hu).tickGoTo _).respond _ _
  · exact ((State.ledCalls_growsTo s _ _ _).tickGoTo _).respond _ _
  · exact .of_same rfl rfl
  · exact .of_same rfl rfl

theorem proceed_growsTo {a : Agent} (h : proceed a s = .next t) : s.GrowsTo t := by
  rcases proceed_next h with rfl | ⟨-, -, hp⟩ | ⟨-, -, hp⟩
  · exact .stays s
  · exact rxProceed_growsTo hp
  · exact tickProceed_growsTo hp

theorem execFlushReturn_growsTo (s : State) : s.GrowsTo (execFlushReturn s) := by
  unfold execFlushReturn
  split <;> exact .of_same rfl rfl

theorem execPlaceDst_growsTo (cells : List (Option Byte)) (s : State) : s.GrowsTo (execPlaceDst cells s) := by
  unfold execPlaceDst
  split <;> exact .of_same rfl rfl

theorem execPlacePix_growsTo (cells : List (Option Byte)) (s : State) : s.GrowsTo (execPlacePix cells s) := by
  unfold execPlacePix
  split <;> exact .of_same rfl rfl

theorem execReadCounter_growsTo (a : Agent) (n : Counter) (s : State) : s.GrowsTo (execReadCounter a n s) := by
  unfold execReadCounter
  split
  · split <;> exact .of_same rfl rfl
  · exact .stays s

theorem step_growsTo (h : step s = .next t) : s.GrowsTo t := by
  obtain ⟨-, ⟨-, rfl⟩ | ⟨m, rest, -, hm⟩⟩ := step_next h
  · exact .of_same rfl rfl
  · rcases hm with ⟨w, p, i, -, -, hx⟩ | ⟨a, -, hx⟩ | ⟨bs, -, rfl⟩ | ⟨-, rfl⟩ | ⟨cs, -, rfl⟩ | ⟨cs, -, rfl⟩ |
      ⟨a, n, -, rfl⟩
    · exact (exec_growsTo hx : ((s.setSched rest).setPorts p).GrowsTo t)
    · exact (proceed_growsTo hx : (s.setSched rest).GrowsTo t)
    · exact .of_same rfl rfl
    · exact execFlushReturn_growsTo (s.setSched rest)
    · exact execPlaceDst_growsTo cs (s.setSched rest)
    · exact execPlacePix_growsTo cs (s.setSched rest)
    · exact execReadCounter_growsTo a n (s.setSched rest)

/-- A move that is no request is over once its effect is made. -/
theorem step_of_sched_cons {m : Move} {rest : List Move} {o : Host.Outcome State Fault Refusal}
    (hv : s.cfg.valid = true) (hs : s.sched = m :: rest) (hm : fetchMove m (s.setSched rest) = .over o) : step s = o := by
  simp only [step, fetch_of_sched_cons hv hs, hm]

theorem step_of_sched_nil (hv : s.cfg.valid = true) (hs : s.sched = []) : step s = .next s := by
  simp only [step, fetch, if_pos hv, hs]

theorem execPlaceDst_of_free (cells : List (Option Byte)) (h : s.agentFree .render = true) :
    execPlaceDst cells s = s.setCaller { s.caller with dst := Buf.ofCells cells } := if_pos h

theorem execPlaceDst_of_not_free (cells : List (Option Byte)) (h : s.agentFree .render = false) :
    execPlaceDst cells s = s.stays := if_neg (by simp [h])

theorem execPlacePix_of_free (cells : List (Option Byte)) (h : s.agentFree .render = true) :
    execPlacePix cells s = s.setCaller { s.caller with pix := Buf.ofCells cells } := if_pos h

theorem execPlacePix_of_not_free (cells : List (Option Byte)) (h : s.agentFree .render = false) :
    execPlacePix cells s = s.stays := if_neg (by simp [h])

theorem execFlushReturn_of_none (h : s.env.flushPending = none) : execFlushReturn s = s.stays := by
  simp only [execFlushReturn, h]

/-- The operations that store nothing answer, or wait. -/
theorem exec_readOnly {i : Instr} (hi : i ∈ [Instr.decFrame, .fqSpace, .fqHasData, .fqUsage, .pcParse])
    (h : exec i s = .next t) : ∃ r why, t = s.respond r why := by
  rcases exec_next h with ⟨-, hb⟩ | ⟨-, rfl⟩
  · simp only [List.mem_cons, List.not_mem_nil, or_false] at hi
    rcases hi with rfl | rfl | rfl | rfl | rfl
    · obtain ⟨bs, -, rfl⟩ := decFrame_ok hb
      exact ⟨_, _, rfl⟩
    · exact ⟨_, _, (Except.ok.inj hb).symm⟩
    · exact ⟨_, _, (Except.ok.inj hb).symm⟩
    · exact ⟨_, _, (Except.ok.inj hb).symm⟩
    · rcases pcParse_ok hb with ⟨r, -, rfl⟩ | ⟨p, -, rfl⟩ <;> exact ⟨_, _, rfl⟩
  · exact ⟨_, _, rfl⟩

end Sys2Proof.Machine

section

open Sys2Proof Sys2Proof.Machine

/-- Settles O11: whichever of its moves a step is, it leaves the log as it is or, at a tick's LED driver calls, appends to it. -/
theorem stepKeepsTheConfigurationAndAppendsToTheLedLog :
    Obligations.StepKeepsTheConfigurationAndAppendsToTheLedLog := fun _ _ => step_growsTo

/-- Settles O5: each move is fetched and made on the state with the move taken off the schedule. -/
theorem stepOfAMoveThatIsNoRequest : Obligations.StepOfAMoveThatIsNoRequest := by
  intro s hv
  refine ⟨fun bytes rest hs => step_of_sched_cons hv hs rfl, fun a rest hs => step_of_sched_cons hv hs rfl,
    fun cells rest hs => ⟨fun hf => ?_, fun hf => ?_⟩, fun cells rest hs => ⟨fun hf => ?_, fun hf => ?_⟩,
    fun rest hs hn => ?_, step_of_sched_nil hv⟩
  · refine ⟨Buf.ofCells cells, ?_, rfl, (Buf.ofCells_ok cells).1, Buf.read_ofCells cells⟩
    exact (step_of_sched_cons hv hs rfl).trans (congrArg _ (execPlaceDst_of_free cells hf))
  · exact (step_of_sched_cons hv hs rfl).trans (congrArg _ (execPlaceDst_of_not_free cells hf))
  · refine ⟨Buf.ofCells cells, ?_, rfl, (Buf.ofCells_ok cells).1, Buf.read_ofCells cells⟩
    exact (step_of_sched_cons hv hs rfl).trans (congrArg _ (execPlacePix_of_free cells hf))
  · exact (step_of_sched_cons hv hs rfl).trans (congrArg _ (execPlacePix_of_not_free cells hf))
  · exact (step_of_sched_cons hv hs rfl).trans (congrArg _ (execFlushReturn_of_none hn))

/-- Settles O8: the reset state is empty, idle and Stopped, so each clause is about nothing or about 0. -/
theorem resetMeetsTheInvariants : Obligations.ResetMeetsTheInvariants :=
  ⟨fun _ hc => ⟨.reset hc, .reset, .reset⟩, .reset Config.suggested_valid⟩

/-- Settles O38: each of the five operations only puts a response on its port, or waits. -/
theorem readOnlyOperationsFrame : Obligations.ReadOnlyOperationsFrame := by
  intro i s t hi h
  obtain ⟨r, why, rfl⟩ := exec_readOnly hi h
  rfl

end
end

section
/-! PROOFS. What belongs to one context stays as it is when the other moves (R34, R35, R54), one rule per update of the state, and
the counter reads (R55). -/

namespace Sys2Proof.Machine

variable {s t : State}

/-! RENDER's updates, and what belongs to RX. -/

theorem State.SameForRx.refl (s : State) : s.SameForRx s := ⟨rfl, rfl, rfl, rfl, rfl, rfl, rfl, rfl⟩

theorem State.SameForRx.respond (h : s.SameForRx t) (r : Response) (why : Option Reason) :
    s.SameForRx (t.respond r why) := { h with }

theorem State.SameForRx.stays (s : State) : s.SameForRx s.stays := (State.SameForRx.refl s).respond _ _

theorem State.SameForRx.tickGoTo (h : s.SameForRx t) (p : TickPosition) : s.SameForRx (t.tickGoTo p) := { h with }

theorem State.SameForRx.setFq (h : s.SameForRx t) (q : Fq) : s.SameForRx (t.setFq q) := { h with }

theorem State.SameForRx.countProcessed (h : s.SameForRx t) : s.SameForRx t.countProcessed := { h with }

theorem State.SameForRx.countDroppedRender (h : s.SameForRx t) : s.SameForRx t.countDroppedRender := { h with }

theorem State.SameForRx.ledCalls (h : s.SameForRx t) (calls : List LedCall) : s.SameForRx (t.ledCalls calls) := { h with }

theorem State.SameForRx.flushIf (h : s.SameForRx t) (push : Bool) (out : Nat) : s.SameForRx (t.flushIf push out) := by
  cases push with
  | false => exact h
  | true => exact { h with }

/-- None of RENDER's buffers is RX's (R37, R45). -/
theorem State.SameForRx.writeView (h : s.SameForRx t) (v : View) (bs : List Byte) : s.SameForRx (t.writeView v bs) where
  dec := (State.writeView_dec t v bs).trans h.dec
  input := (congrArg EnvState.input (State.writeView_env t v bs)).trans h.input
  rxDrain := (State.writeView_host_rxDrain t v bs).trans h.rxDrain
  rxAt := (State.writeView_host_rxAt t v bs).trans h.rxAt
  framesReceived := (congrArg Stats.framesReceived (State.writeView_stats t v bs)).trans h.framesReceived
  droppedRx := (congrArg Stats.droppedRx (State.writeView_stats t v bs)).trans h.droppedRx
  state := (State.writeView_host_state t v bs).trans h.state
  stop := (State.writeView_host_stop t v bs).trans h.stop

theorem State.fqRead_sameForRx {n : Nat} {v : View} {bs : List Byte} {why : Option Reason}
    (h : s.fqRead n v = .ok (t, bs, why)) : s.SameForRx t := by
  obtain ⟨-, q, -, rfl⟩ := State.fqRead_ok h
  exact ((State.SameForRx.refl s).setFq q).writeView v bs

theorem State.limit_sameForRx {v : View} {count total thr mx mn : Nat} (h : s.limit v count total thr mx mn = .ok t) :
    s.SameForRx t := by
  obtain ⟨-, -, px, -, rfl⟩ := State.limit_ok h
  exact (State.SameForRx.refl s).writeView v _

/-- The operations that RENDER's port admits. -/
theorem opBody_sameForRx {i : Instr} (ha : admits i .render = true) (h : opBody i s = .ok t) : s.SameForRx t := by
  have hs := State.SameForRx.refl s
  cases i with
  | decPush | decFrame | fqWrite | hostRxByte | hostBegin | hostEnd => exact absurd ha (by decide)
  | fqRead =>
    obtain ⟨u, bs, why, hu, rfl⟩ := fqRead_ok h
    exact (State.fqRead_sameForRx hu).respond _ _
  | fqSpace | fqHasData | fqUsage =>
    obtain rfl := Except.ok.inj h
    exact hs.respond _ _
  | pcParse => rcases pcParse_ok h with ⟨r, -, rfl⟩ | ⟨p, -, rfl⟩ <;> exact hs.respond _ _
  | bsLimit =>
    obtain ⟨u, hu, rfl⟩ := bsLimit_ok h
    exact (State.limit_sameForRx hu).respond _ _
  | hostRenderTick =>
    obtain rfl := hostRenderTick_ok h
    split
    · exact (hs.tickGoTo _).respond _ _
    · exact hs.respond _ _

theorem tickProceed_sameForRx (h : tickProceed s = .ok t) : s.SameForRx t := by
  have hs := State.SameForRx.refl s
  rcases tickProceed_ok h with ⟨-, rfl⟩ | ⟨-, u, bs, why, hu, rfl⟩ |
    ⟨n, -, ⟨r, -, rfl⟩ | ⟨p, -, rfl⟩⟩ | ⟨p, ch, u, -, hu, rfl⟩ | ⟨p, ch, px, -, -, rfl⟩ | ⟨-, rfl⟩ | ⟨r, -, rfl⟩
  · exact .stays s
  · exact ((State.fqRead_sameForRx hu).tickGoTo _).respond _ _
  · exact (hs.tickGoTo _).respond _ _
  · exact (hs.tickGoTo _).respond _ _
  · exact ((State.limit_sameForRx hu).tickGoTo _).respond _ _
  · exact (((hs.ledCalls _).flushIf _ _).tickGoTo _).respond _ _
  · exact (hs.countProcessed.tickGoTo _).respond _ _
  · exact (hs.countDroppedRender.tickGoTo _).respond _ _

/-! RX's updates, and what belongs to RENDER. -/

theorem State.SameForRender.refl (s : State) : s.SameForRender s := ⟨rfl, rfl, rfl, rfl, rfl, rfl, rfl, rfl, rfl⟩

theorem State.SameForRender.respond (h : s.SameForRender t) (r : Response) (why : Option Reason) :
    s.SameForRender (t.respond r why) := { h with }

theorem State.SameForRender.stays (s : State) : s.SameForRender s.stays := (State.SameForRender.refl s).respond _ _

theorem State.SameForRender.rxGoTo (h : s.SameForRender t) (p : RxPosition) : s.SameForRender (t.rxGoTo p) := { h with }

theorem State.SameForRender.setDec (h : s.SameForRender t) (d : Dec) : s.SameForRender (t.setDec d) := { h with }

theorem State.SameForRender.setFq (h : s.SameForRender t) (q : Fq) : s.SameForRender (t.setFq q) := { h with }

theorem State.SameForRender.countFrame (h : s.SameForRender t) (why : Option Reason) :
    s.SameForRender (t.countFrame why) := by
  cases why with
  | none => exact { h with }
  | some _ => exact { h with }

/-- The byte taken is RX's, and so is the drain it uses up (R132, R133). -/
theorem State.SameForRender.takeInput (s : State) (rest : List Byte) : s.SameForRender (s.takeInput rest) := by
  cases hs : s.host.state with
  | stopped =>
    rw [State.takeInput_stopped hs]
    exact ⟨rfl, rfl, rfl, rfl, rfl, rfl, rfl, rfl, rfl⟩
  | running =>
    rw [State.takeInput_running hs]
    exact ⟨rfl, rfl, rfl, rfl, rfl, rfl, rfl, rfl, rfl⟩

/-- The operations that RX's port admits. -/
theorem opBody_sameForRender {i : Instr} (ha : admits i .rx = true) (h : opBody i s = .ok t) : s.SameForRender t := by
  have hs := State.SameForRender.refl s
  cases i with
  | fqRead | pcParse | bsLimit | hostRenderTick | hostBegin | hostEnd => exact absurd ha (by decide)
  | decPush =>
    obtain ⟨d, ready, why, -, rfl⟩ := decPush_ok h
    exact (hs.setDec d).respond _ _
  | decFrame =>
    obtain ⟨bs, -, rfl⟩ := decFrame_ok h
    exact hs.respond _ _
  | fqWrite =>
    obtain ⟨q, why, -, rfl⟩ := fqWrite_ok h
    exact (hs.setFq q).respond _ _
  | fqSpace | fqHasData | fqUsage =>
    obtain rfl := Except.ok.inj h
    exact hs.respond _ _
  | hostRxByte =>
    rcases hostRxByte_ok h with ⟨-, rfl⟩ | ⟨b, rest, d, ready, why, -, -, rfl⟩
    · exact .stays s
    · have hpush := (State.SameForRender.takeInput s rest).setDec d
      cases ready with
      | false => exact hpush.respond _ _
      | true => exact (hpush.rxGoTo _).respond _ _

theorem rxProceed_sameForRender (h : rxProceed s = .ok t) : s.SameForRender t := by
  have hs := State.SameForRender.refl s
  rcases rxProceed_ok h with ⟨-, rfl⟩ | ⟨-, frame, -, rfl⟩ | ⟨frame, q, why, -, -, rfl⟩ | ⟨why, -, rfl⟩
  · exact .stays s
  · exact (hs.rxGoTo _).respond _ _
  · exact ((hs.setFq q).rxGoTo _).respond _ _
  · exact ((hs.countFrame why).rxGoTo _).respond _ _

/-! From the bodies to the steps. -/

theorem State.admits_of_ready {i : Instr} (h : s.ready i = true) : admits i s.ports.agent = true := by
  simp only [State.ready, Bool.and_eq_true] at h
  exact h.1

theorem exec_sameForRx {i : Instr} (h : exec i s = .next t) (ha : s.ports.agent = .render) : s.SameForRx t := by
  rcases exec_next h with ⟨hr, hb⟩ | ⟨-, rfl⟩
  · exact opBody_sameForRx (ha ▸ State.admits_of_ready hr) hb
  · exact .stays s

theorem exec_sameForRender {i : Instr} (h : exec i s = .next t) (ha : s.ports.agent = .rx) : s.SameForRender t := by
  rcases exec_next h with ⟨hr, hb⟩ | ⟨-, rfl⟩
  · exact opBody_sameForRender (ha ▸ State.admits_of_ready hr) hb
  · exact .stays s

theorem proceed_sameForRx (h : proceed .render s = .next t) : s.SameForRx t := by
  rcases proceed_next h with rfl | ⟨ha, -, -⟩ | ⟨-, -, hp⟩
  · exact .stays s
  · exact nomatch ha
  · exact tickProceed_sameForRx hp

theorem proceed_sameForRender (h : proceed .rx s = .next t) : s.SameForRender t := by
  rcases proceed_next h with rfl | ⟨-, -, hp⟩ | ⟨ha, -, -⟩
  · exact .stays s
  · exact rxProceed_sameForRender hp
  · exact nomatch ha

/-! Counter reads (R55) and the reported drops (R35). -/

theorem execReadCounter_of_writer {a : Agent} {c : Counter} (hf : s.agentFree a = true) (ha : a = c.writer) :
    execReadCounter a c s = s.respond (.counter (s.stats.get c)) none := by
  rw [execReadCounter, if_pos hf, if_pos ha]

theorem execReadCounter_of_other {a : Agent} {c : Counter} (hf : s.agentFree a = true) (ha : a ≠ c.writer) :
    execReadCounter a c s =
      (s.setDraws (s.draws + 1)).respond (.counter (Config.freeDraw s.draws % 2 ^ s.cfg.ctrWidth)) none := by
  rw [execReadCounter, if_pos hf, if_neg ha]

theorem execReadCounter_of_not_free {a : Agent} (c : Counter) (hf : s.agentFree a = false) :
    execReadCounter a c s = s.stays := by
  rw [execReadCounter, if_neg (by simp [hf])]

theorem State.reportedDropped_countDroppedRx (s : State) :
    s.countDroppedRx.reportedDropped = bump s.cfg s.reportedDropped := by
  simp only [State.reportedDropped, State.countDroppedRx_stats, State.countDroppedRx_cfg, bump, Nat.mod_add_mod,
    Nat.add_right_comm]

theorem State.reportedDropped_countDroppedRender (s : State) :
    s.countDroppedRender.reportedDropped = bump s.cfg s.reportedDropped := by
  simp only [State.reportedDropped, State.countDroppedRender_stats, State.countDroppedRender_cfg, bump, Nat.mod_add_mod,
    Nat.add_mod_mod, Nat.add_assoc]

end Sys2Proof.Machine

section

open Sys2Proof Sys2Proof.Machine

/-- Settles O12: no update that makes up a move of one agent writes a field that belongs to the other. -/
theorem contextsDoNotTouchEachOthersState : Obligations.ContextsDoNotTouchEachOthersState := fun _ _ =>
  ⟨fun _ h => ⟨exec_sameForRx h, exec_sameForRender h⟩, proceed_sameForRx, proceed_sameForRender⟩

/-- Settles O57: the read is made on the state with its move taken off the schedule, and a drop counted in either field is one
more in their sum, whose residue does not depend on where it wraps. -/
theorem counterReads : Obligations.CounterReads := by
  refine ⟨fun s a c rest hv hs => ⟨fun hf => ⟨fun ha => ?_, fun ha => ?_⟩, fun hf => ?_⟩,
    fun s => ⟨rfl, s.reportedDropped_countDroppedRx, s.reportedDropped_countDroppedRender⟩⟩
  · exact (step_of_sched_cons hv hs rfl).trans (congrArg _ (execReadCounter_of_writer hf ha))
  · refine ⟨Config.freeDraw s.draws % 2 ^ s.cfg.ctrWidth, Nat.mod_lt _ (Nat.two_pow_pos _), ?_⟩
    exact (step_of_sched_cons hv hs rfl).trans (congrArg _ (execReadCounter_of_other hf ha))
  · exact (step_of_sched_cons hv hs rfl).trans (congrArg _ (execReadCounter_of_not_free c hf))

end
end

section
/-! PROOFS. The stuffed form's length and its bytes (R68, R69): first a segment's chunks, then the segments of a sequence. -/

namespace Sys2Proof.Machine

/-- Fuel for every byte is fuel enough. -/
theorem chunksLoop_fuel (f g : Nat) (s : List Byte) (hf : s.length ≤ f) (hg : s.length ≤ g) :
    chunksLoop f s = chunksLoop g s := by
  induction f generalizing g s with
  | zero =>
    obtain rfl := List.length_eq_zero_iff.mp (Nat.le_zero.mp hf)
    cases g <;> rfl
  | succ f ih =>
    cases g with
    | zero =>
      obtain rfl := List.length_eq_zero_iff.mp (Nat.le_zero.mp hg)
      rfl
    | succ g =>
      have hdrop : (s.drop 254).length = s.length - 254 := List.length_drop
      rw [chunksLoop, chunksLoop, ih g (s.drop 254) (by omega) (by omega)]

/-- A segment of 254 bytes or more begins with a full chunk (R68). -/
theorem chunks_of_long {s : List Byte} (h : 254 ≤ s.length) :
    chunks s = 0xFF#8 :: s.take 254 ++ chunks (s.drop 254) := by
  obtain ⟨n, hn⟩ := Nat.exists_eq_add_of_le' (Nat.one_le_of_lt h)
  have hdrop : (s.drop 254).length = s.length - 254 := List.length_drop
  rw [chunks, hn, chunksLoop, if_pos h, chunks, chunksLoop_fuel n (s.drop 254).length _ (by omega) le_rfl]

/-- A shorter segment is one chunk (R68). -/
theorem chunks_of_short {s : List Byte} (h : s.length < 254) : chunks s = BitVec.ofNat 8 (s.length + 1) :: s := by
  rw [chunks]
  cases s with
  | nil => rfl
  | cons b s => rw [List.length_cons, chunksLoop, if_neg (Nat.not_le.mpr h), List.length_cons]

/-- The recursion of R68's chunks: a segment of one chunk, or a full chunk and the rest. -/
theorem chunks_induction {P : List Byte → Prop} (short : ∀ s, s.length < 254 → P s)
    (long : ∀ s, 254 ≤ s.length → P (s.drop 254) → P s) (s : List Byte) : P s :=
  if h : s.length < 254 then short s h
  else long s (Nat.not_lt.mp h) (chunks_induction short long (s.drop 254))
termination_by s.length
decreasing_by
  rw [List.length_drop]
  omega

theorem chunks_length (s : List Byte) : (chunks s).length = s.length + 1 + s.length / 254 := by
  induction s using chunks_induction with
  | short s h =>
    rw [chunks_of_short h, List.length_cons]
    omega
  | long s h ih =>
    rw [chunks_of_long h, List.length_append, List.length_cons, List.length_take, ih, List.length_drop]
    omega

theorem zero_notMem_chunks {s : List Byte} (hs : 0x00#8 ∉ s) : 0x00#8 ∉ chunks s := by
  induction s using chunks_induction with
  | short s h =>
    have hcode : 0x00#8 ≠ BitVec.ofNat 8 (s.length + 1) := by bv_omega
    rw [chunks_of_short h]
    exact List.not_mem_cons_of_ne_of_not_mem hcode hs
  | long s h ih =>
    rw [chunks_of_long h, List.mem_append, List.mem_cons]
    rintro ((hcode | htake) | hrest)
    · exact absurd hcode (by decide)
    · exact hs (List.mem_of_mem_take htake)
    · exact ih (fun hm => hs (List.mem_of_mem_drop hm)) hrest

@[simp] theorem splitZeros_zero (bs : List Byte) : splitZeros (0x00#8 :: bs) = [] :: splitZeros bs := rfl

theorem splitZeros_ne_nil (d : List Byte) : splitZeros d ≠ [] := by
  cases d with
  | nil => exact List.cons_ne_nil _ _
  | cons b bs =>
    rw [splitZeros]
    split
    · exact List.cons_ne_nil _ _
    · split <;> exact List.cons_ne_nil _ _

/-- A byte other than zero goes to the front of the first segment. -/
theorem splitZeros_cons {b : Byte} (hb : b ≠ 0x00#8) (bs : List Byte) :
    ∃ s ss, splitZeros bs = s :: ss ∧ splitZeros (b :: bs) = (b :: s) :: ss := by
  obtain ⟨s, ss, hs⟩ := List.exists_cons_of_ne_nil (splitZeros_ne_nil bs)
  exact ⟨s, ss, hs, by rw [splitZeros, if_neg hb, hs]⟩

/-- No byte is lost but the zeros, one between each two segments (R68). -/
theorem splitZeros_sum_length (d : List Byte) : ((splitZeros d).map fun seg => seg.length + 1).sum = d.length + 1 := by
  induction d with
  | nil => rfl
  | cons b bs ih =>
    by_cases hb : b = 0x00#8
    · rw [hb, splitZeros_zero, List.map_cons, List.sum_cons, ih, List.length_cons, List.length_nil]
      omega
    · obtain ⟨s, ss, hs, hbs⟩ := splitZeros_cons hb bs
      rw [hs] at ih
      rw [hbs]
      simp only [List.map_cons, List.sum_cons, List.length_cons] at ih ⊢
      omega

theorem splitZeros_sum_length_le (d : List Byte) : ((splitZeros d).map List.length).sum ≤ d.length := by
  have h := splitZeros_sum_length d
  obtain ⟨s, ss, hs⟩ := List.exists_cons_of_ne_nil (splitZeros_ne_nil d)
  simp only [hs, List.map_cons, List.sum_cons, List.sum_map_add] at h ⊢
  omega

theorem zero_notMem_of_mem_splitZeros (d : List Byte) : ∀ s ∈ splitZeros d, 0x00#8 ∉ s := by
  induction d with
  | nil => simp [splitZeros]
  | cons b bs ih =>
    by_cases hb : b = 0x00#8
    · simpa [hb] using ih
    · obtain ⟨s, ss, hs, hbs⟩ := splitZeros_cons hb bs
      rw [hs, List.forall_mem_cons] at ih
      rw [hbs, List.forall_mem_cons]
      exact ⟨by simp [Ne.symm hb, ih.1], ih.2⟩

/-- The chunks of each segment, one code byte a full chunk and one for the last (R69). -/
theorem stuff_length (d : List Byte) :
    (stuff d).length = d.length + 1 + ((splitZeros d).map fun seg => seg.length / 254).sum := by
  simp only [stuff, List.length_flatMap, chunks_length, List.sum_map_add (f := fun seg : List Byte => seg.length + 1),
    splitZeros_sum_length]

/-- The segments' full chunks are at most those of one segment as long as the sequence. -/
theorem splitZeros_sum_chunks_le (d : List Byte) : ((splitZeros d).map fun seg => seg.length / 254).sum ≤ d.length / 254 := by
  rw [Nat.le_div_iff_mul_le (by decide), ← List.sum_map_mul_right]
  calc ((splitZeros d).map fun seg => seg.length / 254 * 254).sum
      ≤ ((splitZeros d).map List.length).sum := List.sum_le_sum fun seg _ => Nat.div_mul_le_self seg.length 254
    _ ≤ d.length := splitZeros_sum_length_le d

theorem zero_notMem_stuff (d : List Byte) : 0x00#8 ∉ stuff d := by
  intro h
  obtain ⟨seg, hseg, hz⟩ := List.mem_flatMap.mp h
  exact zero_notMem_chunks (zero_notMem_of_mem_splitZeros d seg hseg) hz

end Sys2Proof.Machine

section

open Sys2Proof Sys2Proof.Machine

/-- Settles O24: the lengths and the bytes of the segments' chunks, added up over the segments. -/
theorem stuffedLength : Obligations.StuffedLength :=
  ⟨fun d => ⟨stuff_length d, (stuff_length d).trans_le (Nat.add_le_add_left (splitZeros_sum_chunks_le d) _),
    zero_notMem_stuff d⟩, rfl⟩

end
end

section
/-! PROOFS. PC.PARSE of a buffer that passes every check, check by check in R117's order (R79, R110, R116). -/

namespace Sys2Proof.Machine

variable {s : State} {v : View} {n : Nat}

theorem State.viewByte_of_readCells {bs : List Byte} {k : Nat} {b : Byte}
    (h : Memory.readCells (s.buf v.buf).cells v.base n = some bs) (hb : bs[k]? = some b) : s.viewByte v k = .ok b := by
  obtain ⟨hk, -⟩ := List.getElem?_eq_some_iff.mp hb
  obtain ⟨b', hv, hb'⟩ := State.viewByte_of_held h (k := k) (Memory.readCells_length h ▸ hk)
  rwa [Option.some.inj (hb.symm.trans hb')]

/-- The Packet's fields, byte by byte (R79). -/
theorem State.packetOf_of_viewBytes {flags dtype sq dest o3 o2 o1 o0 : Byte} {plen : Nat} (h1 : s.viewByte v 1 = .ok sq)
    (h3 : s.viewByte v 3 = .ok dest) (h4 : s.viewByte v 4 = .ok o3) (h5 : s.viewByte v 5 = .ok o2)
    (h6 : s.viewByte v 6 = .ok o1) (h7 : s.viewByte v 7 = .ok o0) :
    s.packetOf v flags dtype plen =
      .ok { flags := flags, version := flagsVersion flags, push := flagsPush flags, sequence := sequenceOf sq,
            dataType := dtype, dest := dest, offset := be32 o3 o2 o1 o0, payloadLen := plen,
            payload := { buf := v.buf, base := v.base + hdrSize, size := plen }, pixelCount := plen / 3 } := by
  simp only [State.packetOf, h1, h3, h4, h5, h6, h7]

/-- The header's first three checks passed: the length bytes come next (R111 to R113). -/
theorem State.parseHeader_of_checks {flags dtype : Byte} (hn : hdrSize ≤ n) (hf : s.viewByte v 0 = .ok flags)
    (hv : flagsVersion flags = versionMarker) (hd : s.viewByte v 2 = .ok dtype) (ht : dataTypeOk dtype = true) :
    s.parseHeader v n = s.parseLengths v n flags dtype := by
  simp only [State.parseHeader, if_neg (Nat.not_lt.mpr hn), hf, if_neg (not_not.mpr hv), hd, if_pos ht]

/-- The last two checks passed: the answer is the Packet (R114, R115). -/
theorem State.parseLengths_of_checks {flags dtype h l : Byte} {p : Packet} (hh : s.viewByte v 8 = .ok h)
    (hl : s.viewByte v 9 = .ok l) (hp : payloadLenOk (be16 h l) = true) (hn : hdrSize + be16 h l ≤ n)
    (hk : s.packetOf v flags dtype (be16 h l) = .ok p) : s.parseLengths v n flags dtype = .ok (.ok p) := by
  simp only [State.parseLengths, hh, hl, if_pos hp, if_neg (Nat.not_lt.mpr hn), hk]

theorem State.parse_of_checkView (hc : s.checkView v n = .ok ()) : s.parse v n = s.parseHeader v n := by
  simp only [State.parse, hc]

theorem State.checkView_of_le (h : n ≤ s.viewCells v) : s.checkView v n = .ok () := if_pos h

/-- PC.PARSE of a buffer that parses answers the Packet and writes nothing. -/
theorem exec_pcParse_of_packet {p : Packet} (hr : s.ready .pcParse = true)
    (hp : s.parse s.ports.pcBuf s.ports.pcLength = .ok (.ok p)) :
    exec .pcParse s = .next (s.respond (.packet p) none) := by
  simp only [exec_of_ready hr, opBody, pcParse, hp, outcomeOf_ok]

end Sys2Proof.Machine

section

open Sys2Proof Sys2Proof.Machine

/-- Settles O35: the ten header bytes pass each check in turn, and the Packet is built from the bytes they name. -/
theorem pcParseGivesThePacket : Obligations.PcParseGivesThePacket := by
  intro s b0 b1 b2 b3 b4 b5 b6 b7 b8 b9 hr hc hb hversion htype hlo hhi hlen
  have hbyte {k : Nat} {b : Byte} (hk : [b0, b1, b2, b3, b4, b5, b6, b7, b8, b9][k]? = some b) :
      s.viewByte s.ports.pcBuf k = .ok b := State.viewByte_of_readCells hb hk
  have hhdr : s.parseHeader s.ports.pcBuf s.ports.pcLength = s.parseLengths s.ports.pcBuf s.ports.pcLength b0 b2 :=
    State.parseHeader_of_checks (le_of_add_le_left hlen) (hbyte rfl) (flagsVersion_eq_marker.mpr hversion) (hbyte rfl)
      (dataTypeOk_iff.mpr htype)
  have hpacket := State.packetOf_of_viewBytes (flags := b0) (dtype := b2) (plen := be16 b8 b9) (hbyte (b := b1) rfl)
    (hbyte (b := b3) rfl) (hbyte (b := b4) rfl) (hbyte (b := b5) rfl) (hbyte (b := b6) rfl) (hbyte (b := b7) rfl)
  have hparse := (State.parse_of_checkView (State.checkView_of_le hc)).trans <| hhdr.trans <|
    State.parseLengths_of_checks (hbyte rfl) (hbyte rfl) (payloadLenOk_iff.mpr ⟨hlo, hhi⟩) hlen hpacket
  exact ⟨_, exec_pcParse_of_packet hr hparse, rfl, flagsVersion_eq_marker.mpr hversion, flagsPush_eq b0,
    sequenceOf_toNat b1, rfl, rfl, rfl, rfl, rfl, rfl⟩

end
end

section
/-! PROOFS. The command words: what each spells, what none spells, and what the fetch and the ports refuse (R81, R82). -/

namespace Sys2Proof

theorem decodeWord_encode (i : Instr) : decodeWord (encode i) = .ok i := by
  cases i <;> rfl

/-- A word is its two fields side by side (R81). -/
theorem encode_eq_of_fields {w : CommandWord} {i : Instr} (hu : commandUnit w = i.unit.toNat)
    (ho : commandOp w = i.op.toNat) : encode i = w := by
  have hu : i.unit = w.extractLsb' 4 4 := BitVec.eq_of_toNat_eq hu.symm
  have ho : i.op = w.extractLsb' 0 4 := BitVec.eq_of_toNat_eq ho.symm
  rw [encode, hu, ho, BitVec.extractLsb'_append_extractLsb'_eq_extractLsb' (by rfl)]
  exact BitVec.extractLsb'_eq_self

theorem encode_of_decodeWord {w : CommandWord} {i : Instr} (h : decodeWord w = .ok i) : encode i = w := by
  unfold decodeWord at h
  split at h <;> cases h <;> exact encode_eq_of_fields ‹_› ‹_›

theorem decodeWord_eq_ok {w : CommandWord} {i : Instr} : decodeWord w = .ok i ↔ encode i = w :=
  ⟨encode_of_decodeWord, fun h => h ▸ decodeWord_encode i⟩

/-- The operations in the order of R81's table. -/
def Instr.all : List Instr :=
  [.decPush, .decFrame, .fqWrite, .fqRead, .fqSpace, .fqHasData, .fqUsage, .pcParse, .bsLimit, .hostBegin, .hostEnd,
    .hostRxByte, .hostRenderTick]

@[simp] theorem Instr.mem_all (i : Instr) : i ∈ Instr.all := by
  cases i <;> decide

end Sys2Proof

namespace Sys2Proof.Machine

/-- A request whose word spells no operation is refused (R82). -/
theorem fetchMove_request_of_undefined {w : CommandWord} (hw : ∀ i, decodeWord w ≠ .ok i) (p : Ports) (s : State) :
    fetchMove (.request w p) s = .over (.refused (.undefinedOperation w)) := by
  cases hd : decodeWord w with
  | ok i => exact absurd hd (hw i)
  | error e => simp only [fetchMove, hd]

theorem admits_rx_only {i : Instr} (hi : i ∈ [Instr.decPush, .decFrame, .fqWrite]) (a : Agent) :
    admits i a = (a == .rx) := by
  simp only [List.mem_cons, List.not_mem_nil, or_false] at hi
  rcases hi with rfl | rfl | rfl <;> rfl

theorem admits_render_only {i : Instr} (hi : i ∈ [Instr.fqRead, .pcParse, .bsLimit]) (a : Agent) :
    admits i a = (a == .render) := by
  simp only [List.mem_cons, List.not_mem_nil, or_false] at hi
  rcases hi with rfl | rfl | rfl <;> rfl

end Sys2Proof.Machine

section

open Sys2Proof Sys2Proof.Machine

/-- Settles O1: R81's table is every operation beside its encoding, and a word spells the operation whose encoding it is. -/
theorem decodeWordIsTheCommandTable : Obligations.DecodeWordIsTheCommandTable := by
  intro w i
  change _ ↔ (w, i) ∈ Instr.all.map fun j => (encode j, j)
  simp [decodeWord_eq_ok]

/-- Settles O2: a word decodes to the operation whose two numbers are its two fields. -/
theorem encodeThenDecodeGivesTheOperation : Obligations.EncodeThenDecodeGivesTheOperation :=
  ⟨decodeWord_encode, fun _ _ => encode_of_decodeWord⟩

/-- Settles O3: the fetch refuses the word, and the gate of `exec` the agent. -/
theorem undefinedWordsAndWrongAgentsAreRefused : Obligations.UndefinedWordsAndWrongAgentsAreRefused := by
  refine ⟨fun s w p rest hv hs hw => step_of_sched_cons hv hs (fetchMove_request_of_undefined hw p _),
    fun s i hi ha => exec_of_not_admitted ?_, fun s i hi ha => exec_of_not_admitted ?_⟩
  · rw [admits_rx_only hi, beq_eq_false_iff_ne]
    exact ha
  · rw [admits_render_only hi, beq_eq_false_iff_ne]
    exact ha

end
end

section
/-! PROOFS. Unstuff one run at a time (R86, R90 to R93), the bytes it gives against those it takes (R96), and that it undoes Stuff
(R68, R97). -/

namespace Sys2Proof.Machine

variable {pol : TruncPolicy} {cap : Nat}

theorem implicitZero_of_not {code : Byte} {inp : List Byte} (h : code = 0xFF#8 ∨ inp = []) (o : List Byte) :
    implicitZero cap code inp o = .ok o := if_neg (by tauto)

theorem implicitZero_of_more {code : Byte} {inp : List Byte} (h : ¬ (code = 0xFF#8 ∨ inp = [])) (o : List Byte) :
    implicitZero cap code inp o = if o.length = cap then .error .decOverflow else .ok (o ++ [0x00#8]) :=
  if_pos (not_or.mp h)

/-- Unstuff of `inp` with the bytes `o` already given (R86): its loop with fuel for every byte. -/
def unstuffAfter (pol : TruncPolicy) (cap : Nat) (o inp : List Byte) : Except Reason (List Byte) :=
  unstuffLoop pol cap inp.length inp o

theorem unstuff_eq_unstuffAfter (inp : List Byte) : unstuff pol cap inp = unstuffAfter pol cap [] inp := rfl

@[simp] theorem unstuffAfter_nil (o : List Byte) : unstuffAfter pol cap o [] = .ok o := rfl

/-- One run of Unstuff (R86): how it ends, fails, or goes on with the bytes behind it. -/
theorem unstuffAfter_cons {o : List Byte} (ho : o.length ≤ cap) (code : Byte) (rest : List Byte) :
    unstuffAfter pol cap o (code :: rest) =
      if code = 0x00#8 then .ok o
      else if cap < o.length + min (code.toNat - 1) rest.length then .error .decOverflow
      else if rest.length < code.toNat - 1 then
        if pol = .fail then .error .decTruncated else .ok (o ++ rest)
      else if code = 0xFF#8 ∨ rest.length = code.toNat - 1 then
        unstuffAfter pol cap (o ++ rest.take (code.toNat - 1)) (rest.drop (code.toNat - 1))
      else if o.length + (code.toNat - 1) = cap then .error .decOverflow
      else unstuffAfter pol cap (o ++ rest.take (code.toNat - 1) ++ [0x00#8]) (rest.drop (code.toNat - 1)) := by
  have hfuel (n : Nat) (o' : List Byte) :
      unstuffLoop pol cap rest.length (rest.drop n) o' = unstuffAfter pol cap o' (rest.drop n) :=
    unstuffLoop_fuel (by simp) le_rfl
  rw [unstuffAfter, List.length_cons, unstuffLoop, copyRun_eq _ _ _ ho]
  generalize code.toNat - 1 = n
  by_cases hcode : code = 0x00#8
  · simp only [if_pos hcode]
  simp only [if_neg hcode]
  by_cases hover : cap < o.length + min n rest.length
  · simp only [if_pos hover]
  simp only [if_neg hover]
  by_cases hshort : rest.length < n
  · cases pol with
    | fail => simp only [if_pos hshort, if_true]
    | copyAvailable =>
      simp only [if_pos hshort, reduceCtorEq, if_false, implicitZero_of_not (.inr rfl)]
      exact unstuffLoop_fuel (inp := []) (Nat.zero_le _) le_rfl
  have hlen : (o ++ rest.take n).length = o.length + n := by
    rw [List.length_append, List.length_take_of_le (Nat.not_lt.mp hshort)]
  have hlast : rest.drop n = [] ↔ rest.length = n := by
    rw [List.drop_eq_nil_iff]
    omega
  simp only [if_neg hshort, ← hlast]
  by_cases hzero : code = 0xFF#8 ∨ rest.drop n = []
  · simp only [if_pos hzero, implicitZero_of_not hzero, hfuel]
  · simp only [if_neg hzero, implicitZero_of_more hzero, hlen]
    by_cases hfull : o.length + n = cap
    · simp only [if_pos hfull]
    · simp only [if_neg hfull, hfuel]

/-- What an answer of Unstuff owes to a bound: a frame of at most `n` bytes, or an overflow of a capacity below `n`. -/
def UnstuffBound (cap n : Nat) : Except Reason (List Byte) → Prop
  | .ok r => r.length ≤ n
  | .error e => e = .decOverflow → cap < n

theorem UnstuffBound.mono {n m : Nat} {r : Except Reason (List Byte)} (h : UnstuffBound cap n r) (hn : n ≤ m) :
    UnstuffBound cap m r := by
  cases r with
  | ok r => exact le_trans h hn
  | error e => exact fun he => (h he).trans_le hn

/-- Of the input's bytes each gives at most one byte, and the first none: it is a code byte, and the implicit zero of a run
stands for the code byte of the next (R96). -/
theorem unstuffAfter_bound : ∀ inp o : List Byte, o.length ≤ cap →
    UnstuffBound cap (o.length + (inp.length - 1)) (unstuffAfter pol cap o inp)
  | [], _, _ => Nat.le_refl _
  | code :: rest, o, ho => by
    rw [unstuffAfter_cons ho, List.length_cons, Nat.add_sub_cancel]
    generalize code.toNat - 1 = n
    by_cases hcode : code = 0x00#8
    · rw [if_pos hcode]
      exact Nat.le_add_right _ _
    rw [if_neg hcode]
    by_cases hover : cap < o.length + min n rest.length
    · rw [if_pos hover]
      exact fun _ => by omega
    rw [if_neg hover]
    by_cases hshort : rest.length < n
    · rw [if_pos hshort]
      split
      · exact nofun
      · exact List.length_append.le
    have hrun : (o ++ rest.take n).length = o.length + n := by
      rw [List.length_append, List.length_take_of_le (Nat.not_lt.mp hshort)]
    have hdrop : (rest.drop n).length = rest.length - n := List.length_drop
    rw [if_neg hshort]
    by_cases hlast : code = 0xFF#8 ∨ rest.length = n
    · rw [if_pos hlast]
      exact (unstuffAfter_bound (rest.drop n) _ (by omega)).mono (by omega)
    rw [if_neg hlast]
    by_cases hfull : o.length + n = cap
    · rw [if_pos hfull]
      exact fun _ => by omega
    · have hzero : (o ++ rest.take n ++ [0x00#8]).length = o.length + n + 1 := by
        rw [List.length_append, hrun, List.length_singleton]
      rw [if_neg hfull]
      exact (unstuffAfter_bound (rest.drop n) _ (by omega)).mono (by omega)
termination_by inp => inp.length
decreasing_by all_goals simp only [List.length_drop, List.length_cons]; omega

/-- The implicit zero between a run and the rest of the input: none behind the last run (R67). -/
def zeroBefore (rest : List Byte) : List Byte := if rest = [] then [] else [0x00#8]

@[simp] theorem zeroBefore_nil : zeroBefore [] = [] := rfl

theorem zeroBefore_of_ne_nil {rest : List Byte} (h : rest ≠ []) : zeroBefore rest = [0x00#8] := if_neg h

/-- A full run that fits is copied, with no zero behind it (R67, R86). -/
theorem unstuffAfter_full_run {o run rest : List Byte} (hr : run.length = 254) (ho : (o ++ run).length ≤ cap) :
    unstuffAfter pol cap o (0xFF#8 :: (run ++ rest)) = unstuffAfter pol cap (o ++ run) rest := by
  have hn : (0xFF#8).toNat - 1 = run.length := hr.symm
  rw [List.length_append] at ho
  rw [unstuffAfter_cons (by omega), hn, if_neg (by decide), if_neg (by omega), if_neg (by simp), if_pos (.inl rfl),
    List.take_left, List.drop_left]

/-- A shorter run that fits with its implicit zero (R67, R86). -/
theorem unstuffAfter_short_run {o run rest : List Byte} (hr : run.length < 254)
    (ho : (o ++ run ++ zeroBefore rest).length ≤ cap) :
    unstuffAfter pol cap o (BitVec.ofNat 8 (run.length + 1) :: (run ++ rest)) =
      unstuffAfter pol cap (o ++ run ++ zeroBefore rest) rest := by
  have hn : (BitVec.ofNat 8 (run.length + 1)).toNat - 1 = run.length := by
    rw [BitVec.toNat_ofNat]
    omega
  have hzero : BitVec.ofNat 8 (run.length + 1) ≠ 0x00#8 := by bv_omega
  have hfull : BitVec.ofNat 8 (run.length + 1) ≠ 0xFF#8 := by bv_omega
  rw [List.length_append, List.length_append] at ho
  rw [unstuffAfter_cons (by omega), hn, if_neg hzero, if_neg (by omega), if_neg (by simp), List.take_left, List.drop_left]
  by_cases hrest : rest = []
  · rw [if_pos (.inr (by simp [hrest])), hrest, zeroBefore_nil, List.append_nil]
  · rw [zeroBefore_of_ne_nil hrest, List.length_singleton] at ho
    rw [if_neg (by simp [hfull, hrest]), if_neg (by omega), zeroBefore_of_ne_nil hrest]

/-- The chunks of a segment give the segment back, and a zero if another segment follows (R68, R86). -/
theorem unstuffAfter_chunks (s : List Byte) (o rest : List Byte) (ho : (o ++ s ++ zeroBefore rest).length ≤ cap) :
    unstuffAfter pol cap o (chunks s ++ rest) = unstuffAfter pol cap (o ++ s ++ zeroBefore rest) rest := by
  induction s using chunks_induction generalizing o with
  | short s h => rw [chunks_of_short h, List.cons_append, unstuffAfter_short_run h ho]
  | long s h ih =>
    have hs : o ++ s = o ++ s.take 254 ++ s.drop 254 := by rw [List.append_assoc, List.take_append_drop]
    rw [hs] at ho ⊢
    have hrun : (o ++ s.take 254).length ≤ cap := by
      rw [List.append_assoc, List.length_append] at ho
      exact (Nat.le_add_right _ _).trans ho
    rw [chunks_of_long h, List.cons_append, List.cons_append, List.append_assoc,
      unstuffAfter_full_run (List.length_take_of_le h) hrun, ih _ ho]

theorem chunks_ne_nil (s : List Byte) : chunks s ≠ [] :=
  List.ne_nil_of_length_pos (by rw [chunks_length]; omega)

/-- The chunks of segments give the segments with a zero between each two (R68, R86). -/
theorem unstuffAfter_segments (s : List Byte) (ss : List (List Byte)) (o : List Byte)
    (ho : (o ++ [0x00#8].intercalate (s :: ss)).length ≤ cap) :
    unstuffAfter pol cap o ((s :: ss).flatMap chunks) = .ok (o ++ [0x00#8].intercalate (s :: ss)) := by
  induction ss generalizing s o with
  | nil =>
    rw [List.intercalate_singleton] at ho ⊢
    rw [List.flatMap_cons, List.flatMap_nil, unstuffAfter_chunks _ _ _ (by simpa using ho), zeroBefore_nil,
      List.append_nil, unstuffAfter_nil]
  | cons s' ss ih =>
    have hzero : zeroBefore ((s' :: ss).flatMap chunks) = [0x00#8] :=
      zeroBefore_of_ne_nil (List.append_ne_nil_of_left_ne_nil (chunks_ne_nil s') _)
    rw [List.intercalate_cons_cons, ← List.append_assoc, ← List.append_assoc] at ho ⊢
    have hseg : (o ++ s ++ [0x00#8]).length ≤ cap := by
      rw [List.length_append] at ho
      exact (Nat.le_add_right _ _).trans ho
    rw [List.flatMap_cons, unstuffAfter_chunks _ _ _ (hzero ▸ hseg), hzero, ih _ _ ho]

theorem splitZeros_eq_splitOn (d : List Byte) : splitZeros d = d.splitOn 0x00#8 := by
  induction d with
  | nil => rfl
  | cons b bs ih =>
    obtain ⟨s, ss, hs⟩ := List.exists_cons_of_ne_nil (splitZeros_ne_nil bs)
    rw [List.splitOn_cons_eq_if_modifyHead, ← ih, splitZeros, hs]
    by_cases hb : b = 0x00#8 <;> simp [hb]

/-- Unstuff undoes Stuff for every frame that fits, under either policy (R97). -/
theorem unstuff_stuff {d : List Byte} (hd : d.length ≤ cap) : unstuff pol cap (stuff d) = .ok d := by
  obtain ⟨s, ss, hs⟩ := List.exists_cons_of_ne_nil (splitZeros_ne_nil d)
  have hjoin : [0x00#8].intercalate (s :: ss) = d := by
    rw [← hs, splitZeros_eq_splitOn, List.intercalate_splitOn]
  rw [unstuff_eq_unstuffAfter, stuff, hs, unstuffAfter_segments _ _ _ (by rwa [hjoin]), hjoin, List.nil_append]

end Sys2Proof.Machine
end

section
/-! PROOFS. What DEC.PUSH and DEC.FRAME answer, case by case (R84, R85, R88 to R92), and the step of the state around them. -/

namespace Sys2Proof.Machine

section

variable {c : Config} {d : Dec}

theorem Dec.push_data {b : Byte} (hb : b ≠ 0x00#8) :
    d.push c b = .ok ((d.pushData c b).1, false, (d.pushData c b).2) := if_neg hb

theorem Dec.push_data_of_room {b : Byte} (hb : b ≠ 0x00#8) (h : d.accLen < c.accCap) :
    d.push c b =
      .ok ({ d.closeWindow with acc := Memory.write d.acc d.accLen b, accLen := d.accLen + 1 }, false, none) := by
  rw [Dec.push_data hb, Dec.pushData, if_pos h]

/-- A full accumulation is discarded, and the byte kept or not (R89). -/
theorem Dec.push_data_of_full {b : Byte} (hb : b ≠ 0x00#8) (h : c.accCap ≤ d.accLen) :
    d.push c b =
      .ok (if c.accOverflowKeepByte then { d.closeWindow with acc := Memory.write d.acc 0 b, accLen := 1 }
        else { d.closeWindow with accLen := 0 }, false, some .decAccOverflow) := by
  rw [Dec.push_data hb, Dec.pushData, if_neg (Nat.not_lt.mpr h)]
  split <;> rfl

/-- A data byte closes the window and leaves the cells of `dec.out` (R84). -/
theorem Dec.pushData_window (b : Byte) :
    (d.pushData c b).1.out = d.out ∧ (d.pushData c b).1.outLen = 0 ∧ (d.pushData c b).1.frameValid = false := by
  unfold Dec.pushData
  split
  · exact ⟨rfl, rfl, rfl⟩
  · split <;> exact ⟨rfl, rfl, rfl⟩

theorem Dec.push_delimiter_of_empty (h : d.accLen = 0) : d.push c 0x00#8 = .ok (d.noFrame, false, some .decEmpty) := by
  rw [Dec.push, if_pos rfl, Dec.pushDelimiter, if_pos h]

section

variable {inp : List Byte} (h0 : d.accLen ≠ 0) (hs : Memory.readSpan c.accCap d.acc 0 d.accLen = some inp)

include h0 hs

theorem Dec.push_delimiter_of_fail {r : Reason} (hu : unstuff c.truncPolicy c.decCap inp = .error r) :
    d.push c 0x00#8 = .ok (d.noFrame, false, some r) := by
  simp only [Dec.push, if_true, Dec.pushDelimiter, if_neg h0, hs, hu]

theorem Dec.push_delimiter_of_no_byte (hu : unstuff c.truncPolicy c.decCap inp = .ok []) :
    d.push c 0x00#8 = .ok (d.noFrame, false, some .decZeroLength) := by
  simp only [Dec.push, if_true, Dec.pushDelimiter, if_neg h0, hs, hu]

theorem Dec.push_delimiter_of_frame {frame : List Byte} (hu : unstuff c.truncPolicy c.decCap inp = .ok frame)
    (hf : frame ≠ []) : d.push c 0x00#8 = .ok (d.expose frame, true, none) := by
  obtain ⟨b, bs, rfl⟩ := List.exists_cons_of_ne_nil hf
  simp only [Dec.push, if_true, Dec.pushDelimiter, if_neg h0, hs, hu]

end

theorem Dec.push_delimiter_of_unwritten (h0 : d.accLen ≠ 0) (hs : Memory.readSpan c.accCap d.acc 0 d.accLen = none) :
    d.push c 0x00#8 = .error (.fault .readUnwritten) := by
  simp only [Dec.push, if_true, Dec.pushDelimiter, if_neg h0, hs]

theorem Dec.frame_of_valid {bs : List Byte} (hv : d.frameValid = true)
    (hs : Memory.readSpan c.decCap d.out 0 d.outLen = some bs) : d.frame c = .ok bs := by
  simp only [Dec.frame, if_pos hv, hs]

theorem Dec.frame_of_not_valid (hv : d.frameValid = false) : d.frame c = .error (.fault .frameNotValid) := by
  simp [Dec.frame, hv]

end

section

variable {s t : State} {d : Dec} {ready : Bool} {why : Option Reason}

theorem exec_decPush_of_push (hr : s.ready .decPush = true) (hp : s.dec.push s.cfg s.ports.inByte = .ok (d, ready, why)) :
    exec .decPush s = .next ((s.setDec d).respond (.frameReady ready) why) := by
  simp only [exec_of_ready hr, opBody, decPush, hp, outcomeOf_ok]

theorem exec_decPush_of_delimiter (hr : s.ready .decPush = true) (hb : s.ports.inByte = 0x00#8)
    (hp : s.dec.push s.cfg 0x00#8 = .ok (d, ready, why)) :
    exec .decPush s = .next ((s.setDec d).respond (.frameReady ready) why) := exec_decPush_of_push hr (hb ▸ hp)

/-- Everything DEC.PUSH that answers a next state can have done. -/
theorem exec_decPush_next (h : exec .decPush s = .next t) :
    t = s.stays ∨ ∃ d ready why, s.dec.push s.cfg s.ports.inByte = .ok (d, ready, why) ∧
      t = (s.setDec d).respond (.frameReady ready) why := by
  rcases exec_next h with ⟨-, hb⟩ | ⟨-, ht⟩
  · exact .inr (decPush_ok hb)
  · exact .inl ht

theorem exec_decFrame_of_frame {bs : List Byte} (hr : s.ready .decFrame = true) (hf : s.dec.frame s.cfg = .ok bs) :
    exec .decFrame s = .next (s.respond (.frame s.dec.outLen bs) none) := by
  simp only [exec_of_ready hr, opBody, decFrame, hf, outcomeOf_ok]

theorem exec_decFrame_of_fault {f : Fault} (hr : s.ready .decFrame = true) (hf : s.dec.frame s.cfg = .error (.fault f)) :
    exec .decFrame s = .fault f := by
  simp only [exec_of_ready hr, opBody, decFrame, hf, outcomeOf_fault]

end

end Sys2Proof.Machine

section

open Sys2Proof Sys2Proof.Machine

/-- Settles O13: the byte is written to the cell past those accumulated. -/
theorem decPushAppendsADataByte : Obligations.DecPushAppendsADataByte := by
  intro s hr hw hb hroom
  exact ⟨_, exec_decPush_of_push hr (Dec.push_data_of_room hb hroom), rfl, rfl, fun a => Memory.read_write _ _ _ a hw⟩

/-- Settles O14: the byte is written to the first cell or to none, as the configuration says. -/
theorem decPushDiscardsAFullAccumulation : Obligations.DecPushDiscardsAFullAccumulation := by
  intro s hr hw hb hfull
  refine ⟨_, exec_decPush_of_push hr (Dec.push_data_of_full hb hfull), ?_⟩
  cases s.cfg.accOverflowKeepByte with
  | true => exact ⟨rfl, rfl, fun a => by simpa using Memory.read_write s.dec.acc 0 s.ports.inByte a hw⟩
  | false => exact ⟨rfl, rfl, fun a => by simp⟩

/-- Settles O15: DEC.PUSH of a delimiter leaves no frame before it looks at `dec.acc`. -/
theorem delimiterWithNothingAccumulated : Obligations.DelimiterWithNothingAccumulated := by
  intro s hr hb h0
  exact exec_decPush_of_delimiter hr hb (Dec.push_delimiter_of_empty h0)

/-- Settles O16: of all a delimiter can do, only leaving no frame answers `false`. -/
theorem stateAfterNoFrame : Obligations.StateAfterNoFrame := by
  intro s t hb ht hresp
  rcases exec_decPush_next ht with rfl | ⟨d, ready, why, hp, rfl⟩
  · exact nomatch hresp
  rcases Dec.push_ok hp with ⟨-, hd⟩ | ⟨hne, -⟩
  · rcases Dec.pushDelimiter_ok hd with ⟨-, rfl, -⟩ | ⟨rfl, -⟩
    · exact ⟨rfl, rfl, rfl, fun _ => rfl⟩
    · exact nomatch hresp
  · exact absurd hb hne

/-- Settles O17: the accumulation is read whole, and what Unstuff makes of it is written to `dec.out`. -/
theorem delimiterExposesTheUnstuffedFrame : Obligations.DelimiterExposesTheUnstuffedFrame := by
  intro s inp frame hr hi hb h0 hin hu hf
  have hspan := Memory.readSpan_eq_some.mpr ⟨by simpa using hi.acc_fits, hin⟩
  refine ⟨_, exec_decPush_of_delimiter hr hb (Dec.push_delimiter_of_frame h0 hspan hu hf), rfl,
    Memory.readCells_writeSpan _ _ _ hi.out_ok.1, fun a ha => ?_⟩
  exact (Memory.read_writeSpan _ _ _ _ hi.out_ok.1).trans (if_neg (by omega))

/-- Settles O18: one run of Unstuff, and the two ways a delimiter leaves no frame of a non-empty accumulation. -/
theorem unstuffRunByRunAndDelimiterAfterItFails : Obligations.UnstuffRunByRunAndDelimiterAfterItFails := by
  refine ⟨fun _ _ _ => rfl, fun pol cap o ho => ⟨rfl, fun code rest n hn => ?_⟩, fun s inp hr hi hb h0 hin => ?_⟩
  · rw [hn]
    simpa only [unstuffAfter, List.length_cons, List.length_drop] using unstuffAfter_cons ho code rest
  · have hspan := Memory.readSpan_eq_some.mpr ⟨by simpa using hi.acc_fits, hin⟩
    exact ⟨fun r hu => exec_decPush_of_delimiter hr hb (Dec.push_delimiter_of_fail h0 hspan hu),
      fun hu => exec_decPush_of_delimiter hr hb (Dec.push_delimiter_of_no_byte h0 hspan hu)⟩

/-- Settles O19: on R26's states the accumulation can be read, and both things a delimiter can do empty it. -/
theorem decPushAlwaysAnswersAndDelimitersEmpty : Obligations.DecPushAlwaysAnswersAndDelimitersEmpty := by
  intro s hr hi
  obtain ⟨⟨d, ready, why⟩, hp⟩ := hi.push_answers s.ports.inByte
  refine ⟨_, ready, exec_decPush_of_push hr hp, rfl, fun hb => ?_⟩
  rcases Dec.push_ok hp with ⟨-, hd⟩ | ⟨hne, -⟩
  · rcases Dec.pushDelimiter_ok hd with ⟨-, rfl, -⟩ | ⟨-, -, -, _, _, _, -, -, rfl⟩ <;> rfl
  · exact absurd hb hne

/-- Settles O21: R26 has a non-empty frame in `dec.out` exactly while the window is open. -/
theorem decFrameReadsTheExposedFrame : Obligations.DecFrameReadsTheExposedFrame := by
  intro s hr hi
  refine ⟨fun hv => ?_, fun hv => exec_decFrame_of_fault hr (Dec.frame_of_not_valid hv)⟩
  obtain ⟨bs, hf, -, hpos, hbs⟩ := hi.frame_answers hv
  exact ⟨bs, hbs, hpos, hi.out_fits, exec_decFrame_of_frame hr hf⟩

end
end

section
/-! PROOFS. What DEC.PUSH leaves unchanged and when it overflows (R51, R84, R96). -/

namespace Sys2Proof.Machine

variable {c : Config} {d d' : Dec} {b : Byte} {ready : Bool} {why : Option Reason}

theorem Dec.pushDelimiter_acc (h : d.pushDelimiter c = .ok (d', ready, why)) : d'.acc = d.acc := by
  rcases Dec.pushDelimiter_ok h with ⟨-, rfl, -⟩ | ⟨-, -, -, _, _, _, -, -, rfl⟩ <;> rfl

/-- A data byte goes to the next cell, or to the first if the accumulation is full (R84, R89). -/
theorem Dec.read_pushData_acc (hw : Memory.wf d.acc) {a : Nat} (ha : a ≠ if d.accLen < c.accCap then d.accLen else 0) :
    Memory.read (d.pushData c b).1.acc a = Memory.read d.acc a := by
  unfold Dec.pushData
  split
  · next hroom => exact Memory.read_write_other _ _ hw (by rwa [if_pos hroom] at ha)
  · next hfull =>
    split
    · exact Memory.read_write_other _ _ hw (by rwa [if_neg hfull] at ha)
    · rfl

/-- DEC.PUSH overflows its output only where Unstuff does, on bytes read from `dec.acc` (R90). -/
theorem Dec.unstuff_of_push_overflow (h : d.push c b = .ok (d', ready, some .decOverflow)) :
    ∃ inp, Memory.readSpan c.accCap d.acc 0 d.accLen = some inp ∧
      unstuff c.truncPolicy c.decCap inp = .error .decOverflow := by
  by_cases hb : b = 0x00#8
  · subst hb
    by_cases h0 : d.accLen = 0
    · simp [Dec.push_delimiter_of_empty h0] at h
    · cases hs : Memory.readSpan c.accCap d.acc 0 d.accLen with
      | none => simp [Dec.push_delimiter_of_unwritten h0 hs] at h
      | some inp =>
        refine ⟨inp, rfl, ?_⟩
        cases hu : unstuff c.truncPolicy c.decCap inp with
        | error r =>
          obtain ⟨-, -, rfl⟩ : d.noFrame = d' ∧ false = ready ∧ r = .decOverflow := by
            simpa [Dec.push_delimiter_of_fail h0 hs hu] using h
          rfl
        | ok frame =>
          by_cases hf : frame = []
          · simp [Dec.push_delimiter_of_no_byte h0 hs (hf ▸ hu)] at h
          · simp [Dec.push_delimiter_of_frame h0 hs hu hf] at h
  · by_cases hroom : d.accLen < c.accCap
    · simp [Dec.push_data_of_room hb hroom] at h
    · simp [Dec.push_data_of_full hb (Nat.not_lt.mp hroom)] at h

theorem unstuff_bound (pol : TruncPolicy) (cap : Nat) (inp : List Byte) :
    UnstuffBound cap (inp.length - 1) (unstuff pol cap inp) :=
  (unstuffAfter_bound inp [] (Nat.zero_le _)).mono (by simp)

end Sys2Proof.Machine

section

open Sys2Proof Sys2Proof.Machine

/-- Settles O20: every path of DEC.PUSH writes `dec.acc` in at most one cell, and only a delimiter writes `dec.out`. -/
theorem decPushFrame : Obligations.DecPushFrame := by
  intro s t ht hw
  rcases exec_decPush_next ht with rfl | ⟨d, ready, why, hp, rfl⟩
  · exact ⟨rfl, fun _ _ => rfl, fun _ => rfl, fun _ => ⟨rfl, fun h => absurd rfl h⟩⟩
  rcases Dec.push_ok hp with ⟨hb, hd⟩ | ⟨hb, -, rfl, -⟩
  · have hacc : d.acc = s.dec.acc := Dec.pushDelimiter_acc hd
    exact ⟨rfl, fun a _ => congrArg (Memory.read · a) hacc, fun _ => hacc, fun h => absurd hb h⟩
  · obtain ⟨hout, hwindow⟩ := Dec.pushData_window (c := s.cfg) (d := s.dec) s.ports.inByte
    exact ⟨rfl, fun a ha => Dec.read_pushData_acc hw ha, fun h => absurd h hb, fun _ => ⟨hout, fun _ => hwindow⟩⟩

/-- Settles O23: an accumulation has at most `ACC_CAP` bytes, and an overflow needs a capacity more than a byte below it. -/
theorem unstuffGivesFewerBytesThanItTakes : Obligations.UnstuffGivesFewerBytesThanItTakes := by
  refine ⟨fun pol cap inp o hne hu => ?_, fun s t hcap ht hover => ?_⟩
  · have hlen : o.length ≤ inp.length - 1 := by simpa [hu, UnstuffBound] using unstuff_bound pol cap inp
    have := List.length_pos_iff.mpr hne
    omega
  · rcases exec_decPush_next ht with rfl | ⟨d, ready, why, hp, rfl⟩
    · exact nomatch hover
    obtain rfl : why = some .decOverflow := hover
    obtain ⟨inp, hin, hu⟩ := Dec.unstuff_of_push_overflow hp
    obtain ⟨hfits, hcells⟩ := Memory.readSpan_eq_some.mp hin
    have hlen : s.cfg.decCap < inp.length - 1 := by
      simpa [hu, UnstuffBound] using unstuff_bound s.cfg.truncPolicy s.cfg.decCap inp
    have := Memory.readCells_length hcells
    omega

end
end

section
/-! PROOFS. Feeding bytes to DEC.PUSH (R83): the round trip through the reference encoder (R97), and two decoders fed the same
bytes (R98). -/

namespace Sys2Proof.Machine

section

variable (s : State) (b : Byte) (r : Dec × Bool × Option Reason)

/-- The state after RX's DEC.PUSH of `b` that did `r` to the decoder. -/
def State.pushed : State := ((s.withByte b).setDec r.1).respond (.frameReady r.2.1) r.2.2

@[simp] theorem State.pushed_resp : (s.pushed b r).resp = .frameReady r.2.1 := rfl

end

section

variable {s t : State} {b : Byte} {bs : List Byte} {rs : List Bool}

/-- RX may push, and read a frame, whenever it is not inside HOST.RX_BYTE (R133). -/
theorem State.ready_dec_of_idle {i : Instr} (hi : i ∈ [Instr.decPush, .decFrame]) (ha : s.ports.agent = .rx)
    (h : s.host.rxAt = .idle) : s.ready i = true := by
  simp only [List.mem_cons, List.not_mem_nil, or_false] at hi
  rcases hi with rfl | rfl <;> simp [State.ready, State.enabled, State.agentFree, admits, takesLock, ha, h]

theorem feed_cons_of_push {r : Dec × Bool × Option Reason} (hi : s.host.rxAt = .idle) (hp : s.dec.push s.cfg b = .ok r)
    (hf : feed bs (s.pushed b r) = some (rs, t)) : feed (b :: bs) s = some (r.2.1 :: rs, t) := by
  have he : exec .decPush (s.withByte b) = .next (s.pushed b r) :=
    exec_decPush_of_push (s := s.withByte b) (State.ready_dec_of_idle (by simp) rfl hi) hp
  simp only [feed, he, State.pushed_resp, hf]

/-- A feed that answers did so byte by byte, and RX was free to push. -/
theorem feed_cons_some (h : feed (b :: bs) s = some (rs, t)) :
    s.host.rxAt = .idle ∧ ∃ r rs', s.dec.push s.cfg b = .ok r ∧ rs = r.2.1 :: rs' ∧
      feed bs (s.pushed b r) = some (rs', t) := by
  simp only [feed] at h
  split at h
  · next u hu =>
    split at h
    · next ready rs' u' hresp hf =>
      obtain ⟨rfl, rfl⟩ := Prod.mk.inj (Option.some.inj h)
      rcases exec_next hu with ⟨hr, hb⟩ | ⟨-, rfl⟩
      · obtain ⟨d, ready', why, hp, rfl⟩ := decPush_ok hb
        obtain rfl := Response.frameReady.inj hresp
        exact ⟨State.rxAt_idle_of_ready (s := s.withByte b) hr fun _ => rfl, (d, ready', why), rs', hp, rfl, hf⟩
      · exact nomatch hresp
    · exact nomatch h
  · exact nomatch h

end

theorem Memory.wf_writeSpan (bs : List Byte) {m : Memory} {a : Nat} (h : Memory.wf m) :
    Memory.wf (Memory.writeSpan m a bs) := by
  induction bs generalizing m a with
  | nil => exact h
  | cons b bs ih => exact ih (Memory.wf_write a b h)

/-- The decoder has accumulated the bytes `bs` (R20, R21), and its buffers are in canonical form. -/
structure Dec.Accumulated (d : Dec) (bs : List Byte) : Prop where
  acc_wf : Memory.wf d.acc
  out_wf : Memory.wf d.out
  held   : Memory.readCells d.acc 0 d.accLen = some bs

namespace Dec.Accumulated

variable {c : Config} {d : Dec} {bs : List Byte}

theorem length_eq (h : d.Accumulated bs) : bs.length = d.accLen := Memory.readCells_length h.held

theorem readSpan (h : d.Accumulated bs) {cap : Nat} (hl : bs.length ≤ cap) :
    Memory.readSpan cap d.acc 0 d.accLen = some bs :=
  Memory.readSpan_eq_some.mpr ⟨by simpa [h.length_eq] using hl, h.held⟩

theorem of_accLen_zero (ha : Memory.wf d.acc) (ho : Memory.wf d.out) (h0 : d.accLen = 0) : d.Accumulated [] :=
  ⟨ha, ho, by rw [h0]; rfl⟩

theorem append (h : d.Accumulated bs) (b : Byte) :
    Dec.Accumulated { d.closeWindow with acc := Memory.write d.acc d.accLen b, accLen := d.accLen + 1 } (bs ++ [b]) where
  acc_wf := Memory.wf_write _ _ h.acc_wf
  out_wf := h.out_wf
  held := by
    refine Memory.readCells_snoc ?_ (by simpa using Memory.read_write_self _ _ _ h.acc_wf)
    rw [← h.held]
    exact Memory.readCells_congr (fun k hk => Memory.read_write_other _ _ h.acc_wf (by omega))

theorem restart (h : d.Accumulated bs) (b : Byte) :
    Dec.Accumulated { d.closeWindow with acc := Memory.write d.acc 0 b, accLen := 1 } [b] :=
  ⟨Memory.wf_write _ _ h.acc_wf, h.out_wf, by simp [Memory.readCells, Memory.read_write_self _ _ _ h.acc_wf]⟩

theorem noFrame (h : d.Accumulated bs) : d.noFrame.Accumulated [] := of_accLen_zero h.acc_wf .nil rfl

theorem expose (h : d.Accumulated bs) (frame : List Byte) : (d.expose frame).Accumulated [] :=
  of_accLen_zero h.acc_wf (Memory.wf_writeSpan frame h.out_wf) rfl

end Dec.Accumulated

/-- The bytes accumulated and those of the feed, taken by a delimiter at its end, give the frame that Unstuff makes of them
(R84, R97). -/
theorem feed_to_frame {s : State} {acc bs frame : List Byte} (hi : s.host.rxAt = .idle) (ha : s.dec.Accumulated acc)
    (hz : 0x00#8 ∉ bs) (hfit : (acc ++ bs).length ≤ s.cfg.accCap)
    (hu : unstuff s.cfg.truncPolicy s.cfg.decCap (acc ++ bs) = .ok frame) (hne : frame ≠ []) :
    ∃ t, feed (bs ++ [0x00#8]) s = some (List.replicate bs.length false ++ [true], t) ∧
      exec .decFrame t = .next (t.respond (.frame frame.length frame) none) := by
  induction bs generalizing s acc with
  | nil =>
    rw [List.append_nil] at hfit hu
    have h0 : s.dec.accLen ≠ 0 := by
      intro h0
      obtain rfl := List.length_eq_zero_iff.mp (ha.length_eq.trans h0)
      exact hne (Except.ok.inj hu).symm
    have hp := Dec.push_delimiter_of_frame h0 (ha.readSpan hfit) hu hne
    refine ⟨_, feed_cons_of_push hi hp rfl, exec_decFrame_of_frame (State.ready_dec_of_idle (by simp) rfl hi) ?_⟩
    refine Dec.frame_of_valid rfl (Memory.readSpan_eq_some.mpr ⟨?_, Memory.readCells_writeSpan _ _ _ ha.out_wf⟩)
    exact (Nat.zero_add _).trans_le (unstuff_le_cap hu)
  | cons b bs ih =>
    have hlen := ha.length_eq
    rw [List.append_cons] at hfit hu
    have hroom : s.dec.accLen < s.cfg.accCap := by
      simp only [List.length_append, List.length_singleton] at hfit
      omega
    have hp := Dec.push_data_of_room (List.ne_of_not_mem_cons hz).symm hroom
    obtain ⟨t, hf, ht⟩ := ih (s := s.pushed b (_, false, none)) hi (ha.append b) (List.not_mem_of_not_mem_cons hz) hfit hu
    exact ⟨t, feed_cons_of_push hi hp hf, ht⟩

/-- Two decoders with the same window and, while it is open, the same frame in it (R84, R85). -/
structure Dec.SameFrame (d d' : Dec) : Prop where
  frameValid : d'.frameValid = d.frameValid
  outLen     : d.frameValid = true → d'.outLen = d.outLen
  out        : d.frameValid = true → ∀ k, k < d.outLen → Memory.read d'.out k = Memory.read d.out k

/-- Two decoders that no later byte and no DEC.FRAME tells apart (R98): they accumulated the same bytes and expose the same
frame, whatever their other cells hold. -/
structure Dec.Alike (d d' : Dec) : Prop where
  bytes : ∃ bs, d.Accumulated bs ∧ d'.Accumulated bs
  frame : d.SameFrame d'

section

variable {c : Config} {d d' : Dec} {bs : List Byte} {b : Byte} {r : Dec × Bool × Option Reason}

theorem Dec.Alike.of_closed (h : d.Accumulated bs) (h' : d'.Accumulated bs) (hv : d.frameValid = false)
    (hv' : d'.frameValid = false) : d.Alike d' where
  bytes := ⟨bs, h, h'⟩
  frame := ⟨hv'.trans hv.symm, fun ho => absurd (hv.symm.trans ho) nofun, fun ho => absurd (hv.symm.trans ho) nofun⟩

theorem Dec.Alike.noFrame (h : d.Accumulated bs) (h' : d'.Accumulated bs) : d.noFrame.Alike d'.noFrame :=
  .of_closed h.noFrame h'.noFrame rfl rfl

theorem Dec.Alike.expose (h : d.Accumulated bs) (h' : d'.Accumulated bs) (frame : List Byte) :
    (d.expose frame).Alike (d'.expose frame) := by
  refine ⟨⟨[], h.expose frame, h'.expose frame⟩, rfl, fun _ => rfl, fun _ k hk => ?_⟩
  have hin : 0 ≤ k ∧ k < 0 + frame.length := ⟨Nat.zero_le k, by simpa using hk⟩
  simp only [Dec.expose_out, Memory.read_writeSpan _ _ _ _ h.out_wf, Memory.read_writeSpan _ _ _ _ h'.out_wf, if_pos hin]

/-- What a delimiter does to the decoder is a function of the bytes accumulated (R84, R98). -/
theorem Dec.Accumulated.push_delimiter_alike (h : d.Accumulated bs) (h' : d'.Accumulated bs)
    (hp : d.push c 0x00#8 = .ok r) : ∃ e', d'.push c 0x00#8 = .ok (e', r.2) ∧ r.1.Alike e' := by
  have hlen : d'.accLen = d.accLen := h'.length_eq.symm.trans h.length_eq
  by_cases h0 : d.accLen = 0
  · obtain rfl := Except.ok.inj ((Dec.push_delimiter_of_empty h0).symm.trans hp)
    exact ⟨_, Dec.push_delimiter_of_empty (hlen.trans h0), .noFrame h h'⟩
  have h0' : d'.accLen ≠ 0 := hlen ▸ h0
  by_cases hfit : bs.length ≤ c.accCap
  · have hs := h.readSpan hfit
    have hs' := h'.readSpan hfit
    cases hu : unstuff c.truncPolicy c.decCap bs with
    | error reason =>
      obtain rfl := Except.ok.inj ((Dec.push_delimiter_of_fail h0 hs hu).symm.trans hp)
      exact ⟨_, Dec.push_delimiter_of_fail h0' hs' hu, .noFrame h h'⟩
    | ok frame =>
      by_cases hf : frame = []
      · obtain rfl := Except.ok.inj ((Dec.push_delimiter_of_no_byte h0 hs (hf ▸ hu)).symm.trans hp)
        exact ⟨_, Dec.push_delimiter_of_no_byte h0' hs' (hf ▸ hu), .noFrame h h'⟩
      · obtain rfl := Except.ok.inj ((Dec.push_delimiter_of_frame h0 hs hu hf).symm.trans hp)
        exact ⟨_, Dec.push_delimiter_of_frame h0' hs' hu hf, .expose h h' frame⟩
  · have hs : Memory.readSpan c.accCap d.acc 0 d.accLen = none := by
      rw [Memory.readSpan, if_neg (by rw [← h.length_eq]; omega)]
    exact nomatch (Dec.push_delimiter_of_unwritten h0 hs).symm.trans hp

/-- What a data byte does to the decoder is a function of the bytes accumulated (R84, R89, R98). -/
theorem Dec.Accumulated.push_data_alike (hb : b ≠ 0x00#8) (h : d.Accumulated bs) (h' : d'.Accumulated bs)
    (hp : d.push c b = .ok r) : ∃ e', d'.push c b = .ok (e', r.2) ∧ r.1.Alike e' := by
  have hlen : d'.accLen = d.accLen := h'.length_eq.symm.trans h.length_eq
  by_cases hroom : d.accLen < c.accCap
  · obtain rfl := Except.ok.inj ((Dec.push_data_of_room hb hroom).symm.trans hp)
    exact ⟨_, Dec.push_data_of_room hb (hlen ▸ hroom), .of_closed (h.append b) (h'.append b) rfl rfl⟩
  · have hfull := Nat.not_lt.mp hroom
    obtain rfl := Except.ok.inj ((Dec.push_data_of_full hb hfull).symm.trans hp)
    refine ⟨_, Dec.push_data_of_full hb (hlen ▸ hfull), ?_⟩
    cases c.accOverflowKeepByte with
    | true => exact .of_closed (h.restart b) (h'.restart b) rfl rfl
    | false => exact .of_closed (of_accLen_zero h.acc_wf h.out_wf rfl) (of_accLen_zero h'.acc_wf h'.out_wf rfl) rfl rfl

end

/-- Two decoders of one configuration that accumulated the same bytes answer a feed alike (R98). -/
theorem feed_alike {s s' t : State} {acc bs : List Byte} {rs : List Bool} (hc : s'.cfg = s.cfg)
    (hi : s'.host.rxAt = .idle) (ha : s.dec.Accumulated acc) (ha' : s'.dec.Accumulated acc)
    (hf : feed bs s = some (rs, t)) :
    ∃ t', feed bs s' = some (rs, t') ∧ t'.dec.accLen = t.dec.accLen ∧
      ((bs = [] → s.dec.SameFrame s'.dec) → t.dec.SameFrame t'.dec) := by
  induction bs generalizing s s' acc rs with
  | nil =>
    obtain ⟨rfl, rfl⟩ := Prod.mk.inj (Option.some.inj hf)
    exact ⟨s', rfl, ha'.length_eq.symm.trans ha.length_eq, fun h => h rfl⟩
  | cons b bs ih =>
    obtain ⟨-, r, rs, hp, rfl, hrest⟩ := feed_cons_some hf
    have hpush : ∃ e', s'.dec.push s.cfg b = .ok (e', r.2) ∧ r.1.Alike e' := by
      by_cases hb : b = 0x00#8
      · subst hb
        exact ha.push_delimiter_alike ha' hp
      · exact ha.push_data_alike hb ha' hp
    obtain ⟨e', hp', ⟨cs, hcs, hcs'⟩, hsame⟩ := hpush
    obtain ⟨t', hf', hlen, hlast⟩ := ih (s := s.pushed b r) (s' := s'.pushed b (e', r.2)) hc hi hcs hcs' hrest
    exact ⟨t', feed_cons_of_push (r := (e', r.2)) hi (hc ▸ hp') hf', hlen, fun _ => hlast fun _ => hsame⟩

end Sys2Proof.Machine

section

open Sys2Proof Sys2Proof.Machine

/-- Settles O22: the stuffed bytes accumulate, and Unstuff gives back the frame they were made of. -/
theorem stuffedFramesDecodeToThemselves : Obligations.StuffedFramesDecodeToThemselves := by
  intro s d hi hacc hout h0 hpos hcap hfit
  have ha := Dec.Accumulated.of_accLen_zero hacc hout h0
  exact feed_to_frame hi ha (zero_notMem_stuff d) hfit (unstuff_stuff hcap) (List.ne_nil_of_length_pos hpos)

/-- Settles O25: with nothing accumulated both decoders hold the same bytes, and each byte of the feed keeps it so. -/
theorem resynchronisationAfterADelimiter : Obligations.ResynchronisationAfterADelimiter := by
  intro s s' t bs rs hc hi hacc hacc' hout hout' h0 h0' hf
  obtain ⟨t', hf', hlen, hsame⟩ :=
    feed_alike hc hi (.of_accLen_zero hacc hout h0) (.of_accLen_zero hacc' hout' h0') hf
  refine ⟨t', hf', hlen, fun hne => ?_⟩
  obtain ⟨hvalid, houtLen, hcells⟩ := hsame fun h => absurd h hne
  exact ⟨hvalid, fun hv => ⟨houtLen hv, hcells hv⟩⟩

end
end

section
/-! PROOFS. What FQ.WRITE and FQ.READ answer, case by case (R99 to R103), and the step of the state around them. -/

namespace Sys2Proof.Machine

/-! The queue alone. -/

section

variable {c : Config} {q q' : Fq} {e bs : List Byte} {es : List (List Byte)} {cs : List (Option Byte)} {n len used : Nat}
  {h l : Byte} {r : Reason} {why : Option Reason}

/-- The queue after FQ.WRITE of a payload that fits (R99). -/
def Fq.stored (c : Config) (q : Fq) (bs : List Byte) : Fq :=
  { q with
      ring := Memory.writeRing c.qCap q.ring q.wr (queueEntry bs)
      wr := (q.wr + 2 + bs.length) % c.qCap
      used := q.used + 2 + bs.length }

/-- The queue after FQ.READ took an entry with a payload of `len` bytes (R101). -/
def Fq.taken (c : Config) (q : Fq) (len : Nat) : Fq :=
  { q with rd := (q.rd + 2 + len) % c.qCap, used := q.used - 2 - len }

theorem loByte_eq_ofNat_mod (n : Nat) : loByte n = BitVec.ofNat 8 (n % 256) :=
  BitVec.eq_of_toNat_eq (by simp [loByte])

theorem fqWriteReason_of_refused (h : len = 0 ∨ c.qCap < len ∨ c.qCap - used < len + 2) :
    fqWriteReason c used len = some (if len = 0 then .fqEmptyPayload else .fqNoSpace) := by
  unfold fqWriteReason
  split
  · rfl
  · next h0 => rw [if_pos (h.resolve_left h0)]

theorem Fq.write_of_refused (hr : fqWriteReason c q.used cs.length = some r) : q.write c cs = .ok (q, some r) := by
  simp only [Fq.write, hr]

theorem Fq.write_of_fits (h1 : 1 ≤ bs.length) (h2 : bs.length + 2 ≤ c.qCap - q.used) :
    q.write c (bs.map some) = .ok (q.stored c bs, none) := by
  have hr : fqWriteReason c q.used (bs.map some).length = none := fqWriteReason_none.mpr (by simpa using ⟨h1, h2⟩)
  simp only [Fq.write, hr, payloadBytes_map_some, Fq.stored]

/-- FQ.WRITE of bytes accepts exactly the entries that fit (R99, R100). -/
theorem Fq.write_accepts_iff (hw : q.write c (bs.map some) = .ok (q', why)) :
    why = none ↔ 1 ≤ bs.length ∧ bs.length + 2 ≤ c.qCap - q.used := by
  rw [← List.length_map some, ← fqWriteReason_none]
  rcases Fq.write_ok hw with ⟨rfl, -, -⟩ | ⟨rfl, hr, -⟩
  · rfl
  · exact (iff_true_right hr).mpr rfl

/-- An entry just stored reads as its header and its payload, from the old write index on (R47, R52). -/
theorem Fq.read_stored_ring (hw : Memory.wf q.ring) (hl : bs.length + 2 ≤ c.qCap) {k : Nat} (hk : k < bs.length + 2) :
    Memory.read (q.stored c bs).ring ((q.wr + k) % c.qCap) = (queueEntry bs)[k]? :=
  (Memory.readRing_eq_some.mp (Memory.readRing_writeRing (queueEntry bs) hw hl)).2 k hk

theorem Fq.read_stored_ring_other (hw : Memory.wf q.ring) {a : Nat}
    (ha : ∀ k, k < bs.length + 2 → a ≠ (q.wr + k) % c.qCap) :
    Memory.read (q.stored c bs).ring a = Memory.read q.ring a :=
  Memory.read_writeRing_other (queueEntry bs) hw ha

/-- Every path of FQ.WRITE leaves the read side, and the ring outside the entry's cells (R99, R100). -/
theorem Fq.write_frame (h : q.write c cs = .ok (q', why)) (hw : Memory.wf q.ring) :
    q' = { q' with rd := q.rd, lock := q.lock } ∧
      ∀ a, (∀ k, k < cs.length + 2 → a ≠ (q.wr + k) % c.qCap) → Memory.read q'.ring a = Memory.read q.ring a := by
  rcases Fq.write_ok h with ⟨-, -, rfl⟩ | ⟨-, -, bs, rfl, rfl⟩
  · exact ⟨rfl, fun _ _ => rfl⟩
  · exact ⟨rfl, fun a ha => Fq.read_stored_ring_other hw (by simpa using ha)⟩

/-- When FQ.READ finds nothing wrong with a header (R103). -/
theorem fqReadReason_none : fqReadReason len n used = none ↔ 1 ≤ len ∧ len ≤ n ∧ len ≤ used - 2 := by
  simp only [fqReadReason]
  split
  · simp; omega
  · split
    · simp; omega
    · split
      · simp; omega
      · simp; omega

theorem fqReadReason_of_corrupt (h : len = 0 ∨ n < len ∨ used - 2 < len) :
    fqReadReason len n used = some (if len = 0 then .fqZeroLength else if n < len then .fqTooLong else .fqShortQueue) := by
  unfold fqReadReason
  split
  · rfl
  · next h0 =>
    split
    · rfl
    · next hn => rw [if_pos ((h.resolve_left h0).resolve_left hn)]

theorem Fq.read_of_few (h : q.used < 2) : q.read c n = .ok (q, [], some .fqEmpty) := if_pos h

theorem Fq.read_of_corrupt (hu : 2 ≤ q.used) (hh : Memory.readRing c.qCap q.ring q.rd 2 = some [h, l])
    (hr : fqReadReason (be16 h l) n q.used = some r) : q.read c n = .ok (q.emptied, [], some r) := by
  simp only [Fq.read, if_neg (Nat.not_lt.mpr hu), hh, hr]

theorem Fq.read_of_entry (hu : 2 ≤ q.used) (hh : Memory.readRing c.qCap q.ring q.rd 2 = some [h, l])
    (hr : fqReadReason (be16 h l) n q.used = none) (hb : Memory.readRing c.qCap q.ring (q.rd + 2) (be16 h l) = some bs) :
    q.read c n = .ok (q.taken c (be16 h l), bs, none) := by
  simp only [Fq.read, if_neg (Nat.not_lt.mpr hu), hh, hr, hb, Fq.taken]

/-- Every path of FQ.READ leaves the ring and the write side, and gives at most `maxLength` bytes (R101 to R103). -/
theorem Fq.read_frame (hq : q.read c n = .ok (q', bs, why)) :
    q' = { q with rd := q'.rd, used := q'.used } ∧ bs.length ≤ n := by
  unfold Fq.read at hq
  split at hq
  · obtain ⟨rfl, rfl, -⟩ : q = q' ∧ [] = bs ∧ _ := by simpa using hq
    exact ⟨rfl, Nat.zero_le n⟩
  · split at hq
    · split at hq
      · obtain ⟨rfl, rfl, -⟩ : q.emptied = q' ∧ [] = bs ∧ _ := by simpa using hq
        exact ⟨rfl, Nat.zero_le n⟩
      · next hr =>
        split at hq
        · exact nomatch hq
        · next bs' hb =>
          obtain ⟨rfl, rfl, -⟩ : _ = q' ∧ bs' = bs ∧ _ := by simpa using hq
          exact ⟨rfl, (Memory.readRing_length hb).trans_le (fqReadReason_none.mp hr).2.1⟩
    · exact nomatch hq

/-- The header at the head is the oldest payload's length (R47, R70). -/
theorem Fq.Holds.header (hq : q.Holds c (e :: es)) (hc : c.qCap ≤ 65537)
    (hh : Memory.readRing c.qCap q.ring q.rd 2 = some [h, l]) : be16 h l = e.length := by
  obtain ⟨hhead, -⟩ := hq.head
  obtain ⟨rfl, rfl⟩ : h = hiByte e.length ∧ l = loByte e.length := by simpa [hh] using hhead
  have := (hq.lengths e (by simp)).2
  exact be16_hiByte_loByte (by omega)

/-- A queue that holds something holds a header and a byte at least (R30). -/
theorem Fq.Holds.three_le_used (hq : q.Holds c (e :: es)) : 3 ≤ q.used := by
  obtain ⟨-, -, -, hu⟩ := hq.head
  have := (hq.lengths e (by simp)).1
  omega

theorem Fq.Holds.used_nil (hq : q.Holds c []) : q.used = 0 := hq.used_eq.symm

/-- On R30's states the queue is empty, or a sound entry stands at its head. -/
theorem Fq.Inv.used_zero_or (hi : q.Inv c) : q.used = 0 ∨ 3 ≤ q.used := by
  obtain ⟨es, hes⟩ := hi.holds
  cases es with
  | nil => exact .inl hes.used_nil
  | cons e es => exact .inr hes.three_le_used

/-- On R30's states the length at the head is neither 0 nor above the bytes queued behind it (R103). -/
theorem Fq.Inv.header_sound (hi : q.Inv c) (hc : c.qCap ≤ 65537) (hu : 2 ≤ q.used)
    (hh : Memory.readRing c.qCap q.ring q.rd 2 = some [h, l]) : 1 ≤ be16 h l ∧ be16 h l ≤ q.used - 2 := by
  obtain ⟨es, hes⟩ := hi.holds
  cases es with
  | nil => exact absurd hes.used_nil (by omega)
  | cons e es =>
    rw [hes.header hc hh]
    obtain ⟨-, -, -, hle⟩ := hes.head
    exact ⟨(hes.lengths e (by simp)).1, by omega⟩

end

/-! The step of the state. -/

section

variable {s t : State} {q : Fq} {bs : List Byte} {v : View} {why : Option Reason}

theorem exec_fqWrite_of_write (hr : s.ready .fqWrite = true) (hw : s.fq.write s.cfg s.ports.wrData = .ok (q, why)) :
    exec .fqWrite s = .next ((s.setFq q).respond (.wrOk why.isNone) why) := by
  simp only [exec_of_ready hr, opBody, fqWrite, State.fqWrite, hw, outcomeOf_ok]

/-- Everything FQ.WRITE that answers a next state can have done. -/
theorem exec_fqWrite_next (h : exec .fqWrite s = .next t) :
    t = s.stays ∨ ∃ q why, s.fq.write s.cfg s.ports.wrData = .ok (q, why) ∧
      t = (s.setFq q).respond (.wrOk why.isNone) why := by
  rcases exec_next h with ⟨-, hb⟩ | ⟨-, ht⟩
  · exact .inr (fqWrite_ok hb)
  · exact .inl ht

theorem exec_fqRead_of_read (hr : s.ready .fqRead = true) (hv : s.ports.rdMax ≤ s.viewCells s.ports.rdDst)
    (hq : s.fq.read s.cfg s.ports.rdMax = .ok (q, bs, why)) :
    exec .fqRead s = .next (((s.setFq q).writeView s.ports.rdDst bs).respond (.read bs.length bs) why) := by
  simp only [exec_of_ready hr, opBody, fqRead, State.fqRead, State.checkView_of_le hv, hq, outcomeOf_ok]

/-- A read that gives no frame writes no cell of the destination (R102, R103). -/
theorem exec_fqRead_of_no_frame (hr : s.ready .fqRead = true) (hv : s.ports.rdMax ≤ s.viewCells s.ports.rdDst)
    (hq : s.fq.read s.cfg s.ports.rdMax = .ok (q, [], why)) :
    exec .fqRead s = .next ((s.setFq q).respond (.read 0 []) why) := by
  simpa using exec_fqRead_of_read hr hv hq

/-- Everything FQ.READ that answers a next state can have done. -/
theorem exec_fqRead_next (h : exec .fqRead s = .next t) :
    t = s.stays ∨ ∃ q bs why, s.fq.read s.cfg s.ports.rdMax = .ok (q, bs, why) ∧
      t = ((s.setFq q).writeView s.ports.rdDst bs).respond (.read bs.length bs) why := by
  rcases exec_next h with ⟨-, hb⟩ | ⟨-, ht⟩
  · obtain ⟨u, bs, why, hu, rfl⟩ := fqRead_ok hb
    obtain ⟨-, q, hq, rfl⟩ := State.fqRead_ok hu
    exact .inr ⟨q, bs, why, hq, rfl⟩
  · exact .inl ht

/-- BS.LIMIT that answers a next state waits, or writes `3 × count` bytes to its operand (R119). -/
theorem exec_bsLimit_next (h : exec .bsLimit s = .next t) :
    t = s.stays ∨ ∃ px : List Byte, px.length = 3 * s.ports.bsCount ∧
      t = (s.writeView s.ports.bsPix px).respond .done none := by
  rcases exec_next h with ⟨-, hb⟩ | ⟨-, ht⟩
  · obtain ⟨u, hu, rfl⟩ := bsLimit_ok hb
    obtain ⟨-, -, px, hpx, rfl⟩ := State.limit_ok hu
    exact .inr ⟨_, (scalePixels_length _ _ _).trans (Memory.readCells_length hpx), rfl⟩
  · exact .inl ht

/-- An admitted agent that is free may begin any operation but HOST.RX_BYTE while the queue's lock is free (R31, R133). -/
theorem State.ready_of_free {i : Instr} (hl : s.fq.lock = .free) (hf : s.agentFree s.ports.agent = true)
    (ha : admits i s.ports.agent = true) (hi : i ≠ .hostRxByte) : s.ready i = true := by
  simp [State.ready, State.enabled, ha, hl, hf, hi]

/-! Writing a buffer operand. -/

/-- A write to a buffer operand changes nothing but RENDER's three buffers (R45). -/
theorem State.writeView_frame (s : State) (v : View) (bs : List Byte) :
    s.writeView v bs =
      { s with
          host := { s.host with rbuf := (s.writeView v bs).host.rbuf }
          caller := (s.writeView v bs).caller } := by
  obtain ⟨b, _, _⟩ := v
  cases b <;> rfl

theorem State.writeView_buf_size (b : BufName) (bs : List Byte) : ((s.writeView v bs).buf b).size = (s.buf b).size := by
  by_cases hb : b = v.buf
  · rw [hb, State.writeView_buf_self]
  · rw [State.writeView_buf_other hb]

theorem State.readCells_writeView (hw : Memory.wf (s.buf v.buf).cells) (bs : List Byte) :
    Memory.readCells ((s.writeView v bs).buf v.buf).cells v.base bs.length = some bs := by
  rw [State.writeView_buf_self]
  exact Memory.readCells_writeSpan _ _ _ hw

/-- The operand's buffer keeps the cells before the bytes written and past them. -/
theorem State.read_writeView_other (hw : Memory.wf (s.buf v.buf).cells) {a : Nat}
    (ha : a < v.base ∨ v.base + bs.length ≤ a) :
    Memory.read ((s.writeView v bs).buf v.buf).cells a = Memory.read (s.buf v.buf).cells a := by
  rw [State.writeView_buf_self]
  exact (Memory.read_writeSpan _ _ _ _ hw).trans (if_neg (by omega))

end

end Sys2Proof.Machine

section

open Sys2Proof Sys2Proof.Machine

/-- Settles O27: the header and the payload are one ring span, read back cell by cell. -/
theorem fqWriteStoresOneEntry : Obligations.FqWriteStoresOneEntry := by
  intro s bs hr hw hc hbs h1 h2
  have hcell (k : Nat) (hk : k < bs.length + 2) := Fq.read_stored_ring (c := s.cfg) (bs := bs) hw (by omega) hk
  refine ⟨_, exec_fqWrite_of_write hr (hbs ▸ Fq.write_of_fits h1 h2), rfl, rfl, rfl, hcell 0 (by omega),
    (hcell 1 (by omega)).trans (congrArg some (loByte_eq_ofNat_mod _)), fun k hk => ?_,
    fun a ha => Fq.read_stored_ring_other hw ha⟩
  rw [Nat.add_assoc s.fq.wr 2 k, Nat.add_comm 2 k]
  exact hcell (k + 2) (by omega)

/-- Settles O30: the bytes read are written to the operand, and writing it changes that buffer's first cells alone. -/
theorem fqReadTakesTheHeadEntry : Obligations.FqReadTakesTheHeadEntry := by
  intro s h l bs hr hv hw hu hh h1 hmax hqueued hb
  have hread := Fq.read_of_entry hu hh (fqReadReason_none.mpr ⟨h1, hmax, hqueued⟩) hb
  have hexec := exec_fqRead_of_read hr hv hread
  rw [← Memory.readRing_length hb] at hexec ⊢
  exact ⟨_, hexec, congrArg (State.respond · _ _) (State.writeView_frame (s.setFq _) _ bs),
    State.readCells_writeView (s := s.setFq (s.fq.taken s.cfg bs.length)) hw bs,
    fun a ha => State.read_writeView_other (s := s.setFq (s.fq.taken s.cfg bs.length)) hw ha,
    fun b hne => State.writeView_buf_other hne bs, fun b => State.writeView_buf_size b bs⟩

/-- Settles O59: FQ.WRITE stores through the ring alone, FQ.READ and BS.LIMIT through one buffer operand. -/
theorem storingOperationsFrame : Obligations.StoringOperationsFrame := by
  intro s t
  refine ⟨fun ht hw => ?_, fun ht hw => ?_, fun ht hw => ?_⟩
  · rcases exec_fqWrite_next ht with rfl | ⟨q, why, hq, rfl⟩
    · exact ⟨rfl, fun _ _ => rfl⟩
    · obtain ⟨hside, hring⟩ := Fq.write_frame hq hw
      exact ⟨congrArg (fun q => (s.setFq q).respond _ _) hside, hring⟩
  · rcases exec_fqRead_next ht with rfl | ⟨q, bs, why, hq, rfl⟩
    · exact ⟨rfl, fun _ _ => rfl, fun _ _ => rfl⟩
    · obtain ⟨hside, hlen⟩ := Fq.read_frame hq
      refine ⟨?_, fun a ha => State.read_writeView_other (s := s.setFq q) hw (by omega),
        fun b hne => State.writeView_buf_other hne bs⟩
      rw [State.respond_fq, State.writeView_fq, State.setFq_fq, ← hside]
      exact congrArg (State.respond · _ _) (State.writeView_frame (s.setFq q) _ bs)
  · rcases exec_bsLimit_next ht with rfl | ⟨px, hlen, rfl⟩
    · exact ⟨rfl, fun _ _ => rfl, fun _ _ => rfl⟩
    · exact ⟨congrArg (State.respond · _ _) (State.writeView_frame s _ px),
        fun a ha => State.read_writeView_other hw (by omega), fun b hne => State.writeView_buf_other hne px⟩

/-- Settles O26: the length alone decides a refusal, and a refusal gives the queue back as it was. -/
theorem fqWriteRefusalChangesNothing : Obligations.FqWriteRefusalChangesNothing := by
  intro s hr hrefused
  exact exec_fqWrite_of_write hr (Fq.write_of_refused (fqWriteReason_of_refused hrefused))

/-- Settles O28: on R30's states no queue holds 1 byte. -/
theorem fqReadOfAnEmptyQueue : Obligations.FqReadOfAnEmptyQueue := by
  intro s hr hv hu
  exact ⟨exec_fqRead_of_no_frame hr hv (Fq.read_of_few hu), fun _ hi => hi.used_zero_or.resolve_right (by omega)⟩

/-- Settles O29: the first condition that holds names the reason, and on R30's states only the second can. -/
theorem fqReadResetsACorruptQueue : Obligations.FqReadResetsACorruptQueue := by
  intro s h l hr hv hu hh hbad
  refine ⟨exec_fqRead_of_no_frame hr hv (Fq.read_of_corrupt hu hh (fqReadReason_of_corrupt hbad)), fun hc hi => ?_⟩
  obtain ⟨-, -, -, -, -, hq, -⟩ := (Config.valid_iff _).mp hc
  obtain ⟨hpos, hqueued⟩ := hi.header_sound hq hu hh
  omega

/-- Settles O33: an admitted and enabled query answers its body, which only puts the response on its port. -/
theorem queueQueriesAnswerTheUsedCount : Obligations.QueueQueriesAnswerTheUsedCount :=
  fun _ => ⟨exec_of_ready, exec_of_ready, exec_of_ready⟩

end
end

section
/-! PROOFS. The queue as a list of payloads: what a write and a read do to it (R99 to R103), the corner cases of the queries
(R104 to R106), and the order of the payloads over any sequence of operations (R108). -/

namespace Sys2Proof.Machine

section

variable {c : Config} {q q' : Fq} {bs : List Byte} {es : List (List Byte)} {n : Nat} {why : Option Reason}

/-- FQ.WRITE of a payload appends it to those held, or refuses it and changes nothing (R99, R100). -/
theorem Fq.Holds.write_ok (h : q.Holds c es) (hw : Memory.wf q.ring) (hq : q.write c (bs.map some) = .ok (q', why)) :
    (why = none ∧ q'.Holds c (es ++ [bs])) ∨ (why ≠ none ∧ q' = q) := by
  rcases Fq.write_ok hq with ⟨-, hne, rfl⟩ | ⟨rfl, -, bs', hbs, rfl⟩
  · exact .inr ⟨hne, rfl⟩
  · obtain ⟨h1, h2⟩ := (Fq.write_accepts_iff hq).mp rfl
    obtain rfl : bs = bs' := List.map_injective_iff.mpr (Option.some_injective _) hbs
    exact .inl ⟨rfl, h.append hw h1 h2⟩

/-- USAGE is a percentage (R106). -/
theorem Fq.usage_le (h : q.used ≤ c.qCap) : q.usage c ≤ 100 := by
  rw [Fq.usage, Nat.mul_comm]
  exact Nat.div_le_of_le_mul (Nat.mul_comm c.qCap 100 ▸ Nat.mul_le_mul_left 100 h)

/-- USAGE is 100 on a full ring alone: the floor hides no free byte (R106). -/
theorem Fq.usage_eq_100_iff (hc : 0 < c.qCap) (h : q.used ≤ c.qCap) : q.usage c = 100 ↔ q.used = c.qCap := by
  rw [Fq.usage, Nat.div_eq_iff hc]
  omega

end

section

variable {s t u : State} {n k : Nat} {dst : View} {bs : List Byte} {es ws rs : List (List Byte)} {ok : Bool}

@[simp] theorem State.withRead_cfg : (s.withRead n dst).cfg = s.cfg := rfl
@[simp] theorem State.withRead_fq : (s.withRead n dst).fq = s.fq := rfl
@[simp] theorem State.withRead_rdMax : (s.withRead n dst).ports.rdMax = n := rfl

/-- A write that did not wait did to the queue what FQ.WRITE does. -/
theorem exec_fqWrite_answered (h : exec .fqWrite (s.withPayload bs) = .next t) (hr : t.resp = .wrOk ok) :
    t.cfg = s.cfg ∧ ∃ why, s.fq.write s.cfg (bs.map some) = .ok (t.fq, why) ∧ why.isNone = ok := by
  rcases exec_fqWrite_next h with rfl | ⟨q, why, hq, rfl⟩
  · exact nomatch hr
  · exact ⟨rfl, why, hq, Response.wrOk.inj hr⟩

/-- A read that did not wait did to the queue what FQ.READ does. -/
theorem exec_fqRead_answered (h : exec .fqRead (s.withRead n dst) = .next t) (hr : t.resp = .read k bs) :
    t.cfg = s.cfg ∧ ∃ why, s.fq.read s.cfg n = .ok (t.fq, bs, why) := by
  rcases exec_fqRead_next h with rfl | ⟨q, bs', why, hq, rfl⟩
  · exact nomatch hr
  · obtain ⟨-, rfl⟩ := Response.read.inj hr
    exact ⟨by simp, why, by simpa using hq⟩

/-- The queue of a valid configuration meets R30 and holds the payloads `es`. -/
structure State.Queues (s : State) (es : List (List Byte)) : Prop where
  cfg_valid : s.cfg.valid = true
  inv       : s.fq.Inv s.cfg
  holds     : s.fq.Holds s.cfg es

theorem State.Queues.qCap_le (h : s.Queues es) : s.cfg.qCap ≤ 65537 := by
  obtain ⟨-, -, -, -, -, hq, -⟩ := (Config.valid_iff _).mp h.cfg_valid
  exact hq

theorem State.Queues.accepted (h : s.Queues es) (hx : exec .fqWrite (s.withPayload bs) = .next t)
    (hr : t.resp = .wrOk true) : t.Queues (es ++ [bs]) := by
  obtain ⟨hc, why, hq, hn⟩ := exec_fqWrite_answered hx hr
  rcases h.holds.write_ok h.inv.ring_ok.1 hq with ⟨-, hes⟩ | ⟨hne, -⟩
  · exact ⟨hc ▸ h.cfg_valid, hc ▸ h.inv.write hq, hc ▸ hes⟩
  · exact absurd (Option.isNone_iff_eq_none.mp hn) hne

theorem State.Queues.refused (h : s.Queues es) (hx : exec .fqWrite (s.withPayload bs) = .next t)
    (hr : t.resp = .wrOk false) : t.Queues es := by
  obtain ⟨hc, why, hq, hn⟩ := exec_fqWrite_answered hx hr
  rcases h.holds.write_ok h.inv.ring_ok.1 hq with ⟨rfl, -⟩ | ⟨-, hsame⟩
  · exact nomatch hn
  · exact ⟨hc ▸ h.cfg_valid, hc ▸ hsame ▸ h.inv, hc ▸ hsame ▸ h.holds⟩

/-- A read that fits the entry at the head gives the oldest payload, and nothing only if none is held (R101, R102). -/
theorem State.Queues.read (h : s.Queues es) (hf : s.headFits n) (hx : exec .fqRead (s.withRead n dst) = .next t)
    (hr : t.resp = .read k bs) :
    (es = [] ∧ bs = [] ∧ t.Queues []) ∨ ∃ rest, es = bs :: rest ∧ 0 < bs.length ∧ t.Queues rest := by
  obtain ⟨hc, why, hq⟩ := exec_fqRead_answered hx hr
  have hinv : t.fq.Inv t.cfg := hc ▸ (h.inv.read_ok h.qCap_le hq).1
  cases es with
  | nil =>
    obtain ⟨hsame, rfl, -⟩ : s.fq = t.fq ∧ [] = bs ∧ _ := by simpa [h.holds.read_nil n] using hq
    exact .inl ⟨rfl, rfl, hc ▸ h.cfg_valid, hinv, hc ▸ hsame ▸ h.holds⟩
  | cons e rest =>
    have hfits : e.length ≤ n := by
      obtain ⟨hhead, -⟩ := h.holds.head
      have hpos := h.holds.three_le_used
      exact h.holds.header h.qCap_le hhead ▸ hf _ _ (by omega) hhead
    rw [h.holds.read_cons h.qCap_le, if_pos hfits] at hq
    obtain ⟨hsame, rfl, -⟩ : _ = t.fq ∧ e = bs ∧ _ := by simpa using hq
    exact .inr ⟨rest, rfl, (h.holds.lengths e (by simp)).1, hc ▸ h.cfg_valid, hinv, hc ▸ hsame ▸ h.holds.tail⟩

/-- Over a trace the payloads held and then those written are the payloads read and then those still held (R108). -/
theorem State.Queues.trace (ht : QueueTrace s ws rs u) (h : s.Queues es) :
    ∃ left, es ++ ws = rs ++ left ∧ u.Queues left := by
  induction ht generalizing es with
  | nil s => exact ⟨es, by simp, h⟩
  | accepted bs hx hr _ ih =>
    obtain ⟨left, heq, hleft⟩ := ih (h.accepted hx hr)
    exact ⟨left, by simpa using heq, hleft⟩
  | refused bs hx hr _ ih => exact ih (h.refused hx hr)
  | taken n dst bs hf hx hr hpos _ ih =>
    rcases h.read hf hx hr with ⟨-, rfl, -⟩ | ⟨rest, rfl, -, hrest⟩
    · exact absurd hpos (Nat.lt_irrefl 0)
    · obtain ⟨left, heq, hleft⟩ := ih hrest
      exact ⟨left, congrArg (bs :: ·) heq, hleft⟩
  | nothing n dst hf hx hr _ ih =>
    rcases h.read hf hx hr with ⟨rfl, -, ht⟩ | ⟨rest, -, hpos, -⟩
    · exact ih ht
    · exact absurd hpos (Nat.lt_irrefl 0)

end

end Sys2Proof.Machine

section

open Sys2Proof Sys2Proof.Machine

/-- Settles O31: FQ.WRITE and FQ.READ on the queue's entries, by whether the list is empty and its oldest payload fits. -/
theorem queueOperationsRefineAListOfPayloads : Obligations.QueueOperationsRefineAListOfPayloads := by
  intro s es hc hi hes
  have hcap : s.cfg.qCap ≤ 65537 := State.Queues.qCap_le ⟨hc, hi, hes⟩
  refine ⟨fun bs hf => ?_, fun n dst hf hv => ?_⟩
  · obtain ⟨⟨q, why⟩, hq⟩ := Fq.write_answers s.cfg s.fq bs
    have hfits := Fq.write_accepts_iff hq
    have hr : (s.withPayload bs).ready .fqWrite = true := State.ready_of_free hi.lock_eq hf rfl nofun
    refine ⟨_, exec_fqWrite_of_write hr hq, ?_⟩
    rcases hes.write_ok hi.ring_ok.1 hq with ⟨rfl, happ⟩ | ⟨hne, rfl⟩
    · obtain ⟨h1, h2⟩ := hfits.mp rfl
      exact .inl ⟨rfl, h1, h2, happ⟩
    · refine .inr ⟨congrArg Response.wrOk (Option.isNone_eq_false_iff.mpr (Option.isSome_iff_ne_none.mpr hne)), ?_, rfl⟩
      have := mt hfits.mpr hne
      omega
  · have hr : (s.withRead n dst).ready .fqRead = true := State.ready_of_free hi.lock_eq hf rfl nofun
    cases es with
    | nil => exact ⟨_, exec_fqRead_of_no_frame hr hv (hes.read_nil n), rfl, rfl⟩
    | cons e rest =>
      have hread := hes.read_cons hcap n
      by_cases hn : e.length ≤ n
      · rw [if_pos hn] at hread
        refine ⟨_, exec_fqRead_of_read hr hv hread, ?_⟩
        simpa [if_pos hn] using hes.tail
      · rw [if_neg hn] at hread
        refine ⟨_, exec_fqRead_of_no_frame hr hv hread, ?_⟩
        simpa [if_neg hn] using hes.emptied

/-- Settles O32: the empty queue holds no payload, and a trace only appends at the one end and takes from the other. -/
theorem queueIsFirstInFirstOut : Obligations.QueueIsFirstInFirstOut := by
  intro s u ws rs hc hi hu ht
  obtain ⟨es, hes⟩ := hi.holds
  cases es with
  | nil =>
    obtain ⟨left, heq, hleft⟩ := State.Queues.trace ht ⟨hc, hi, hes⟩
    exact ⟨left, heq, hleft.holds⟩
  | cons e es => exact absurd hes.three_le_used (by omega)

/-- Settles O34: the used count never exceeds the capacity, and is 0 or an entry's; a write by a free RX does not wait. -/
theorem queueQueriesAndWhatAWriteMayDo : Obligations.QueueQueriesAndWhatAWriteMayDo := by
  intro s hc hi
  have hle : s.fq.used ≤ s.cfg.qCap := hi.holds.elim fun _ h => h.used_le
  refine ⟨Fq.usage_le hle, Fq.usage_eq_100_iff (Config.qCap_pos hc) hle, Nat.sub_le _ _, ?_, fun bs t hf ht => ?_⟩
  · have := hi.used_zero_or
    rw [Fq.hasData, decide_eq_true_eq]
    omega
  · obtain ⟨⟨q, why⟩, hq⟩ := Fq.write_answers s.cfg s.fq bs
    have hr : (s.withPayload bs).ready .fqWrite = true := State.ready_of_free hi.lock_eq hf rfl nofun
    obtain rfl := Host.Outcome.next.inj ((exec_fqWrite_of_write hr hq).symm.trans ht)
    simpa [Fq.space] using Fq.write_accepts_iff hq

end
end

section
/-! PROOFS. PC.PARSE of a buffer that fails a check, one rule per check in R117's order (R111 to R115), and that its answer is a
function of the header's bytes and the length (R118). -/

namespace Sys2Proof.Machine

variable {s s' : State} {v : View} {n k : Nat}

/-! The first check that fails. -/

theorem State.parseHeader_of_short (hn : n < hdrSize) : s.parseHeader v n = .ok (.error .short) := if_pos hn

theorem State.parseHeader_of_version {flags : Byte} (hn : hdrSize ≤ n) (hf : s.viewByte v 0 = .ok flags)
    (hv : flagsVersion flags ≠ versionMarker) : s.parseHeader v n = .ok (.error .version) := by
  simp only [State.parseHeader, if_neg (Nat.not_lt.mpr hn), hf, if_pos hv]

theorem State.parseHeader_of_dataType {flags dtype : Byte} (hn : hdrSize ≤ n) (hf : s.viewByte v 0 = .ok flags)
    (hv : flagsVersion flags = versionMarker) (hd : s.viewByte v 2 = .ok dtype) (ht : ¬ dataTypeOk dtype = true) :
    s.parseHeader v n = .ok (.error .dataType) := by
  simp only [State.parseHeader, if_neg (Nat.not_lt.mpr hn), hf, if_neg (not_not.mpr hv), hd, if_neg ht]

theorem State.parseLengths_of_payloadLength {flags dtype h l : Byte} (hh : s.viewByte v 8 = .ok h)
    (hl : s.viewByte v 9 = .ok l) (hp : ¬ payloadLenOk (be16 h l) = true) :
    s.parseLengths v n flags dtype = .ok (.error .payloadLength) := by
  simp only [State.parseLengths, hh, hl, if_neg hp]

theorem State.parseLengths_of_truncated {flags dtype h l : Byte} (hh : s.viewByte v 8 = .ok h)
    (hl : s.viewByte v 9 = .ok l) (hp : payloadLenOk (be16 h l) = true) (hn : n < hdrSize + be16 h l) :
    s.parseLengths v n flags dtype = .ok (.error .truncated) := by
  simp only [State.parseLengths, hh, hl, if_pos hp, if_pos hn]

/-- PC.PARSE of a buffer that fails a check answers `Fail` with its reason and writes nothing. -/
theorem exec_pcParse_of_fail {r : Reason} (hr : s.ready .pcParse = true)
    (hp : s.parse s.ports.pcBuf s.ports.pcLength = .ok (.error r)) :
    exec .pcParse s = .next (s.respond .parseFail (some r)) := by
  simp only [exec_of_ready hr, opBody, pcParse, hp, outcomeOf_ok]

/-! Two states that agree on the header's bytes. -/

theorem State.viewByte_congr
    (h : Memory.read (s'.buf v.buf).cells (v.base + k) = Memory.read (s.buf v.buf).cells (v.base + k)) :
    s'.viewByte v k = s.viewByte v k := by
  simp only [State.viewByte, h]

/-- The checks and the Packet read no byte but the header's, and none of a buffer too short for a header. -/
theorem State.parseHeader_congr (h : ∀ k, k < min n hdrSize → s'.viewByte v k = s.viewByte v k) :
    s'.parseHeader v n = s.parseHeader v n := by
  by_cases hn : n < hdrSize
  · exact (State.parseHeader_of_short hn).trans (State.parseHeader_of_short hn).symm
  · have hbyte : ∀ k, k < hdrSize → s'.viewByte v k = s.viewByte v k := fun k hk => h k (by omega)
    have hpacket : s'.packetOf v = s.packetOf v := by
      funext flags dtype plen
      simp only [State.packetOf, hbyte 1 (by decide), hbyte 3 (by decide), hbyte 4 (by decide), hbyte 5 (by decide),
        hbyte 6 (by decide), hbyte 7 (by decide)]
    have hlengths : s'.parseLengths v = s.parseLengths v := by
      funext n flags dtype
      simp only [State.parseLengths, hbyte 8 (by decide), hbyte 9 (by decide), hpacket]
    simp only [State.parseHeader, hbyte 0 (by decide), hbyte 2 (by decide), hlengths]

/-- An answer on one buffer is the answer on every buffer with enough cells and the same header bytes (R118). -/
theorem State.parse_congr {a : Except Reason Packet} (hc : n ≤ s'.viewCells v)
    (h : ∀ k, k < min n hdrSize → s'.viewByte v k = s.viewByte v k) (hp : s.parse v n = .ok a) : s'.parse v n = .ok a := by
  rcases State.checkView_eq (s := s) (v := v) (n := n) with hs | hs
  · rwa [State.parse_of_checkView (State.checkView_of_le hc), State.parseHeader_congr h, ← State.parse_of_checkView hs]
  · simp [State.parse, hs] at hp

end Sys2Proof.Machine

section

open Sys2Proof Sys2Proof.Machine

/-- Settles O36: each check that fails gives its reason once the checks before it pass. -/
theorem pcParseFailsInTheListedOrder : Obligations.PcParseFailsInTheListedOrder := by
  intro s hr hc
  have hfail {r : Reason} (hp : s.parseHeader s.ports.pcBuf s.ports.pcLength = .ok (.error r)) :
      exec .pcParse s = .next (s.respond .parseFail (some r)) :=
    exec_pcParse_of_fail hr ((State.parse_of_checkView (State.checkView_of_le hc)).trans hp)
  refine ⟨fun hn => hfail (State.parseHeader_of_short hn), fun hn b0 h0 => ⟨fun hv => ?_, fun hv b2 h2 => ?_⟩⟩
  · exact hfail (State.parseHeader_of_version hn h0 (mt flagsVersion_eq_marker.mp hv))
  · have hv := flagsVersion_eq_marker.mpr hv
    refine ⟨fun hne0 hne1 => ?_, fun ht b8 b9 h8 h9 => ?_⟩
    · exact hfail (State.parseHeader_of_dataType hn h0 hv h2 (mt dataTypeOk_iff.mp (not_or.mpr ⟨hne0, hne1⟩)))
    · have hlengths := State.parseHeader_of_checks hn h0 hv h2 (dataTypeOk_iff.mpr ht)
      refine ⟨fun hrange => hfail (hlengths.trans ?_), fun hlo hhi htotal => hfail (hlengths.trans ?_)⟩
      · exact State.parseLengths_of_payloadLength h8 h9 (mt payloadLenOk_iff.mp (by omega))
      · exact State.parseLengths_of_truncated h8 h9 (payloadLenOk_iff.mpr ⟨hlo, hhi⟩) htotal

/-- Settles O37: the parse reads the header's bytes alone, so it answers in the second state as in the first. -/
theorem pcParseIsAFunctionOfItsBytes : Obligations.PcParseIsAFunctionOfItsBytes := by
  intro s s' t hr hr' hbuf hlen hc hbytes h
  have hparse {a : Except Reason Packet} (hp : s.parse s.ports.pcBuf s.ports.pcLength = .ok a) :
      s'.parse s'.ports.pcBuf s'.ports.pcLength = .ok a := by
    rw [hbuf, hlen] at hc ⊢
    exact State.parse_congr hc (fun k hk => State.viewByte_congr (hbytes k hk)) hp
  rw [exec_of_ready hr, outcomeOf_next] at h
  rcases pcParse_ok h with ⟨r, hp, rfl⟩ | ⟨p, hp, rfl⟩
  · exact ⟨rfl, exec_pcParse_of_fail hr' (hparse hp)⟩
  · exact ⟨rfl, exec_pcParse_of_packet hr' (hparse hp)⟩

end
end

section
/-! PROOFS. The brightness scaler (R119 to R128): what BS.LIMIT makes of one byte, the lit pixels counted by index and by pixel,
and what a permutation of the pixels does to both. -/

namespace Sys2Proof.Machine

section

variable {c : Config} {k : Nat} {px : List Byte}

/-! One byte. -/

/-- What a call at scale `k` makes of the byte `b` (R124, R125). -/
def limitByte (c : Config) (k : Nat) (b : Byte) : Byte := if k = 255 ∧ c.fullScaleIdentity = true then b else scaleByte k b

theorem scalePixels_eq_map (c : Config) (k : Nat) (px : List Byte) : scalePixels c k px = px.map (limitByte c k) := by
  by_cases h : k = 255 ∧ c.fullScaleIdentity = true
  · rw [show limitByte c k = id from funext fun _ => if_pos h, List.map_id]
    exact if_pos h
  · rw [show limitByte c k = scaleByte k from funext fun _ => if_neg h]
    exact if_neg h

theorem limitByte_toNat (c : Config) (h : k ≤ 255) (b : Byte) :
    (limitByte c k b).toNat = if k = 255 ∧ c.fullScaleIdentity = true then b.toNat else b.toNat * k / 256 := by
  rw [limitByte, apply_ite BitVec.toNat, scaleByte_toNat b h]

theorem scalePixels_toNat (c : Config) (h : k ≤ 255) (px : List Byte) :
    (scalePixels c k px).map BitVec.toNat =
      px.map (fun b => if k = 255 ∧ c.fullScaleIdentity = true then b.toNat else b.toNat * k / 256) := by
  rw [scalePixels_eq_map, List.map_map]
  exact List.map_congr_left fun b _ => limitByte_toNat c h b

/-! The lit pixels, counted by index. -/

/-- Pixel `i` of a byte sequence is lit (R120). -/
def litAt (px : List Byte) (i : Nat) : Bool :=
  decide (px[3 * i]? ≠ some 0x00#8 ∨ px[3 * i + 1]? ≠ some 0x00#8 ∨ px[3 * i + 2]? ≠ some 0x00#8)

theorem litAt_zero (r g b : Byte) (px : List Byte) : litAt (r :: g :: b :: px) 0 = pixelLit r g b := by
  rw [Bool.eq_iff_iff]
  simp [litAt, pixelLit, or_assoc]

theorem litAt_succ (r g b : Byte) (px : List Byte) (i : Nat) : litAt (r :: g :: b :: px) (i + 1) = litAt px i := rfl

theorem litCount_eq_countP_range {n : Nat} (h : px.length = 3 * n) : litCount px = (List.range n).countP (litAt px) := by
  induction n generalizing px with
  | zero => rw [List.length_eq_zero_iff.mp h]; rfl
  | succ n ih =>
    match px, h with
    | r :: g :: b :: rest, h =>
      have hrest : rest.length = 3 * n := by simp only [List.length_cons] at h; omega
      have hcomp : litAt (r :: g :: b :: rest) ∘ Nat.succ = litAt rest := funext (litAt_succ r g b rest)
      rw [List.range_succ_eq_map, List.countP_cons, List.countP_map, hcomp, litAt_zero, litCount, ih hrest, Nat.add_comm]

/-! The bytes as pixels. -/

/-- The bytes of one pixel. -/
def tripleBytes (x : Byte × Byte × Byte) : List Byte := [x.1, x.2.1, x.2.2]

theorem litCount_flatMap_tripleBytes (xs : List (Byte × Byte × Byte)) :
    litCount (xs.flatMap tripleBytes) = xs.countP fun x => pixelLit x.1 x.2.1 x.2.2 := by
  induction xs with
  | nil => rfl
  | cons x xs ih => rw [List.countP_cons, ← ih, Nat.add_comm]; rfl

theorem flatMap_tripleBytes_injective : Function.Injective fun xs : List (Byte × Byte × Byte) => xs.flatMap tripleBytes := by
  intro xs ys h
  induction xs generalizing ys with
  | nil =>
    cases ys with
    | nil => rfl
    | cons y ys => cases h
  | cons x xs ih =>
    cases ys with
    | nil => cases h
    | cons y ys =>
      obtain ⟨h1, h2, h3, hrest⟩ :
          x.1 = y.1 ∧ x.2.1 = y.2.1 ∧ x.2.2 = y.2.2 ∧ xs.flatMap tripleBytes = ys.flatMap tripleBytes := by
        simpa [tripleBytes] using h
      rw [Prod.ext h1 (Prod.ext h2 h3), ih hrest]

/-- What a call at scale `k` makes of one pixel. -/
def limitTriple (c : Config) (k : Nat) (x : Byte × Byte × Byte) : Byte × Byte × Byte :=
  (limitByte c k x.1, limitByte c k x.2.1, limitByte c k x.2.2)

/-- The result of each pixel depends on that pixel and the scale alone (R127). -/
theorem scalePixels_flatMap_tripleBytes (c : Config) (k : Nat) (xs : List (Byte × Byte × Byte)) :
    scalePixels c k (xs.flatMap tripleBytes) = (xs.map (limitTriple c k)).flatMap tripleBytes := by
  rw [scalePixels_eq_map, List.map_flatMap, List.flatMap_map]
  rfl

/-- A permutation of the pixels leaves the lit count (R127). -/
theorem litCount_ofFn_comp_perm {n : Nat} (f : Fin n → Byte × Byte × Byte) (p : Equiv.Perm (Fin n)) :
    litCount ((List.ofFn (f ∘ p)).flatMap tripleBytes) = litCount ((List.ofFn f).flatMap tripleBytes) := by
  rw [litCount_flatMap_tripleBytes, litCount_flatMap_tripleBytes]
  exact (Equiv.Perm.ofFn_comp_perm p f).countP_eq _

theorem scalePixels_ofFn_eq_iff {n : Nat} {f out : Fin n → Byte × Byte × Byte} :
    scalePixels c k ((List.ofFn f).flatMap tripleBytes) = (List.ofFn out).flatMap tripleBytes ↔
      limitTriple c k ∘ f = out := by
  rw [scalePixels_flatMap_tripleBytes, List.map_ofFn, flatMap_tripleBytes_injective.eq_iff, List.ofFn_injective.eq_iff]

end

section

variable {s : State} {px : List Byte}

/-! The operation. -/

theorem exec_bsLimit_of_cells (hr : s.ready .bsLimit = true)
    (hp : scaleParamsOk s.ports.bsMaxScale s.ports.bsMinScale = true) (hc : 3 * s.ports.bsCount ≤ s.viewCells s.ports.bsPix)
    (h : Memory.readCells (s.buf s.ports.bsPix.buf).cells s.ports.bsPix.base (3 * s.ports.bsCount) = some px) :
    exec .bsLimit s = .next ((s.writeView s.ports.bsPix (scalePixels s.cfg
      (selectScale (litCount px) s.ports.bsTotal s.ports.bsThreshold s.ports.bsMaxScale s.ports.bsMinScale) px)).respond
        .done none) := by
  simp only [exec_of_ready hr, opBody, bsLimit, State.limit_answers hp (State.checkView_of_le hc) h, outcomeOf_ok]

theorem State.limit_of_bad_params {v : View} {count total thr mx mn : Nat} (hp : ¬ scaleParamsOk mx mn = true) :
    s.limit v count total thr mx mn = .error (.refuse .badScaleParams) := if_neg hp

theorem exec_bsLimit_of_bad_params (hr : s.ready .bsLimit = true)
    (hp : ¬ scaleParamsOk s.ports.bsMaxScale s.ports.bsMinScale = true) : exec .bsLimit s = .refused .badScaleParams := by
  simp only [exec_of_ready hr, opBody, bsLimit, State.limit_of_bad_params hp, outcomeOf_refuse]

end

end Sys2Proof.Machine

section

open Sys2Proof Sys2Proof.Machine

/-- Settles O39: the scaled bytes are written to the operand, and writing it changes that buffer's first cells alone. -/
theorem bsLimitScalesEveryByte : Obligations.BsLimitScalesEveryByte := by
  intro s px lit scale hr hlimits hmax hc hw hpx hlit hscale
  have hlen : px.length = 3 * s.ports.bsCount := Memory.readCells_length hpx
  have hlit : lit = litCount px := by
    rw [hlit, litCount_eq_countP_range hlen, List.countP_eq_length_filter]
    rfl
  have hscale : scale = selectScale (litCount px) s.ports.bsTotal s.ports.bsThreshold s.ports.bsMaxScale
      s.ports.bsMinScale := hlit ▸ hscale
  have hle : scale ≤ 255 := hscale ▸ (selectScale_bounds hlimits).2.trans hmax
  have hexec := exec_bsLimit_of_cells hr (scaleParamsOk_iff.mpr ⟨hlimits, hmax⟩) hc hpx
  rw [← hscale] at hexec
  have hqx : (scalePixels s.cfg scale px).length = 3 * s.ports.bsCount := (scalePixels_length _ _ _).trans hlen
  exact ⟨_, scalePixels s.cfg scale px, hexec, congrArg (State.respond · _ _) (State.writeView_frame s _ _),
    hqx ▸ State.readCells_writeView hw _, scalePixels_toNat s.cfg hle px,
    fun a ha => State.read_writeView_other hw (hqx.symm ▸ ha),
    fun b hne => State.writeView_buf_other hne _, fun b => State.writeView_buf_size b _⟩

/-- Settles O43: the lit count, and so the scale, is the same, and each pixel's result depends on that pixel alone. -/
theorem bsLimitIsOrderIndependent : Obligations.BsLimitIsOrderIndependent := by
  intro c n total thr mx mn px p bytes hbytes
  obtain rfl : bytes = fun f => (List.ofFn f).flatMap tripleBytes := funext hbytes
  have hlit := litCount_ofFn_comp_perm px p
  refine ⟨hlit, fun out hout => ?_⟩
  rw [hlit]
  exact scalePixels_ofFn_eq_iff.mpr (congrArg (· ∘ p) (scalePixels_ofFn_eq_iff.mp hout))

/-- Settles O40: the interpolation takes at most `maxScale - minScale` away. -/
theorem scaleStaysBetweenTheLimits : Obligations.ScaleStaysBetweenTheLimits :=
  fun _ _ _ _ _ => selectScale_bounds

/-- Settles O41: the parameters are tested before the buffer. -/
theorem bsLimitRefusesBadScales : Obligations.BsLimitRefusesBadScales :=
  fun _ hr hbad => exec_bsLimit_of_bad_params hr (mt scaleParamsOk_iff.mp (by omega))

/-- Settles O42: at scale 255 the configuration alone decides between the byte and the formula. -/
theorem fullScaleIsTheIdentity : Obligations.FullScaleIsTheIdentity := by
  intro c px
  refine ⟨fun hid => if_pos ⟨rfl, hid⟩, fun hid => ?_⟩
  simpa [hid] using scalePixels_toNat c (le_refl 255) px

/-- Settles O44: the scale is less than 256, by which the product is divided. -/
theorem scaledBytesShrink : Obligations.ScaledBytesShrink := by
  intro scale c hscale
  rw [scaleByte_toNat c hscale]
  have hprod : c.toNat * scale ≤ c.toNat * 255 := Nat.mul_le_mul_left _ hscale
  have := c.isLt
  exact ⟨rfl, by omega, fun hpos => by omega⟩

end
end

section
/-! PROOFS. The LED driver's log (R38, R138, R145): the calls a tick issues, and one rule per update of the state for the log's
legality. -/

namespace Sys2Proof.Machine

variable {s t : State}

/-- The pixel writes by index: pixel `i` of the bytes goes to index `start + i` (R140). -/
theorem setPixels_eq_map_range (out start : Nat) {n : Nat} {px : List Byte} (h : px.length = 3 * n) :
    setPixels out start px = (List.range n).map fun i =>
      .setPixel out (start + i) (px.getD (3 * i) 0) (px.getD (3 * i + 1) 0) (px.getD (3 * i + 2) 0) := by
  induction n generalizing start px with
  | zero => rw [List.length_eq_zero_iff.mp h]; rfl
  | succ n ih =>
    match px, h with
    | r :: g :: b :: rest, h =>
      have hrest : rest.length = 3 * n := by simp only [List.length_cons] at h; omega
      rw [setPixels, ih (start + 1) hrest, List.range_succ_eq_map, List.map_cons, List.map_map]
      exact congrArg _ (List.map_congr_left fun i _ => by rw [Nat.add_assoc, Nat.add_comm 1 i]; rfl)

/-- A packet's pixel writes stay in the channel that has room for them (R138). -/
theorem setPixels_allowed {c : Config} {ch : Channel} {start n : Nat} {px : List Byte} (hch : ch ∈ c.channels)
    (hpx : px.length = 3 * n) (hn : start + n ≤ ch.pixels) : ∀ call ∈ setPixels ch.out start px, call.allowed c := by
  rw [setPixels_eq_map_range ch.out start hpx]
  intro call hcall
  obtain ⟨i, hi, rfl⟩ := List.mem_map.mp hcall
  have := List.mem_range.mp hi
  exact ⟨ch, hch, rfl, by omega⟩

/-- The clamped pixels fit the channel from the start pixel on (R138). -/
theorem start_add_clampedCount_le {p : Packet} {ch : Channel} (h : p.offset / 3 < ch.pixels) :
    p.offset / 3 + clampedCount p ch ≤ ch.pixels := by
  have : clampedCount p ch ≤ ch.pixels - p.offset / 3 := Nat.min_le_right _ _
  omega

/-- An update that issues no call, awaits no new flush and routes no packet. -/
theorem State.LedInv.congr (h : s.LedInv) (hc : t.cfg = s.cfg) (hlog : t.env.ledLog = s.env.ledLog)
    (hf : t.env.flushPending = s.env.flushPending ∨ t.env.flushPending = none)
    (hat : ∀ p ch, t.host.tickAt = .scale p ch ∨ t.host.tickAt = .pixels p ch →
      s.host.tickAt = .scale p ch ∨ s.host.tickAt = .pixels p ch) : t.LedInv where
  allowed := by
    rw [hc, hlog]
    exact h.allowed
  pending out ho := by
    rcases hf with hf | hf
    · rw [hlog]
      exact h.pending out (hf ▸ ho)
    · exact nomatch hf.symm.trans ho
  routed p ch hp := by
    rw [hc]
    exact h.routed p ch (hat p ch hp)

theorem State.LedInv.respond (h : s.LedInv) (r : Response) (why : Option Reason) : (s.respond r why).LedInv :=
  h.congr rfl rfl (.inl rfl) fun _ _ => id

theorem State.LedInv.stays (h : s.LedInv) : s.stays.LedInv := h.respond _ _

theorem State.LedInv.setPorts (h : s.LedInv) (p : Ports) : (s.setPorts p).LedInv :=
  h.congr rfl rfl (.inl rfl) fun _ _ => id

theorem State.LedInv.setSched (h : s.LedInv) (ms : List Move) : (s.setSched ms).LedInv :=
  h.congr rfl rfl (.inl rfl) fun _ _ => id

theorem State.LedInv.setCaller (h : s.LedInv) (c : Caller) : (s.setCaller c).LedInv :=
  h.congr rfl rfl (.inl rfl) fun _ _ => id

theorem State.LedInv.countProcessed (h : s.LedInv) : s.countProcessed.LedInv := h.congr rfl rfl (.inl rfl) fun _ _ => id

theorem State.LedInv.countDroppedRender (h : s.LedInv) : s.countDroppedRender.LedInv :=
  h.congr rfl rfl (.inl rfl) fun _ _ => id

/-- RENDER may go anywhere but to a packet's calls. -/
theorem State.LedInv.tickGoTo_bare (h : s.LedInv) {p : TickPosition}
    (hp : p = .idle ∨ p = .read ∨ (∃ n, p = .parse n) ∨ p = .count ∨ ∃ r, p = .drop r) : (s.tickGoTo p).LedInv := by
  refine h.congr rfl rfl (.inl rfl) ?_
  rintro pk ch (rfl | rfl) <;> simp at hp

/-- RENDER may go to the calls of a packet that starts inside a channel of the table (R137). -/
theorem State.LedInv.tickGoTo_routed (h : s.LedInv) {p : TickPosition} {pk : Packet} {ch : Channel}
    (hp : p = .scale pk ch ∨ p = .pixels pk ch) (hch : ch ∈ s.cfg.channels) (hs : pk.offset / 3 < ch.pixels) :
    (s.tickGoTo p).LedInv where
  allowed := h.allowed
  pending := h.pending
  routed pk' ch' hat := by
    obtain ⟨rfl, rfl⟩ : pk = pk' ∧ ch = ch' := by
      rcases hp with rfl | rfl <;> simpa using hat
    exact ⟨hch, hs⟩

theorem State.LedInv.fqRead (h : s.LedInv) {n : Nat} {v : View} {bs : List Byte} {why : Option Reason}
    (hr : s.fqRead n v = .ok (t, bs, why)) : t.LedInv := by
  obtain ⟨-, q, -, rfl⟩ := State.fqRead_ok hr
  exact h.congr (by simp) (by simp) (.inl (by simp)) (by simp)

theorem State.LedInv.limit (h : s.LedInv) {v : View} {count total thr mx mn : Nat}
    (hl : s.limit v count total thr mx mn = .ok t) : t.LedInv := by
  obtain ⟨-, -, px, -, rfl⟩ := State.limit_ok hl
  exact h.congr (by simp) (by simp) (.inl (by simp)) (by simp)

/-- What belongs to RENDER decides the log's legality. -/
theorem State.LedInv.of_sameForRender (h : s.LedInv) (hc : t.cfg = s.cfg) (hs : s.SameForRender t) : t.LedInv :=
  h.congr hc hs.ledLog (.inl hs.flushPending) fun p ch => by rw [hs.tickAt]; exact id

/-- With no flush awaited, legal calls may be issued. -/
theorem State.LedInv.ledCalls (h : s.LedInv) (hf : s.env.flushPending = none) {calls : List LedCall}
    (hcalls : ∀ call ∈ calls, call.allowed s.cfg) : (s.ledCalls calls).LedInv where
  allowed call hcall := (List.mem_append.mp hcall).elim (h.allowed call) (hcalls call)
  pending _ ho := nomatch hf.symm.trans ho
  routed := h.routed

/-- A flush of a channel's output may be issued; it is then the last call (R145). -/
theorem State.LedInv.flushIf (h : s.LedInv) (push : Bool) {ch : Channel} (hch : ch ∈ s.cfg.channels) :
    (s.flushIf push ch.out).LedInv := by
  cases push with
  | false => exact h
  | true =>
    refine ⟨fun call hcall => ?_, fun out ho => ?_, h.routed⟩
    · rcases List.mem_append.mp hcall with hcall | hcall
      · exact h.allowed call hcall
      · obtain rfl := List.mem_singleton.mp hcall
        exact ⟨ch, hch, rfl⟩
    · obtain rfl := Option.some.inj ho
      exact List.getLast?_concat

/-! The steps. -/

theorem opBody_ledInv {i : Instr} (h : s.LedInv) (ht : opBody i s = .ok t) : t.LedInv := by
  cases i with
  | decPush | decFrame | fqWrite | fqSpace | fqHasData | fqUsage | hostRxByte =>
    exact h.of_sameForRender (opBody_growsTo ht).1 (opBody_sameForRender rfl ht)
  | fqRead =>
    obtain ⟨u, bs, why, hu, rfl⟩ := fqRead_ok ht
    exact (h.fqRead hu).respond _ _
  | pcParse => rcases pcParse_ok ht with ⟨r, -, rfl⟩ | ⟨p, -, rfl⟩ <;> exact h.respond _ _
  | bsLimit =>
    obtain ⟨u, hu, rfl⟩ := bsLimit_ok ht
    exact (h.limit hu).respond _ _
  | hostBegin => rcases hostBegin_ok ht with rfl | rfl <;> exact h.congr rfl rfl (.inl rfl) fun _ _ => id
  | hostEnd => rcases hostEnd_ok ht with rfl | rfl <;> exact h.congr rfl rfl (.inl rfl) fun _ _ => id
  | hostRenderTick =>
    obtain rfl := hostRenderTick_ok ht
    split
    · exact (h.tickGoTo_bare (by simp)).respond _ _
    · exact h.respond _ _

theorem exec_ledInv {i : Instr} (h : s.LedInv) (ht : exec i s = .next t) : t.LedInv := by
  rcases exec_next ht with ⟨-, hb⟩ | ⟨-, rfl⟩
  · exact opBody_ledInv h hb
  · exact h.stays

/-- The lookup finds a channel of the table, and the bounds check keeps a start inside it (R136, R137). -/
theorem tickRoute_ledInv (h : s.LedInv) (p : Packet) : (s.tickGoTo (routePacket s.cfg.channels p)).LedInv := by
  rcases routePacket_cases (chs := s.cfg.channels) p with ⟨-, hr⟩ | ⟨ch, hl, hr⟩
  · exact h.tickGoTo_bare (by simp [hr])
  · by_cases hs : ch.pixels ≤ p.offset / 3
    · rw [if_pos hs] at hr
      exact h.tickGoTo_bare (by simp [hr])
    · rw [if_neg hs] at hr
      exact h.tickGoTo_routed (.inl hr) (lookupChannel_some hl).1 (by omega)

/-- The calls of a routed packet are as many as its clamped pixels, and then at most one flush. -/
theorem tickPixels_ledInv (h : s.LedInv) (hf : s.env.flushPending = none) {p : Packet} {ch : Channel} {px : List Byte}
    (ha : s.host.tickAt = .pixels p ch) (hpx : px.length = 3 * clampedCount p ch) :
    (((s.ledCalls (setPixels ch.out (p.offset / 3) px)).flushIf p.push ch.out).tickGoTo .count).LedInv := by
  obtain ⟨hch, hstart⟩ := h.routed p ch (.inr ha)
  have hcalls := h.ledCalls hf (setPixels_allowed hch hpx (start_add_clampedCount_le hstart))
  exact (hcalls.flushIf p.push hch).tickGoTo_bare (by simp)

theorem tickProceed_ledInv (h : s.LedInv) (hf : s.env.flushPending = none) (ht : tickProceed s = .ok t) : t.LedInv := by
  rcases tickProceed_ok ht with ⟨-, rfl⟩ | ⟨-, u, bs, why, hu, rfl⟩ |
    ⟨n, -, ⟨r, -, rfl⟩ | ⟨p, -, rfl⟩⟩ | ⟨p, ch, u, ha, hu, rfl⟩ | ⟨p, ch, px, ha, hpx, rfl⟩ | ⟨-, rfl⟩ | ⟨r, -, rfl⟩
  · exact h.stays
  · exact ((h.fqRead hu).tickGoTo_bare (by simp)).respond _ _
  · exact (h.tickGoTo_bare (by simp)).respond _ _
  · exact (tickRoute_ledInv h p).respond _ _
  · obtain ⟨hch, hstart⟩ := h.routed p ch (.inl ha)
    have hcfg := (State.limit_growsTo hu).1
    exact ((h.limit hu).tickGoTo_routed (.inr rfl) (hcfg ▸ hch) hstart).respond _ _
  · exact (tickPixels_ledInv h hf ha (Memory.readCells_length (State.viewBytes_ok.mp hpx))).respond _ _
  · exact (h.countProcessed.tickGoTo_bare (by simp)).respond _ _
  · exact (h.countDroppedRender.tickGoTo_bare (by simp)).respond _ _

theorem proceed_ledInv {a : Agent} (h : s.LedInv) (ht : proceed a s = .next t) : t.LedInv := by
  rcases proceed_next ht with rfl | ⟨-, -, hp⟩ | ⟨-, hm, hp⟩
  · exact h.stays
  · exact h.of_sameForRender (rxProceed_growsTo hp).1 (rxProceed_sameForRender hp)
  · exact tickProceed_ledInv h (State.no_flush_of_mayProceed hm) hp

theorem execFlushReturn_ledInv (h : s.LedInv) : (execFlushReturn s).LedInv := by
  unfold execFlushReturn
  split
  · exact h.stays
  · exact h.congr rfl rfl (.inr rfl) fun _ _ => id

theorem execPlaceDst_ledInv (h : s.LedInv) (cells : List (Option Byte)) : (execPlaceDst cells s).LedInv := by
  unfold execPlaceDst
  split
  · exact h.setCaller _
  · exact h.stays

theorem execPlacePix_ledInv (h : s.LedInv) (cells : List (Option Byte)) : (execPlacePix cells s).LedInv := by
  unfold execPlacePix
  split
  · exact h.setCaller _
  · exact h.stays

theorem execReadCounter_ledInv (h : s.LedInv) (a : Agent) (c : Counter) : (execReadCounter a c s).LedInv := by
  unfold execReadCounter
  split
  · split <;> exact h.congr rfl rfl (.inl rfl) fun _ _ => id
  · exact h.stays

theorem step_ledInv (h : s.LedInv) (ht : step s = .next t) : t.LedInv := by
  obtain ⟨-, ⟨-, rfl⟩ | ⟨m, rest, -, hm⟩⟩ := step_next ht
  · exact h
  · have hs := h.setSched rest
    rcases hm with ⟨w, p, i, -, -, hx⟩ | ⟨a, -, hx⟩ | ⟨bs, -, rfl⟩ | ⟨-, rfl⟩ | ⟨cs, -, rfl⟩ | ⟨cs, -, rfl⟩ |
      ⟨a, c, -, rfl⟩
    · exact exec_ledInv (hs.setPorts p) hx
    · exact proceed_ledInv hs hx
    · exact hs.congr rfl rfl (.inl rfl) fun _ _ => id
    · exact execFlushReturn_ledInv hs
    · exact execPlaceDst_ledInv hs cs
    · exact execPlacePix_ledInv hs cs
    · exact execReadCounter_ledInv hs a c

end Sys2Proof.Machine

section

open Sys2Proof Sys2Proof.Machine

/-- Settles O10: only a tick's LED driver calls touch the log, for a packet that was routed, and with no flush awaited. -/
theorem stepKeepsLedCallsInBounds : Obligations.StepKeepsLedCallsInBounds := fun _ _ => step_ledInv

end
end

section
/-! PROOFS. What the steps of the HOST operations answer, one rule per operation and position (R130 to R134). -/

namespace Sys2Proof.Machine

/-! When an agent may begin an operation, and go on with one. -/

section

variable {s t : State} {i : Instr}

/-- An operation that is admitted and enabled, and whose body answers, answers that. -/
theorem exec_of_body (hr : s.ready i = true) (hb : opBody i s = .ok t) : exec i s = .next t :=
  (exec_of_ready hr).trans (congrArg outcomeOf hb)

/-- Inside a HOST operation, or awaiting a flush, an agent waits with whatever its port admits (R133, R145). -/
theorem exec_of_not_free (ha : admits i s.ports.agent = true) (hf : s.agentFree s.ports.agent = false) :
    exec i s = .next s.stays := exec_of_not_enabled ha (by simp [State.enabled, hf])

theorem State.rxEnabled_iff :
    s.rxEnabled = true ↔ s.env.input ≠ [] ∧ (s.host.state = .running ∨ 0 < s.host.rxDrain) := by
  simp [State.rxEnabled]

theorem State.rxEnabled_of_ready (h : s.ready .hostRxByte = true) : s.rxEnabled = true := by
  simp only [State.ready, State.enabled, Bool.and_eq_true] at h
  simpa using h.2.2

theorem exec_hostRxByte_of_not_rxEnabled (ha : s.ports.agent = .rx) (h : s.rxEnabled = false) :
    exec .hostRxByte s = .next s.stays := exec_of_not_enabled (ha ▸ rfl) (by simp [State.enabled, h])

theorem State.lock_free_of_ready (h : s.ready i = true) (hi : takesLock i = true) : s.fq.lock = .free := by
  simp only [State.ready, State.enabled, Bool.and_eq_true, hi] at h
  simpa using h.2.1.1

/-- A RENDER that may begin an operation is inside no tick (R134). -/
theorem State.tickAt_idle_of_ready (h : s.ready i = true) (hi : ∀ a, admits i a = (a == .render)) :
    s.host.tickAt = .idle := by
  have ha : s.ports.agent = .render := eq_of_beq ((hi _).symm.trans (State.admits_of_ready h))
  have hf := State.agentFree_of_ready h
  simp only [ha, State.agentFree, Bool.and_eq_true] at hf
  exact eq_of_beq hf.1

theorem proceed_rx_of_mayProceed (h : s.mayProceed .rx = true) : proceed .rx s = outcomeOf (rxProceed s) := if_pos h

theorem proceed_render_of_mayProceed (h : s.mayProceed .render = true) :
    proceed .render s = outcomeOf (tickProceed s) := if_pos h

/-- While a flush is awaited RENDER takes no step of its tick (R145). -/
theorem State.not_mayProceed_of_flush (h : s.env.flushPending ≠ none) : s.mayProceed .render = false := by
  simp [State.mayProceed, Option.isNone_iff_eq_none, h]

theorem State.not_mayProceed_of_idle (hr : s.host.rxAt = .idle) (ht : s.host.tickAt = .idle) (a : Agent) :
    s.mayProceed a = false := by
  cases a with
  | rx => simp only [State.mayProceed, hr]
  | render => simp only [State.mayProceed, ht, Bool.and_false]
  | env => rfl

end

/-! HOST.BEGIN and HOST.END. -/

section

variable {s : State}

theorem hostBegin_of_running (h : s.host.state = .running) : hostBegin s = .ok (s.respond .done none) := if_pos h

theorem hostBegin_of_stopped (h : s.host.state = .stopped) :
    hostBegin s =
      .ok (((s.setStats Stats.zero).setHost { s.host with state := .running, stop := false, rxDrain := 0 }).respond
        .done none) := if_neg (by simp [h])

theorem hostEnd_of_stopped (h : s.host.state = .stopped) : hostEnd s = .ok (s.respond .done none) := if_pos h

theorem hostEnd_of_running (h : s.host.state = .running) :
    hostEnd s =
      .ok ((s.setHost { s.host with state := .stopped, stop := true, rxDrain := s.env.input.length }).respond
        .done none) := if_neg (by simp [h])

end

/-! HOST.RX_BYTE. -/

section

variable {s : State} {b : Byte} {rest frame : List Byte} {d : Dec} {q : Fq} {why : Option Reason}

/-- The oldest byte taken, and DEC as its push leaves it; while Stopped it was one of those left to drain (R132, R133). -/
def State.fed (s : State) (rest : List Byte) (d : Dec) : State :=
  { s with
      env := { s.env with input := rest }
      host := { s.host with rxDrain := if s.host.state = .stopped then s.host.rxDrain - 1 else s.host.rxDrain }
      dec := d }

theorem State.takeInput_setDec : (s.takeInput rest).setDec d = s.fed rest d := by
  cases hs : s.host.state with
  | stopped => rw [State.takeInput_stopped hs, State.fed, if_pos hs]; rfl
  | running => rw [State.takeInput_running hs, State.fed, if_neg (by simp [hs])]; rfl

theorem hostRxByte_of_frame (hi : s.env.input = b :: rest) (hp : s.dec.push s.cfg b = .ok (d, true, why)) :
    hostRxByte s = .ok (((s.fed rest d).rxGoTo .frame).respond (.frameReady true) none) := by
  have hp : (s.takeInput rest).dec.push s.cfg b = .ok (d, true, why) := hp
  simp only [hostRxByte, hi, hp, State.takeInput_setDec]

theorem hostRxByte_of_no_frame (hi : s.env.input = b :: rest) (hp : s.dec.push s.cfg b = .ok (d, false, why)) :
    hostRxByte s = .ok ((s.fed rest d).respond .done why) := by
  have hp : (s.takeInput rest).dec.push s.cfg b = .ok (d, false, why) := hp
  simp only [hostRxByte, hi, hp, State.takeInput_setDec]

/-- A push that completes a frame fails for no reason (R84). -/
theorem Dec.push_ready_why {c : Config} {d d' : Dec} (hp : d.push c b = .ok (d', true, why)) : why = none := by
  rcases Dec.push_ok hp with ⟨-, hp⟩ | ⟨-, hr, -⟩
  · rcases Dec.pushDelimiter_ok hp with ⟨hr, -⟩ | ⟨-, hw, -⟩
    · exact nomatch hr
    · exact hw
  · exact nomatch hr

theorem proceed_rx_of_frame (ha : s.host.rxAt = .frame) (hf : s.dec.frame s.cfg = .ok frame) :
    proceed .rx s = .next ((s.rxGoTo (.write frame)).respond (.frame s.dec.outLen frame) none) := by
  have hm : s.mayProceed .rx = true := by simp only [State.mayProceed, ha]
  simp only [proceed_rx_of_mayProceed hm, rxProceed, ha, rxFrame, hf, outcomeOf_ok]

theorem proceed_rx_of_write (hl : s.fq.lock = .free) (ha : s.host.rxAt = .write frame)
    (hw : s.fq.write s.cfg (frame.map some) = .ok (q, why)) :
    proceed .rx s = .next (((s.setFq q).rxGoTo (.count why)).respond (.wrOk why.isNone) why) := by
  have hm : s.mayProceed .rx = true := State.mayProceed_rx hl (by simp [ha])
  simp only [proceed_rx_of_mayProceed hm, rxProceed, ha, rxWrite, State.fqWrite, hw, outcomeOf_ok]

theorem proceed_rx_of_count (ha : s.host.rxAt = .count why) : proceed .rx s = .next (rxCount why s) := by
  have hm : s.mayProceed .rx = true := by simp only [State.mayProceed, ha]
  simp only [proceed_rx_of_mayProceed hm, rxProceed, ha, outcomeOf_ok]

/-- The three later steps of HOST.RX_BYTE read the frame, hand it to FQ and count it (R133). -/
theorem State.proceeds_rx_of_frame (hl : s.fq.lock = .free) (ha : s.host.rxAt = .frame)
    (hf : s.dec.frame s.cfg = .ok frame) (hw : s.fq.write s.cfg (frame.map some) = .ok (q, why)) :
    s.proceeds .rx 3 = some ((((s.setFq q).countFrame why).rxGoTo .idle).respond .done why) := by
  have hframe := proceed_rx_of_frame ha hf
  have hwrite := proceed_rx_of_write (s := (s.rxGoTo (.write frame)).respond (.frame s.dec.outLen frame) none) hl rfl hw
  rw [State.proceeds_succ hframe, State.proceeds_succ hwrite, State.proceeds_succ (proceed_rx_of_count rfl),
    State.proceeds_zero]
  cases why <;> rfl

/-- Counting a frame changes the counters alone. -/
theorem State.countFrame_frame (s : State) (why : Option Reason) :
    s.countFrame why = { s with stats := (s.countFrame why).stats } := by
  cases why <;> rfl

end

/-! HOST.RENDER_TICK. -/

section

variable {s : State} {n : Nat} {bs px : List Byte} {q : Fq} {p : Packet} {ch : Channel} {r : Reason}
  {why : Option Reason}

theorem hostRenderTick_of_empty (hu : s.fq.used = 0) : hostRenderTick s = .ok (s.respond .done none) :=
  if_neg (by simp [Fq.hasData, hu])

theorem hostRenderTick_of_data (hu : 0 < s.fq.used) :
    hostRenderTick s = .ok ((s.tickGoTo .read).respond (.hasData true) none) := if_pos (by simp [Fq.hasData, hu])

/-- The whole of `host.rbuf` has room for `RENDER_BUF_CAP` bytes. -/
theorem State.checkView_rbufView (s : State) (h : n ≤ s.cfg.renderBufCap) : s.checkView (rbufView s.cfg) n = .ok () :=
  State.checkView_ok.mpr ⟨h, .inr (by simpa [rbufView, State.buf] using h)⟩

theorem proceed_render_of_read (hl : s.fq.lock = .free) (hf : s.env.flushPending = none) (ha : s.host.tickAt = .read)
    (hq : s.fq.read s.cfg s.cfg.renderBufCap = .ok (q, bs, why)) :
    proceed .render s =
      .next ((((s.setFq q).writeView (rbufView s.cfg) bs).tickGoTo (.parse bs.length)).respond
        (.read bs.length bs) why) := by
  have hm : s.mayProceed .render = true := State.mayProceed_render hl hf (by simp [ha])
  simp only [proceed_render_of_mayProceed hm, tickProceed, ha, tickRead, State.fqRead,
    s.checkView_rbufView (le_refl _), hq, outcomeOf_ok]

section

variable (hf : s.env.flushPending = none)

include hf

theorem proceed_render_of_parse_fail (ha : s.host.tickAt = .parse n)
    (hp : s.parse (rbufView s.cfg) n = .ok (.error r)) :
    proceed .render s = .next ((s.tickGoTo (.drop r)).respond .parseFail (some r)) := by
  have hm : s.mayProceed .render = true := by simp [State.mayProceed, ha, hf]
  simp only [proceed_render_of_mayProceed hm, tickProceed, ha, tickParse, hp, outcomeOf_ok]

theorem proceed_render_of_parse_packet (ha : s.host.tickAt = .parse n)
    (hp : s.parse (rbufView s.cfg) n = .ok (.ok p)) :
    proceed .render s = .next ((s.tickGoTo (routePacket s.cfg.channels p)).respond (.packet p) none) := by
  have hm : s.mayProceed .render = true := by simp [State.mayProceed, ha, hf]
  simp only [proceed_render_of_mayProceed hm, tickProceed, ha, tickParse, hp, outcomeOf_ok]

theorem proceed_render_of_scale {t : State} (ha : s.host.tickAt = .scale p ch)
    (hl : s.limit p.payload (clampedCount p ch) ch.pixels bsThresholdDefault bsMaxScaleDefault bsMinScaleDefault =
      .ok t) : proceed .render s = .next ((t.tickGoTo (.pixels p ch)).respond .done none) := by
  have hm : s.mayProceed .render = true := by simp [State.mayProceed, ha, hf]
  simp only [proceed_render_of_mayProceed hm, tickProceed, ha, tickScale, hl, outcomeOf_ok]

theorem proceed_render_of_pixels (ha : s.host.tickAt = .pixels p ch)
    (hpx : s.viewBytes p.payload (3 * clampedCount p ch) = .ok px) :
    proceed .render s =
      .next ((((s.ledCalls (setPixels ch.out (p.offset / 3) px)).flushIf p.push ch.out).tickGoTo .count).respond
        (if p.push then .flushing else .underway) none) := by
  have hm : s.mayProceed .render = true := by simp [State.mayProceed, ha, hf]
  simp only [proceed_render_of_mayProceed hm, tickProceed, ha, tickPixels, hpx, outcomeOf_ok]

theorem proceed_render_of_count (ha : s.host.tickAt = .count) : proceed .render s = .next (tickCount s) := by
  have hm : s.mayProceed .render = true := by simp [State.mayProceed, ha, hf]
  simp only [proceed_render_of_mayProceed hm, tickProceed, ha, outcomeOf_ok]

theorem proceed_render_of_drop (ha : s.host.tickAt = .drop r) : proceed .render s = .next (tickDrop r s) := by
  have hm : s.mayProceed .render = true := by simp [State.mayProceed, ha, hf]
  simp only [proceed_render_of_mayProceed hm, tickProceed, ha, outcomeOf_ok]

end

end

/-! On the invariant's states nothing stops. -/

section

variable {s : State} {i : Instr}

theorem exec_answers (ha : admits i s.ports.agent = true) (hb : ∃ t, opBody i s = .ok t) : ∃ t, exec i s = .next t := by
  obtain ⟨t, ht⟩ := hb
  cases he : s.enabled i with
  | true => exact ⟨t, exec_of_body (by simp [State.ready, ha, he]) ht⟩
  | false => exact ⟨s.stays, exec_of_not_enabled ha he⟩

theorem hostBegin_answers (s : State) : ∃ t, hostBegin s = .ok t := by
  unfold hostBegin
  split <;> exact ⟨_, rfl⟩

theorem hostEnd_answers (s : State) : ∃ t, hostEnd s = .ok t := by
  unfold hostEnd
  split <;> exact ⟨_, rfl⟩

theorem hostRenderTick_answers (s : State) : ∃ t, hostRenderTick s = .ok t := by
  unfold hostRenderTick
  split <;> exact ⟨_, rfl⟩

theorem State.Inv.hostRxByte_answers (h : s.Inv) : ∃ t, hostRxByte s = .ok t := by
  cases hi : s.env.input with
  | nil => exact ⟨s.stays, by simp only [hostRxByte, hi]⟩
  | cons b rest =>
    obtain ⟨⟨d, ready, why⟩, hp⟩ := h.dec.push_answers b
    cases ready with
    | true => exact ⟨_, hostRxByte_of_frame hi hp⟩
    | false => exact ⟨_, hostRxByte_of_no_frame hi hp⟩

/-- DEC.FRAME comes only while the window is open, and FQ.WRITE of bytes always answers. -/
theorem State.Inv.proceed_rx_answers (h : s.Inv) : ∃ t, proceed .rx s = .next t := by
  cases hp : s.host.rxAt with
  | idle => exact ⟨_, proceed_of_not (by simp only [State.mayProceed, hp])⟩
  | frame =>
    obtain ⟨frame, hf, -⟩ := h.dec.frame_answers (h.loops.rx_frame hp)
    exact ⟨_, proceed_rx_of_frame hp hf⟩
  | write frame =>
    obtain ⟨⟨q, why⟩, hw⟩ := Fq.write_answers s.cfg s.fq frame
    exact ⟨_, proceed_rx_of_write h.fq.lock_eq hp hw⟩
  | count why => exact ⟨_, proceed_rx_of_count hp⟩

/-- A routed packet's clamped pixels are cells of its payload that hold values (R138). -/
theorem State.Routed.held_clamped {p : Packet} {ch : Channel} (h : s.Routed p ch) :
    s.checkView p.payload (3 * clampedCount p ch) = .ok () ∧
      ∃ px, Memory.readCells (s.buf p.payload.buf).cells p.payload.base (3 * clampedCount p ch) = some px := by
  have hc : clampedCount p ch ≤ p.payloadLen / 3 := h.pixels ▸ Nat.min_le_left _ _
  have hfits := h.fits
  rw [h.view]
  refine ⟨State.checkView_ok.mpr ⟨?_, .inr ?_⟩, Memory.readCells_held_sub h.held le_rfl ?_⟩
  · simp only
    omega
  · simp only [State.buf]
    omega
  · simp only
    omega

/-- Each position of a tick is one that its next transaction can be taken from (R134, R145). -/
theorem State.Inv.proceed_render_answers (h : s.Inv) : ∃ t, proceed .render s = .next t := by
  by_cases hf : s.env.flushPending = none
  · cases hp : s.host.tickAt with
    | idle => exact ⟨_, proceed_of_not (by simp only [State.mayProceed, hp, Bool.and_false])⟩
    | read =>
      obtain ⟨q, bs, why, hq, -⟩ := h.fq.read h.qCap_le s.cfg.renderBufCap
      exact ⟨_, proceed_render_of_read h.fq.lock_eq hf hp hq⟩
    | parse n =>
      obtain ⟨hn, bs, hbs⟩ := h.loops.tick_parse n hp
      obtain ⟨r | p, hparse⟩ := State.parse_answers (v := rbufView s.cfg) (s.checkView_rbufView hn) hbs
      · exact ⟨_, proceed_render_of_parse_fail hf hp hparse⟩
      · exact ⟨_, proceed_render_of_parse_packet hf hp hparse⟩
    | scale p ch =>
      obtain ⟨hc, px, hpx⟩ := (h.loops.tick_route p ch (.inl hp)).held_clamped
      exact ⟨_, proceed_render_of_scale hf hp (State.limit_answers (by decide) hc hpx)⟩
    | pixels p ch =>
      obtain ⟨-, px, hpx⟩ := (h.loops.tick_route p ch (.inr hp)).held_clamped
      exact ⟨_, proceed_render_of_pixels hf hp (State.viewBytes_ok.mpr hpx)⟩
    | count => exact ⟨_, proceed_render_of_count hf hp⟩
    | drop r => exact ⟨_, proceed_render_of_drop hf hp⟩
  · exact ⟨_, proceed_of_not (State.not_mayProceed_of_flush hf)⟩

end

end Sys2Proof.Machine

section

open Sys2Proof Sys2Proof.Machine

/-- Settles O49: the frame that the push exposes is the one DEC.FRAME reads, and FQ accepts it exactly when it fits. -/
theorem rxByteQueuesACompletedFrame : Obligations.RxByteQueuesACompletedFrame := by
  intro s b rest frame d why es hr hinv hes hi hp hframe
  have hidle := State.rxAt_idle_of_ready hr fun _ => rfl
  have hd := hinv.dec.push hinv.accCap_pos hp
  obtain ⟨frame', hread, hlen, hpos, hframe'⟩ := hd.frame_answers (Dec.push_ready hp)
  obtain rfl : frame' = frame := Option.some.inj (hframe'.symm.trans hframe)
  obtain ⟨⟨q, why'⟩, hw⟩ := Fq.write_answers s.cfg s.fq frame'
  have hproceeds := State.proceeds_rx_of_frame
    (s := ((s.fed rest d).rxGoTo .frame).respond (.frameReady true) none) hinv.fq.lock_eq rfl hread hw
  refine ⟨_, _, exec_of_body hr (hostRxByte_of_frame hi hp), hproceeds, ?_⟩
  rw [State.countFrame_frame]
  refine ⟨rfl, rfl, ?_, rfl, rfl, rfl, fun hfits => ?_, fun hfull => ?_⟩
  · simp only [State.respond_host, State.rxGoTo_host, State.setFq_host, State.fed, ← hidle]
  · obtain ⟨rfl, rfl⟩ : s.fq.stored s.cfg frame' = q ∧ none = why' := by
      simpa [Fq.write_of_fits (hlen ▸ hpos) hfits] using hw
    exact ⟨hes.append hinv.fq.ring_ok.1 (hlen ▸ hpos) hfits, rfl, rfl⟩
  · have hreason : fqWriteReason s.cfg s.fq.used (frame'.map some).length = some .fqNoSpace := by
      rw [List.length_map, fqWriteReason_of_refused (.inr (.inr hfull)), if_neg (by omega)]
    obtain ⟨rfl, rfl⟩ : s.fq = q ∧ some .fqNoSpace = why' := by
      simpa [Fq.write_of_refused hreason] using hw
    exact ⟨rfl, rfl, rfl⟩

/-- Settles O51: DEC.PUSH, DEC.FRAME and FQ.READ answer on R26's and R30's states, and PC.PARSE, BS.LIMIT and the LED driver
calls read cells that hold values. -/
theorem hostOperationsNeverStop : Obligations.HostOperationsNeverStop := by
  intro s h
  refine ⟨fun ha => ⟨exec_answers (ha ▸ rfl) (hostBegin_answers s), exec_answers (ha ▸ rfl) (hostEnd_answers s)⟩,
    fun ha => exec_answers (ha ▸ rfl) h.hostRxByte_answers,
    fun ha => exec_answers (ha ▸ rfl) (hostRenderTick_answers s), fun a => ?_⟩
  cases a with
  | rx => exact h.proceed_rx_answers
  | render => exact h.proceed_render_answers
  | env => exact ⟨_, proceed_of_not rfl⟩

/-- Settles O46: the run state alone decides what HOST.BEGIN does. -/
theorem hostBeginStartsThePipeline : Obligations.HostBeginStartsThePipeline := fun _ hr =>
  ⟨fun hs => exec_of_body hr (hostBegin_of_stopped hs), fun hs => exec_of_body hr (hostBegin_of_running hs)⟩

/-- Settles O47: the run state alone decides what HOST.END does. -/
theorem hostEndStopsThePipeline : Obligations.HostEndStopsThePipeline := fun _ hr =>
  ⟨fun hs => exec_of_body hr (hostEnd_of_running hs), fun hs => exec_of_body hr (hostEnd_of_stopped hs)⟩

/-- Settles O48: an RX that may begin the operation is idle, and stays so unless the push completes a frame. -/
theorem rxByteFeedsTheDecoder : Obligations.RxByteFeedsTheDecoder := by
  intro s b rest d ready why hr hi hp
  cases ready with
  | true =>
    obtain rfl := Dec.push_ready_why hp
    exact exec_of_body hr (hostRxByte_of_frame hi hp)
  | false =>
    have hidle : RxPosition.idle = s.host.rxAt := (State.rxAt_idle_of_ready hr fun _ => rfl).symm
    refine (exec_of_body hr (hostRxByte_of_no_frame hi hp)).trans ?_
    simp [State.fed, State.respond, hidle]

/-- Settles O50: a receive step needs a byte and, while Stopped, one left to drain, and takes one of each. -/
theorem rxStepsAfterEndAreBounded : Obligations.RxStepsAfterEndAreBounded := by
  intro s ha
  refine ⟨fun hwait => ?_, fun t ht hresp hs => ?_⟩
  · by_cases hidle : s.host.rxAt = .idle
    · refine exec_hostRxByte_of_not_rxEnabled ha (Bool.eq_false_iff.mpr fun hen => ?_)
      obtain ⟨hinput, hrun⟩ := State.rxEnabled_iff.mp hen
      rcases hwait with h | ⟨hs, hd⟩ | h
      · exact hinput h
      · simp [hs, hd] at hrun
      · exact h hidle
    · exact exec_of_not_free (ha ▸ rfl) (by simp [ha, State.agentFree, hidle])
  · rcases exec_next ht with ⟨hr, hb⟩ | ⟨-, rfl⟩
    · obtain ⟨-, hrun⟩ := State.rxEnabled_iff.mp (State.rxEnabled_of_ready hr)
      have hdrain : 0 < s.host.rxDrain := by simpa [hs] using hrun
      rcases hostRxByte_ok hb with ⟨-, rfl⟩ | ⟨b, rest, d, ready, why, hi, -, rfl⟩
      · exact absurd rfl hresp
      · rw [State.takeInput_setDec, hi]
        cases ready with
        | true => exact ⟨hdrain, by simp [State.fed, hs]; omega, rfl⟩
        | false => exact ⟨hdrain, by simp [State.fed, hs]; omega, rfl⟩
    · exact absurd rfl hresp

/-- Settles O52: FQ.HASDATA is false exactly on an empty queue (R105). -/
theorem renderTickLooksAtTheQueueFirst : Obligations.RenderTickLooksAtTheQueueFirst := fun _ hr =>
  ⟨fun hu => exec_of_body hr (hostRenderTick_of_empty hu),
    fun hu => exec_of_body hr (hostRenderTick_of_data hu)⟩

/-- Settles O58: no receive step is enabled, the tick finds the queue empty, and neither loop is inside an operation. -/
theorem theLoopsDoNothingAfterTheEndOfARun : Obligations.TheLoopsDoNothingAfterTheEndOfARun := by
  intro s h hl
  obtain ⟨hrx, hrxAt⟩ := h.no_rx
  obtain ⟨htick, hflush⟩ := h.no_tick
  refine ⟨fun ha => exec_hostRxByte_of_not_rxEnabled ha hrx, fun ha => ?_,
    fun a => proceed_of_not (State.not_mayProceed_of_idle hrxAt htick a)⟩
  have hfree : s.agentFree s.ports.agent = true := by simp [ha, State.agentFree, htick, hflush]
  have hready : s.ready .hostRenderTick = true := State.ready_of_free hl hfree (ha ▸ rfl) (by decide)
  have hempty : s.fq.used = 0 := by simpa [Fq.hasData] using h.no_data
  exact exec_of_body hready (hostRenderTick_of_empty hempty)

end
end

section
/-! PROOFS. A flush that has not returned (R145): RX neither reads nor writes it, so its steps are the same with and without one. -/

namespace Sys2Proof.Machine

variable {s t : State} {i : Instr} {f : Option Nat}

/-- The same state with another flush awaited, or none. -/
def State.withFlush (s : State) (f : Option Nat) : State := s.setEnv { s.env with flushPending := f }

theorem State.withFlush_self (h : s.env.flushPending = f) : s.withFlush f = s := by
  subst h
  rfl

theorem hostRxByte_withFlush (h : hostRxByte s = .ok t) : hostRxByte (s.withFlush f) = .ok (t.withFlush f) := by
  rcases hostRxByte_ok h with ⟨hi, rfl⟩ | ⟨b, rest, d, ready, why, hi, hp, rfl⟩
  · have hi : (s.withFlush f).env.input = [] := hi
    simp only [hostRxByte, hi]
    rfl
  · rw [State.takeInput_setDec]
    cases ready with
    | true => exact hostRxByte_of_frame (s := s.withFlush f) hi hp
    | false => exact hostRxByte_of_no_frame (s := s.withFlush f) hi hp

theorem opBody_withFlush (ha : admits i .rx = true) (h : opBody i s = .ok t) :
    opBody i (s.withFlush f) = .ok (t.withFlush f) := by
  cases i with
  | fqRead | pcParse | bsLimit | hostRenderTick | hostBegin | hostEnd => exact absurd ha (by decide)
  | decPush =>
    obtain ⟨d, ready, why, hp, rfl⟩ := decPush_ok h
    have hp : (s.withFlush f).dec.push (s.withFlush f).cfg (s.withFlush f).ports.inByte = _ := hp
    simp only [opBody, decPush, hp]
    rfl
  | decFrame =>
    obtain ⟨bs, hb, rfl⟩ := decFrame_ok h
    have hb : (s.withFlush f).dec.frame (s.withFlush f).cfg = _ := hb
    simp only [opBody, decFrame, hb]
    rfl
  | fqWrite =>
    obtain ⟨q, why, hq, rfl⟩ := fqWrite_ok h
    have hq : (s.withFlush f).fq.write (s.withFlush f).cfg (s.withFlush f).ports.wrData = _ := hq
    simp only [opBody, fqWrite, State.fqWrite, hq]
    rfl
  | fqSpace | fqHasData | fqUsage =>
    obtain rfl := Except.ok.inj h
    rfl
  | hostRxByte => exact hostRxByte_withFlush h

/-- What RX may begin does not depend on a flush (R145). -/
theorem State.enabled_withFlush (ha : s.ports.agent = .rx) (i : Instr) : (s.withFlush f).enabled i = s.enabled i := by
  have ha' : (s.withFlush f).ports.agent = .rx := ha
  simp only [State.enabled, ha, ha']
  rfl

theorem exec_withFlush (ha : s.ports.agent = .rx) (h : exec i s = .next t) :
    exec i (s.withFlush f) = .next (t.withFlush f) := by
  have hadm : admits i s.ports.agent = true := by
    by_contra hn
    simp [exec_of_not_admitted (Bool.eq_false_iff.mpr hn)] at h
  have hen := State.enabled_withFlush (f := f) ha i
  rcases exec_next h with ⟨hr, hb⟩ | ⟨he, rfl⟩
  · have hr' : (s.withFlush f).ready i = true := (congrArg (admits i s.ports.agent && ·) hen).trans hr
    exact exec_of_body hr' (opBody_withFlush (ha ▸ hadm) hb)
  · exact exec_of_not_enabled (s := s.withFlush f) hadm (hen.trans he)

theorem proceed_rx_withFlush (h : proceed .rx s = .next t) : proceed .rx (s.withFlush f) = .next (t.withFlush f) := by
  by_cases hm : s.mayProceed .rx = true
  · rw [proceed_rx_of_mayProceed hm, outcomeOf_next] at h
    rcases rxProceed_ok h with ⟨ha, -⟩ | ⟨ha, frame, hf, rfl⟩ | ⟨frame, q, why, ha, hw, rfl⟩ | ⟨why, ha, rfl⟩
    · simp [State.mayProceed, ha] at hm
    · exact proceed_rx_of_frame (s := s.withFlush f) ha hf
    · have hl : s.fq.lock = .free := by simpa [State.mayProceed, ha] using hm
      exact proceed_rx_of_write (s := s.withFlush f) hl ha hw
    · refine (proceed_rx_of_count (s := s.withFlush f) ha).trans ?_
      cases why <;> rfl
  · obtain rfl : s.stays = t := Host.Outcome.next.inj ((proceed_of_not (Bool.eq_false_iff.mpr hm)).symm.trans h)
    exact proceed_of_not (s := s.withFlush f) (Bool.eq_false_iff.mpr hm)

theorem execFlushReturn_of_some {out : Nat} (h : s.env.flushPending = some out) :
    execFlushReturn s = (s.withFlush none).respond .underway none := by
  simp only [execFlushReturn, h]
  rfl

end Sys2Proof.Machine

section

open Sys2Proof Sys2Proof.Machine

/-- Settles O56: a flush awaited is in the gate of RENDER's steps alone, and RX's steps neither read nor write it. -/
theorem pendingFlushesAndOpenOperationsHoldTheirAgent :
    Obligations.PendingFlushesAndOpenOperationsHoldTheirAgent := by
  intro s
  refine ⟨fun i ha hopen => ?_, fun hf => proceed_of_not (State.not_mayProceed_of_flush hf),
    fun out hout => ⟨fun i t ha ht => ?_, fun t ht => ?_, fun rest hv hs => ?_⟩,
    fun ha hf => proceed_render_of_count hf ha⟩
  · refine exec_of_not_free ha (Bool.eq_false_iff.mpr fun hfree => ?_)
    rcases hopen with ⟨hag, hat⟩ | ⟨hag, hat⟩
    · exact hat (by simpa [hag, State.agentFree] using hfree)
    · obtain ⟨h1, h2⟩ : s.host.tickAt = .idle ∧ s.env.flushPending = none := by
        simpa [hag, State.agentFree] using hfree
      exact hat.elim (absurd h1) (absurd h2)
  · have h := exec_withFlush (s := s.withFlush none) (f := some out) ha ht
    exact (congrArg (exec i) (State.withFlush_self hout)).symm.trans h
  · have h := proceed_rx_withFlush (s := s.withFlush none) (f := some out) ht
    exact (congrArg (proceed .rx) (State.withFlush_self hout)).symm.trans h
  · exact (step_of_sched_cons hv hs rfl).trans (congrArg _ (execFlushReturn_of_some hout))

end
end

section
/-! PROOFS. A whole HOST.RENDER_TICK with no other step between its own (R134 to R141): FQ.READ of the oldest entry, PC.PARSE as a
function of the entry's bytes, and the two ways the tick goes on, a drop or the packet's scaled pixels. -/

namespace Sys2Proof.Machine

/-! FQ.READ, and the tick that drops what it read. -/

section

variable {s : State} {q : Fq} {bs : List Byte} {why : Option Reason}

/-- The state after a tick's FQ.READ. -/
def State.afterRead (s : State) (q : Fq) (bs : List Byte) (why : Option Reason) : State :=
  (((s.setFq q).writeView (rbufView s.cfg) bs).tickGoTo (.parse bs.length)).respond (.read bs.length bs) why

/-- The bytes read are the first of `host.rbuf` (R134). -/
theorem State.readCells_afterRead (hw : Memory.wf s.host.rbuf) :
    Memory.readCells (s.afterRead q bs why).host.rbuf 0 bs.length = some bs :=
  Memory.readCells_writeSpan _ _ _ hw

variable (hr : s.ready .hostRenderTick = true) (hu : 0 < s.fq.used)
  (hq : s.fq.read s.cfg s.cfg.renderBufCap = .ok (q, bs, why))

include hr hu hq

/-- A tick on a queue that holds something reads the oldest entry. -/
theorem exec_hostRenderTick_then_read :
    ∃ t, exec .hostRenderTick s = .next t ∧ proceed .render t = .next (s.afterRead q bs why) := by
  have hl := State.lock_free_of_ready hr rfl
  have hf := State.no_flush_of_ready hr fun _ => rfl
  exact ⟨_, exec_of_body hr (hostRenderTick_of_data hu),
    proceed_render_of_read (s := (s.tickGoTo .read).respond (.hasData true) none) hl hf rfl hq⟩

/-- A tick that drops after PC.PARSE is over with the counter's step. -/
theorem exec_hostRenderTick_then_drop {r : Reason} {resp : Response} {why' : Option Reason}
    (hd : proceed .render (s.afterRead q bs why) =
      .next (((s.afterRead q bs why).tickGoTo (.drop r)).respond resp why')) :
    ∃ t, exec .hostRenderTick s = .next t ∧ t.proceeds .render 3 = some (tickDrop r (s.afterRead q bs why)) := by
  obtain ⟨t, hexec, hread⟩ := exec_hostRenderTick_then_read hr hu hq
  refine ⟨t, hexec, ?_⟩
  have hf := State.no_flush_of_ready hr fun _ => rfl
  have hdrop := proceed_render_of_drop (s := ((s.afterRead q bs why).tickGoTo (.drop r)).respond resp why') hf rfl
  rw [State.proceeds_succ hread, State.proceeds_succ hd, State.proceeds_succ hdrop, State.proceeds_zero]
  rfl

end

/-- A tick that reads an entry that fits `host.rbuf` takes it off the queue. -/
theorem Fq.Holds.read_taken {c : Config} {q : Fq} {e : List Byte} {es : List (List Byte)} {n : Nat}
    (h : q.Holds c (e :: es)) (hc : c.qCap ≤ 65537) (hl : e.length ≤ n) :
    q.read c n = .ok (q.taken c e.length, e, none) := by
  rw [h.read_cons hc, if_pos hl, Fq.taken]

/-- A RENDER outside a tick stays where it is when it goes there. -/
theorem State.tickGoTo_self {s : State} {p : TickPosition} (h : s.host.tickAt = p) : s.tickGoTo p = s := by
  subst h
  rfl

/-! PC.PARSE of a byte sequence. -/

section

variable {s : State} {v : View} {e : List Byte}

/-- The first check of PC.PARSE that a byte sequence fails (R117). -/
def failedCheck (e : List Byte) : Option Reason :=
  if e.length < 10 then some .short
  else if (e.getD 0 0).toNat / 64 ≠ 1 then some .version
  else if e.getD 2 0 ≠ 0x00#8 ∧ e.getD 2 0 ≠ 0x01#8 then some .dataType
  else if be16 (e.getD 8 0) (e.getD 9 0) = 0 ∨ 1440 < be16 (e.getD 8 0) (e.getD 9 0) then some .payloadLength
  else if e.length < 10 + be16 (e.getD 8 0) (e.getD 9 0) then some .truncated
  else none

/-- The Packet of a byte sequence that passes the checks, parsed in the operand `v` (R79). -/
def packetIn (v : View) (e : List Byte) : Packet where
  flags := e.getD 0 0
  version := flagsVersion (e.getD 0 0)
  push := flagsPush (e.getD 0 0)
  sequence := sequenceOf (e.getD 1 0)
  dataType := e.getD 2 0
  dest := e.getD 3 0
  offset := be32 (e.getD 4 0) (e.getD 5 0) (e.getD 6 0) (e.getD 7 0)
  payloadLen := be16 (e.getD 8 0) (e.getD 9 0)
  payload := { buf := v.buf, base := v.base + hdrSize, size := be16 (e.getD 8 0) (e.getD 9 0) }
  pixelCount := be16 (e.getD 8 0) (e.getD 9 0) / 3

/-- A byte sequence passes every check (R111 to R115). -/
theorem failedCheck_eq_none : failedCheck e = none ↔
    10 + be16 (e.getD 8 0) (e.getD 9 0) ≤ e.length ∧ (e.getD 0 0).toNat / 64 = 1 ∧
      (e.getD 2 0 = 0x00#8 ∨ e.getD 2 0 = 0x01#8) ∧ 1 ≤ be16 (e.getD 8 0) (e.getD 9 0) ∧
      be16 (e.getD 8 0) (e.getD 9 0) ≤ 1440 := by
  unfold failedCheck
  constructor
  · intro h
    split_ifs at h with hshort hversion htype hlen htrunc
    exact ⟨by omega, not_not.mp hversion, by tauto, by omega, by omega⟩
  · rintro ⟨hl, hv, ht, h1, h2⟩
    rw [if_neg (by omega), if_neg (not_not.mpr hv), if_neg (by tauto), if_neg (by omega), if_neg (by omega)]

section

variable (hc : s.checkView v e.length = .ok ())
  (h : Memory.readCells (s.buf v.buf).cells v.base e.length = some e)

include h

theorem State.viewByte_getD {k : Nat} (hk : k < e.length) : s.viewByte v k = .ok (e.getD k 0) :=
  State.viewByte_of_readCells h (by simp [List.getD_eq_getElem?_getD, hk])

/-- The header's first three checks passed (R111 to R113). -/
theorem State.parseHeader_getD (hn : 10 ≤ e.length) (hv : (e.getD 0 0).toNat / 64 = 1)
    (ht : e.getD 2 0 = 0x00#8 ∨ e.getD 2 0 = 0x01#8) :
    s.parseHeader v e.length = s.parseLengths v e.length (e.getD 0 0) (e.getD 2 0) :=
  State.parseHeader_of_checks hn (State.viewByte_getD h (by omega)) (flagsVersion_eq_marker.mpr hv)
    (State.viewByte_getD h (by omega)) (dataTypeOk_iff.mpr ht)

include hc

/-- PC.PARSE of an operand whose first cells hold bytes that fail a check (R117). -/
theorem State.parse_of_failedCheck {r : Reason} (hr : failedCheck e = some r) : s.parse v e.length = .ok (.error r) := by
  rw [State.parse_of_checkView hc]
  unfold failedCheck at hr
  split_ifs at hr with hshort hversion htype hlen htrunc
  all_goals obtain rfl := Option.some.inj hr
  · exact State.parseHeader_of_short hshort
  · exact State.parseHeader_of_version (Nat.not_lt.mp hshort) (State.viewByte_getD h (by omega))
      (mt flagsVersion_eq_marker.mp hversion)
  · exact State.parseHeader_of_dataType (Nat.not_lt.mp hshort) (State.viewByte_getD h (by omega))
      (flagsVersion_eq_marker.mpr (not_not.mp hversion)) (State.viewByte_getD h (by omega))
      (mt dataTypeOk_iff.mp (not_or.mpr htype))
  · rw [State.parseHeader_getD h (Nat.not_lt.mp hshort) (not_not.mp hversion) (by tauto)]
    exact State.parseLengths_of_payloadLength (State.viewByte_getD h (by omega)) (State.viewByte_getD h (by omega))
      (mt payloadLenOk_iff.mp (by omega))
  · rw [State.parseHeader_getD h (Nat.not_lt.mp hshort) (not_not.mp hversion) (by tauto)]
    exact State.parseLengths_of_truncated (State.viewByte_getD h (by omega)) (State.viewByte_getD h (by omega))
      (payloadLenOk_iff.mpr (by omega)) htrunc

/-- PC.PARSE of an operand whose first cells hold bytes that pass every check (R110, R116). -/
theorem State.parse_of_packetIn (hn : failedCheck e = none) : s.parse v e.length = .ok (.ok (packetIn v e)) := by
  obtain ⟨hlen, hv, ht, h1, h2⟩ := failedCheck_eq_none.mp hn
  have hbyte (k : Nat) (hk : k < 10) : s.viewByte v k = .ok (e.getD k 0) := State.viewByte_getD h (by omega)
  rw [State.parse_of_checkView hc, State.parseHeader_getD h (by omega) hv ht]
  exact State.parseLengths_of_checks (hbyte 8 (by decide)) (hbyte 9 (by decide)) (payloadLenOk_iff.mpr ⟨h1, h2⟩) hlen
    (State.packetOf_of_viewBytes (hbyte 1 (by decide)) (hbyte 3 (by decide)) (hbyte 4 (by decide)) (hbyte 5 (by decide))
      (hbyte 6 (by decide)) (hbyte 7 (by decide)))

end

theorem packet_length (b0 b1 b2 b3 b4 b5 b6 b7 b8 b9 : Byte) (payload extra : List Byte) :
    ([b0, b1, b2, b3, b4, b5, b6, b7, b8, b9] ++ payload ++ extra).length = 10 + payload.length + extra.length := by
  simp only [List.length_append, List.length_cons, List.length_nil]

/-- A header and a payload that pass the checks, whatever bytes follow them. -/
theorem failedCheck_of_packet {b0 b1 b2 b3 b4 b5 b6 b7 b8 b9 : Byte} {payload extra : List Byte}
    (hv : b0.toNat / 64 = 1) (ht : b2 = 0x00#8 ∨ b2 = 0x01#8) (hl : payload.length = be16 b8 b9)
    (h1 : 1 ≤ payload.length) (h2 : payload.length ≤ 1440) :
    failedCheck ([b0, b1, b2, b3, b4, b5, b6, b7, b8, b9] ++ payload ++ extra) = none := by
  refine failedCheck_eq_none.mpr ⟨?_, hv, ht, hl ▸ h1, hl ▸ h2⟩
  show 10 + be16 b8 b9 ≤ _
  rw [packet_length, hl]
  exact Nat.le_add_right _ _

end

/-! PC.PARSE of the bytes a tick has read. -/

section

variable {s : State} {q : Fq} {e : List Byte} {why : Option Reason} (hf : s.env.flushPending = none)
  (hw : Memory.wf s.host.rbuf) (hl : e.length ≤ s.cfg.renderBufCap)

include hf hw hl

theorem proceed_render_afterRead_of_failedCheck {r : Reason} (hc : failedCheck e = some r) :
    proceed .render (s.afterRead q e why) =
      .next (((s.afterRead q e why).tickGoTo (.drop r)).respond .parseFail (some r)) := by
  have hview := (s.afterRead q e why).checkView_rbufView hl
  exact proceed_render_of_parse_fail (s := s.afterRead q e why) hf rfl
    (State.parse_of_failedCheck hview (State.readCells_afterRead (why := why) hw) hc)

theorem proceed_render_afterRead_of_packet (hc : failedCheck e = none) :
    proceed .render (s.afterRead q e why) =
      .next (((s.afterRead q e why).tickGoTo (routePacket s.cfg.channels (packetIn (rbufView s.cfg) e))).respond
        (.packet (packetIn (rbufView s.cfg) e)) none) := by
  have hview := (s.afterRead q e why).checkView_rbufView hl
  exact proceed_render_of_parse_packet (s := s.afterRead q e why) hf rfl
    (State.parse_of_packetIn hview (State.readCells_afterRead (why := why) hw) hc)

end

/-! The lookup. -/

section

variable {chs : List Channel} {p : Packet} {ch : Channel}

theorem lookupChannel_eq_none {id : Byte} : lookupChannel chs id = none ↔ ∀ ch ∈ chs, ch.id ≠ id := by
  simp [lookupChannel]

/-- Ids are unique, so a channel of the table is the one its id finds (R8, R136). -/
theorem lookupChannel_of_mem (hn : (chs.map Channel.id).Nodup) (hch : ch ∈ chs) : lookupChannel chs ch.id = some ch := by
  cases hl : lookupChannel chs ch.id with
  | none => exact absurd rfl (lookupChannel_eq_none.mp hl ch hch)
  | some ch' =>
    obtain ⟨hch', hid⟩ := lookupChannel_some hl
    rw [List.inj_on_of_nodup_map hn hch' hch hid]

theorem routePacket_of_taken (hn : (chs.map Channel.id).Nodup) (hch : ch ∈ chs) (hid : ch.id = p.dest)
    (hs : p.offset / 3 < ch.pixels) : routePacket chs p = .scale p ch := by
  simp only [routePacket, ← hid, lookupChannel_of_mem hn hch, if_neg (Nat.not_le.mpr hs)]

/-- A packet that no channel takes is dropped, for its start if a channel has its id (R136, R137). -/
theorem routePacket_of_untaken (h : ∀ ch ∈ chs, ch.id = p.dest → ch.pixels ≤ p.offset / 3) :
    routePacket chs p = .drop (if ∃ ch ∈ chs, ch.id = p.dest then .startBeyond else .unknownDest) := by
  rcases routePacket_cases (chs := chs) p with ⟨hl, hr⟩ | ⟨ch, hl, hr⟩
  · rw [hr, if_neg]
    rintro ⟨ch, hch, hid⟩
    exact lookupChannel_eq_none.mp hl ch hch hid
  · obtain ⟨hch, hid⟩ := lookupChannel_some hl
    rw [hr, if_pos (h ch hch hid), if_pos ⟨ch, hch, hid⟩]

end

/-! The drop of an entry. -/

section

variable {s : State} {e : List Byte} {es : List (List Byte)} {r : Reason}

/-- From `s` to `t` a tick has dropped the oldest entry and left `es`: no LED driver call, one drop counted (R134, R35). -/
structure State.DropsEntry (s t : State) (es : List (List Byte)) (r : Reason) : Prop where
  env    : t.env = s.env
  dec    : t.dec = s.dec
  fq     : t.fq.Holds t.cfg es
  resp   : t.resp = .done
  reason : t.reason = some r
  idle   : t.host.tickAt = .idle
  stats  : t.stats = { s.stats with droppedRender := bump s.cfg s.stats.droppedRender }

variable (hinv : s.Inv) (hr : s.ready .hostRenderTick = true) (hes : s.fq.Holds s.cfg (e :: es))
  (hl : e.length ≤ s.cfg.renderBufCap)

include hinv hr hes hl

theorem State.Inv.tick_drops {resp : Response} {why : Option Reason}
    (hd : proceed .render (s.afterRead (s.fq.taken s.cfg e.length) e none) =
      .next (((s.afterRead (s.fq.taken s.cfg e.length) e none).tickGoTo (.drop r)).respond resp why)) :
    ∃ t1 t, exec .hostRenderTick s = .next t1 ∧ t1.proceeds .render 3 = some t ∧ s.DropsEntry t es r := by
  have hu : 0 < s.fq.used := Nat.lt_of_lt_of_le (by decide) hes.three_le_used
  obtain ⟨t, hexec, hproceeds⟩ := exec_hostRenderTick_then_drop hr hu (hes.read_taken hinv.qCap_le hl) hd
  exact ⟨t, _, hexec, hproceeds, rfl, rfl, hes.tail, rfl, rfl, rfl, rfl⟩

/-- An entry that fails PC.PARSE (R134). -/
theorem State.Inv.tick_drops_bad (hc : failedCheck e = some r) :
    ∃ t1 t, exec .hostRenderTick s = .next t1 ∧ t1.proceeds .render 3 = some t ∧ s.DropsEntry t es r :=
  hinv.tick_drops hr hes hl
    (proceed_render_afterRead_of_failedCheck (State.no_flush_of_ready hr fun _ => rfl) hinv.rbuf_ok.1 hl hc)

/-- A packet that is not routed (R136, R137). -/
theorem State.Inv.tick_drops_unrouted (hc : failedCheck e = none)
    (hroute : routePacket s.cfg.channels (packetIn (rbufView s.cfg) e) = .drop r) :
    ∃ t1 t, exec .hostRenderTick s = .next t1 ∧ t1.proceeds .render 3 = some t ∧ s.DropsEntry t es r := by
  have hf := State.no_flush_of_ready hr fun _ => rfl
  have hparse := proceed_render_afterRead_of_packet (q := s.fq.taken s.cfg e.length) (why := none) hf hinv.rbuf_ok.1 hl hc
  rw [hroute] at hparse
  exact hinv.tick_drops hr hes hl hparse

end

/-! The packet's pixels. -/

section

variable {s : State} {p : Packet} {ch : Channel} {px : List Byte}

/-- A part of a span that reads. -/
theorem Memory.readCells_drop_take {m : Memory} {a n k j : Nat} {bs : List Byte}
    (h : Memory.readCells m a n = some bs) (hk : k + j ≤ n) :
    Memory.readCells m (a + k) j = some ((bs.drop k).take j) := by
  obtain ⟨hl, hc⟩ := Memory.readCells_eq_some.mp h
  refine Memory.readCells_eq_some.mpr ⟨by simp; omega, fun i hi => ?_⟩
  rw [Nat.add_assoc, hc (k + i) (by omega), List.getElem?_take_of_lt hi, List.getElem?_drop]

/-- The state after the LED driver calls of a packet whose clamped pixels are scaled to `px` (R139 to R141). -/
def State.shown (s : State) (p : Packet) (ch : Channel) (px : List Byte) : State :=
  ((((s.writeView p.payload px).ledCalls (setPixels ch.out (p.offset / 3) px)).flushIf p.push ch.out).tickGoTo
    .count).respond (if p.push then .flushing else .underway) none

/-- Beside the pixels' cells, the calls are appended to the log and a flush of a pushed packet is awaited (R145). -/
theorem State.shown_eq (s : State) (p : Packet) (ch : Channel) (px : List Byte) :
    s.shown p ch px =
      { s.writeView p.payload px with
          env := { s.env with
                     ledLog := s.env.ledLog ++ setPixels ch.out (p.offset / 3) px ++
                       (if p.push then [.flush ch.out] else [])
                     flushPending := if p.push then some ch.out else s.env.flushPending }
          host := { (s.writeView p.payload px).host with tickAt := .count }
          resp := if p.push then .flushing else .underway
          reason := none } := by
  unfold State.shown
  rw [← State.writeView_env s p.payload px]
  cases p.push with
  | false => simp only [Bool.false_eq_true, if_false, List.append_nil]; rfl
  | true => rfl

/-- The two steps of a routed packet: BS.LIMIT of its clamped pixels, and the LED driver calls with what it wrote. -/
theorem State.proceeds_render_of_scale (hf : s.env.flushPending = none) (ha : s.host.tickAt = .scale p ch)
    (hw : Memory.wf (s.buf p.payload.buf).cells) (hc : s.checkView p.payload (3 * clampedCount p ch) = .ok ())
    (hpx : Memory.readCells (s.buf p.payload.buf).cells p.payload.base (3 * clampedCount p ch) = some px) :
    s.proceeds .render 2 =
      some (s.shown p ch (scalePixels s.cfg (selectScale (litCount px) ch.pixels bsThresholdDefault bsMaxScaleDefault
    bsMinScaleDefault) px)) := by
  set px' := scalePixels s.cfg (selectScale (litCount px) ch.pixels bsThresholdDefault bsMaxScaleDefault
    bsMinScaleDefault) px with hpx'
  have hscale := proceed_render_of_scale hf ha (State.limit_answers (by decide) hc hpx)
  have hlen : px'.length = 3 * clampedCount p ch := by
    rw [hpx', scalePixels_length, Memory.readCells_length hpx]
  have hbytes : (s.writeView p.payload px').viewBytes p.payload (3 * clampedCount p ch) = .ok px' :=
    State.viewBytes_ok.mpr (hlen ▸ State.readCells_writeView hw px')
  have hpixels := proceed_render_of_pixels
    (s := ((s.writeView p.payload px').tickGoTo (.pixels p ch)).respond .done none)
    ((congrArg EnvState.flushPending (State.writeView_env s _ _)).trans hf) rfl hbytes
  rw [State.proceeds_succ hscale, State.proceeds_succ hpixels, State.proceeds_zero, State.shown]
  cases p.push <;> rfl

/-- From `s` to `t` a tick has taken the oldest entry, left `es`, and shown the pixels `px` of its packet on the channel; a flush
of a pushed packet is awaited (R134, R140, R141, R145). -/
structure State.ShowsPacket (s t : State) (es : List (List Byte)) (p : Packet) (ch : Channel) (px : List Byte) : Prop where
  cfg          : t.cfg = s.cfg
  ledLog       : t.env.ledLog =
    s.env.ledLog ++ setPixels ch.out (p.offset / 3) px ++ (if p.push then [.flush ch.out] else [])
  flushPending : t.env.flushPending = if p.push then some ch.out else none
  input        : t.env.input = s.env.input
  dec          : t.dec = s.dec
  fq           : t.fq.Holds t.cfg es
  caller       : t.caller = s.caller
  stats        : t.stats = s.stats
  tickAt       : t.host.tickAt = .count
  resp         : t.resp = if p.push then .flushing else .underway
  reason       : t.reason = none

/-- The state of a tick on the entry `e` once it is read, parsed and routed. -/
def State.afterRoute (s : State) (e : List Byte) (p : Packet) (ch : Channel) : State :=
  ((s.afterRead (s.fq.taken s.cfg e.length) e none).tickGoTo (.scale p ch)).respond (.packet p) none

section

variable {e : List Byte} {es : List (List Byte)} (hinv : s.Inv) (hr : s.ready .hostRenderTick = true)
  (hes : s.fq.Holds s.cfg (e :: es)) (hl : e.length ≤ s.cfg.renderBufCap) (hc : failedCheck e = none)
  (hp : packetIn (rbufView s.cfg) e = p) (hroute : routePacket s.cfg.channels p = .scale p ch)

include hinv hr hes hl hc hp hroute

theorem State.Inv.tick_routes :
    ∃ t, exec .hostRenderTick s = .next t ∧
      ∀ n, t.proceeds .render (n + 2) = (s.afterRoute e p ch).proceeds .render n := by
  have hu : 0 < s.fq.used := Nat.lt_of_lt_of_le (by decide) hes.three_le_used
  have hf := State.no_flush_of_ready hr fun _ => rfl
  obtain ⟨t, hexec, hread⟩ := exec_hostRenderTick_then_read hr hu (hes.read_taken hinv.qCap_le hl)
  have hparse := proceed_render_afterRead_of_packet (q := s.fq.taken s.cfg e.length) (why := none) hf hinv.rbuf_ok.1 hl hc
  rw [hp, hroute] at hparse
  exact ⟨t, hexec, fun n => (State.proceeds_succ hread).trans (State.proceeds_succ hparse)⟩

/-- A tick on a packet that is routed scales its clamped pixels and shows them (R134, R138 to R141). -/
theorem State.Inv.tick_shows (hpx : (e.drop 10).take (3 * clampedCount p ch) = px) :
    ∃ t1 t, exec .hostRenderTick s = .next t1 ∧ t1.proceeds .render 4 = some t ∧
      s.ShowsPacket t es p ch (scalePixels s.cfg
        (selectScale (litCount px) ch.pixels bsThresholdDefault bsMaxScaleDefault bsMinScaleDefault) px) := by
  have hf := State.no_flush_of_ready hr fun _ => rfl
  obtain ⟨t, hexec, hproceeds⟩ := hinv.tick_routes hr hes hl hc hp hroute
  obtain ⟨hlen, -⟩ := failedCheck_eq_none.mp hc
  have hcount : clampedCount p ch ≤ be16 (e.getD 8 0) (e.getD 9 0) / 3 := hp ▸ Nat.min_le_left _ _
  have hcells : Memory.readCells (s.afterRoute e p ch).host.rbuf 0 e.length = some e :=
    State.readCells_afterRead (why := none) hinv.rbuf_ok.1
  have hw : Memory.wf (s.afterRoute e p ch).host.rbuf := Memory.wf_writeSpan e hinv.rbuf_ok.1
  have hview : p.payload = { buf := .rbuf, base := 0 + 10, size := be16 (e.getD 8 0) (e.getD 9 0) } := hp ▸ rfl
  have hcheck : (s.afterRoute e p ch).checkView p.payload (3 * clampedCount p ch) = .ok () := by
    rw [hview]
    refine State.checkView_ok.mpr ⟨by simp only; omega, .inr ?_⟩
    show 0 + 10 + _ ≤ s.cfg.renderBufCap
    omega
  have hshown := State.proceeds_render_of_scale (s := s.afterRoute e p ch) (px := px) hf rfl (by rw [hview]; exact hw)
    hcheck (by rw [hview, ← hpx]; exact Memory.readCells_drop_take hcells (by omega))
  refine ⟨t, _, hexec, (hproceeds 2).trans hshown, ?_⟩
  rw [State.shown_eq]
  subst hp
  exact ⟨rfl, rfl, hf ▸ rfl, rfl, rfl, hes.tail, rfl, rfl, rfl, rfl, rfl⟩

end

end

end Sys2Proof.Machine

section

open Sys2Proof Sys2Proof.Machine

/-- Settles O55: the reset queue gives no byte, and a buffer of no bytes is too short for a header. -/
theorem renderTickOfAnOverlongEntry : Obligations.RenderTickOfAnOverlongEntry := by
  intro s e es hr hinv hes hlong
  have hu : 0 < s.fq.used := Nat.lt_of_lt_of_le (by decide) hes.three_le_used
  have hidle := State.tickAt_idle_of_ready hr fun _ => rfl
  have hread : s.fq.read s.cfg s.cfg.renderBufCap = .ok (s.fq.emptied, [], some .fqTooLong) := by
    rw [hes.read_cons hinv.qCap_le, if_neg (Nat.not_le.mpr hlong)]
  obtain ⟨t, hexec, hproceeds⟩ := exec_hostRenderTick_then_drop hr hu hread
    (proceed_render_afterRead_of_failedCheck (e := []) (State.no_flush_of_ready hr fun _ => rfl) hinv.rbuf_ok.1
      (Nat.zero_le _) rfl)
  refine ⟨t, hexec, hproceeds.trans ?_⟩
  calc some (tickDrop .short (s.afterRead s.fq.emptied [] (some .fqTooLong)))
      = some (((s.tickGoTo .idle).setFq s.fq.emptied).countDroppedRender.respond .done (some .short)) := rfl
    _ = some ((s.setFq s.fq.emptied).countDroppedRender.respond .done (some .short)) := by rw [State.tickGoTo_self hidle]

/-- Settles O54: FQ.READ takes the entry, PC.PARSE or the routing sets the drop, and the counter's step ends the tick. -/
theorem renderTickDropsBadAndUnroutedPackets : Obligations.RenderTickDropsBadAndUnroutedPackets := by
  intro s es hr hinv
  refine ⟨fun e r hes hl hcheck => ?_, fun b0 b1 b2 b3 b4 b5 b6 b7 b8 b9 payload extra hes hl hv ht hlen h1 h2 hch => ?_⟩
  · obtain ⟨t1, t, hexec, hproceeds, h⟩ := hinv.tick_drops_bad hr hes hl hcheck
    exact ⟨t1, t, hexec, hproceeds, h.env, h.dec, h.fq, h.resp, h.reason, h.idle, h.stats⟩
  · rw [← packet_length b0 b1 b2 b3 b4 b5 b6 b7 b8 b9] at hl
    obtain ⟨t1, t, hexec, hproceeds, h⟩ :=
      hinv.tick_drops_unrouted hr hes hl (failedCheck_of_packet hv ht hlen h1 h2) (routePacket_of_untaken hch)
    exact ⟨t1, t, hexec, hproceeds, h.env, h.dec, h.fq, h.resp, h.idle, h.reason, h.stats⟩

/-- Settles O53: the bytes scaled are the first of the payload in `host.rbuf`, and the calls take what BS.LIMIT wrote there. -/
theorem renderTickWritesThePixels : Obligations.RenderTickWritesThePixels := by
  intro s es b0 b1 b2 b3 b4 b5 b6 b7 b8 b9 payload extra ch start cnt scale hr hinv hes hl hv ht hlen h1 h2 hch hid hstart
    hlt hcnt hscale
  rw [← packet_length b0 b1 b2 b3 b4 b5 b6 b7 b8 b9] at hl
  obtain ⟨-, -, -, -, -, -, -, -, -, -, hnodup⟩ := (Config.valid_iff _).mp hinv.cfg_valid
  obtain ⟨p, hp⟩ : ∃ p, packetIn (rbufView s.cfg) ([b0, b1, b2, b3, b4, b5, b6, b7, b8, b9] ++ payload ++ extra) = p :=
    ⟨_, rfl⟩
  have hdest : p.dest = b3 := hp ▸ rfl
  have hoffset : p.offset / 3 = start := hp ▸ hstart.symm
  have hpush : p.push = decide (b0.toNat % 2 = 1) := hp ▸ flagsPush_eq b0
  have hclamp : clampedCount p ch = cnt := by
    rw [hcnt, hlen, ← hoffset, ← hp]
    rfl
  have htake : (payload ++ extra).take (3 * clampedCount p ch) = payload.take (3 * cnt) := by
    rw [hclamp, List.take_append_of_le_length (by omega)]
  have hroute : routePacket s.cfg.channels p = .scale p ch :=
    routePacket_of_taken hnodup hch (hid.trans hdest.symm) (hoffset ▸ hlt)
  have hpx : (scalePixels s.cfg scale (payload.take (3 * cnt))).length = 3 * cnt := by
    rw [scalePixels_length, List.length_take]
    omega
  obtain ⟨t1, t, hexec, hproceeds, h⟩ :=
    hinv.tick_shows hr hes hl (failedCheck_of_packet hv ht hlen h1 h2) hp hroute htake
  have hscale : selectScale (litCount (payload.take (3 * cnt))) ch.pixels bsThresholdDefault bsMaxScaleDefault
      bsMinScaleDefault = scale := hscale.symm
  rw [hscale] at h
  refine ⟨t1, t, _, hexec, hproceeds, rfl, ?_, h.fq, h.input, h.dec, h.caller, h.reason, h.stats, h.tickAt,
    fun hodd => ⟨?_, ?_⟩, fun heven => ?_⟩
  · simp only [h.ledLog, hoffset, setPixels_eq_map_range _ _ hpx, hpush, decide_eq_true_eq]
  · simp only [h.flushPending, hpush, hodd, decide_true, if_true]
  · simp only [h.resp, hpush, hodd, decide_true, if_true]
  · have hf : t.env.flushPending = none := by
      rw [h.flushPending, hpush, heven]
      rfl
    refine ⟨hf, (proceed_render_of_count hf h.tickAt).trans ?_⟩
    rw [← h.stats, ← h.cfg]
    rfl

end
end

section
/-! PROOFS. What the steps of the HOST operations leave unchanged (R51, R130 to R134). -/

namespace Sys2Proof.Machine

variable {s t : State}

/-- Every path of DEC.PUSH writes `dec.acc` in at most the data byte's cell, and `dec.out` in at most the frame's (R84, R89). -/
theorem Dec.push_frame {c : Config} {d d' : Dec} {b : Byte} {ready : Bool} {why : Option Reason}
    (hp : d.push c b = .ok (d', ready, why)) (ha : Memory.wf d.acc) (ho : Memory.wf d.out) :
    (∀ a, a ≠ (if d.accLen < c.accCap then d.accLen else 0) → Memory.read d'.acc a = Memory.read d.acc a) ∧
      (b = 0x00#8 → d'.acc = d.acc) ∧ (b ≠ 0x00#8 → d'.out = d.out) ∧
      (ready = true → ∀ a, d'.outLen ≤ a → Memory.read d'.out a = Memory.read d.out a) := by
  rcases Dec.push_ok hp with ⟨hb, hd⟩ | ⟨hb, rfl, rfl, -⟩
  · have hacc : d'.acc = d.acc := Dec.pushDelimiter_acc hd
    refine ⟨fun a _ => congrArg (Memory.read · a) hacc, fun _ => hacc, absurd hb, fun hready a hle => ?_⟩
    rcases Dec.pushDelimiter_ok hd with ⟨hr, -⟩ | ⟨-, -, -, inp, x, bs, -, -, rfl⟩
    · simp [hr] at hready
    · exact (Memory.read_writeSpan _ _ _ _ ho).trans (if_neg fun h => absurd h.2 (by simpa using hle))
  · exact ⟨fun a hne => Dec.read_pushData_acc ha hne, fun h => absurd h hb, fun _ => (Dec.pushData_window b).1, nofun⟩

/-- A refused FQ.WRITE gives the queue back (R100). -/
theorem Fq.write_refused {c : Config} {q q' : Fq} {cs : List (Option Byte)} {why : Option Reason}
    (h : q.write c cs = .ok (q', why)) (hw : why.isNone = false) : q' = q := by
  rcases Fq.write_ok h with ⟨-, -, hq⟩ | ⟨rfl, -, -⟩
  · exact hq
  · exact nomatch hw

/-- Everything the first step of HOST.RX_BYTE that answers a next state can have done. -/
theorem exec_hostRxByte_next (h : exec .hostRxByte s = .next t) :
    t = s.stays ∨ ∃ b rest d ready why, s.env.input = b :: rest ∧ s.dec.push s.cfg b = .ok (d, ready, why) ∧
      t = if ready then ((s.fed rest d).rxGoTo .frame).respond (.frameReady true) none
        else (s.fed rest d).respond .done why := by
  rcases exec_next h with ⟨-, hb⟩ | ⟨-, ht⟩
  · rcases hostRxByte_ok hb with ⟨-, ht⟩ | ⟨b, rest, d, ready, why, hi, hp, ht⟩
    · exact .inl ht
    · rw [State.takeInput_setDec] at ht
      exact .inr ⟨b, rest, d, ready, why, hi, hp, ht⟩
  · exact .inl ht

/-- A tick's FQ.READ writes the queue's read side and the bytes read (R101 to R103). -/
theorem State.fqRead_rbuf_frame {n : Nat} {bs : List Byte} {why : Option Reason}
    (h : s.fqRead n (rbufView s.cfg) = .ok (t, bs, why)) (hw : Memory.wf s.host.rbuf) :
    ∃ rd used m, t = { s with fq := { s.fq with rd := rd, used := used }, host := { s.host with rbuf := m } } ∧
      ∀ a, bs.length ≤ a → Memory.read m a = Memory.read s.host.rbuf a := by
  obtain ⟨-, q, hq, rfl⟩ := State.fqRead_ok h
  obtain ⟨hside, -⟩ := Fq.read_frame hq
  refine ⟨q.rd, q.used, ((s.setFq q).writeView (rbufView s.cfg) bs).host.rbuf, ?_, fun a ha => ?_⟩
  · rw [← hside]
    rfl
  · exact State.read_writeView_other (s := s.setFq q) (v := rbufView s.cfg) hw (.inr (by simpa [rbufView] using ha))

/-- A tick's BS.LIMIT writes the clamped pixels' cells past the header (R138, R139). -/
theorem State.Routed.limit_frame {p : Packet} {ch : Channel} {total thr mx mn : Nat} (hp : s.Routed p ch)
    (h : s.limit p.payload (clampedCount p ch) total thr mx mn = .ok t) (hw : Memory.wf s.host.rbuf) :
    ∃ m, t = { s with host := { s.host with rbuf := m } } ∧
      ∀ a, (a < 10 ∨ 10 + 3 * clampedCount p ch ≤ a) → Memory.read m a = Memory.read s.host.rbuf a := by
  obtain ⟨-, -, px, hpx, rfl⟩ := State.limit_ok h
  have hlen := Memory.readCells_length hpx
  rw [hp.view]
  refine ⟨_, rfl, fun a ha => ?_⟩
  exact State.read_writeView_other (v := { buf := .rbuf, base := hdrSize, size := p.payloadLen }) hw
    (by rwa [scalePixels_length, hlen])

end Sys2Proof.Machine

section

open Sys2Proof Sys2Proof.Machine

/-- Settles O60: each step is made of updates that name what they write, and the buffers are written through FQ.WRITE's ring
span and the operands `host.rbuf` and the packet's payload alone. -/
theorem hostOperationsFrame : Obligations.HostOperationsFrame := by
  intro s t
  refine ⟨fun ht => ?_, fun ht => ?_, fun ht hacc hout => ?_, fun ht hring => ?_, fun ht => ?_, fun ht hloop hrbuf => ?_⟩
  · rcases exec_next ht with ⟨-, hb⟩ | ⟨-, rfl⟩
    · rcases hostBegin_ok hb with rfl | rfl <;> rfl
    · rfl
  · rcases exec_next ht with ⟨-, hb⟩ | ⟨-, rfl⟩
    · rcases hostEnd_ok hb with rfl | rfl <;> rfl
    · rfl
  · rcases exec_hostRxByte_next ht with rfl | ⟨b, rest, d, ready, why, hi, hp, rfl⟩
    · exact ⟨rfl, fun _ _ => rfl, fun _ _ _ => ⟨fun _ => rfl, fun _ => rfl⟩, nofun⟩
    · obtain ⟨hcell, hdelim, hdata, hframe⟩ := Dec.push_frame hp hacc hout
      have hbyte (b' : Byte) (rest' : List Byte) (hi' : s.env.input = b' :: rest') :
          (b' = 0x00#8 → d.acc = s.dec.acc) ∧ (b' ≠ 0x00#8 → d.out = s.dec.out) := by
        obtain ⟨rfl, -⟩ := List.cons.inj (hi.symm.trans hi')
        exact ⟨hdelim, hdata⟩
      cases ready with
      | true => exact ⟨rfl, hcell, hbyte, fun _ => hframe rfl⟩
      | false => exact ⟨rfl, hcell, hbyte, nofun⟩
  · rcases proceed_next ht with rfl | ⟨-, -, hp⟩ | ⟨ha, -, -⟩
    · exact ⟨rfl, fun _ _ => rfl, fun _ => rfl, fun _ => rfl⟩
    · rcases rxProceed_ok hp with ⟨-, rfl⟩ | ⟨-, frame, -, rfl⟩ | ⟨frame, q, why, ha, hq, rfl⟩ | ⟨why, ha, rfl⟩
      · exact ⟨rfl, fun _ _ => rfl, fun _ => rfl, fun _ => rfl⟩
      · exact ⟨rfl, fun _ _ => rfl, fun _ => rfl, fun _ => rfl⟩
      · obtain ⟨hside, hcells⟩ := Fq.write_frame hq hring
        refine ⟨congrArg (fun q => ((s.setFq q).rxGoTo _).respond _ _) hside,
          fun a hne => hcells a (by simpa using hne frame ha), fun hw => ?_, fun _ => rfl⟩
        exact hw.elim (fun h => absurd ha (h frame)) fun h => Fq.write_refused hq (Response.wrOk.inj h)
      · cases why <;> exact ⟨rfl, fun _ _ => rfl, fun _ => rfl, fun h => absurd ha (h _)⟩
    · exact nomatch ha
  · rcases exec_next ht with ⟨-, hb⟩ | ⟨-, rfl⟩
    · obtain rfl := hostRenderTick_ok hb
      split <;> rfl
    · rfl
  · rcases proceed_next ht with rfl | ⟨ha, -, -⟩ | ⟨-, -, hp⟩
    · exact ⟨rfl, nofun, fun _ _ _ _ _ => rfl, fun _ _ => rfl, fun _ => rfl, fun _ => rfl, fun _ _ => rfl⟩
    · exact nomatch ha
    · rcases tickProceed_ok hp with ⟨ha, rfl⟩ | ⟨ha, u, bs, why, hu, rfl⟩ |
        ⟨n, ha, ⟨r, -, rfl⟩ | ⟨p, -, rfl⟩⟩ | ⟨p, ch, u, ha, hu, rfl⟩ | ⟨p, ch, px, ha, -, rfl⟩ | ⟨ha, rfl⟩ | ⟨r, ha, rfl⟩
      · exact ⟨rfl, by simp [ha]⟩
      · obtain ⟨rd, used, m, rfl, hcells⟩ := State.fqRead_rbuf_frame hu hrbuf
        refine ⟨rfl, fun _ n bs' hresp a hle => hcells a ?_, by simp [ha]⟩
        obtain ⟨hn, -⟩ := Response.read.inj hresp
        exact hn.trans_le hle
      · exact ⟨rfl, by simp [ha]⟩
      · exact ⟨rfl, by simp [ha]⟩
      · obtain ⟨m, rfl, hcells⟩ := (hloop.tick_route p ch (.inl ha)).limit_frame hu hrbuf
        refine ⟨rfl, by simp [ha], fun p' ch' ha' a hne => hcells a ?_, by simp [ha]⟩
        obtain ⟨rfl, rfl⟩ := TickPosition.scale.inj (ha.symm.trans ha')
        exact hne
      · cases p.push <;> exact ⟨rfl, by simp [ha, State.flushIf, State.ledCalls]⟩
      · exact ⟨rfl, by simp [ha, tickCount]⟩
      · exact ⟨rfl, by simp [ha, tickDrop]⟩

end
end

section
/-! PROOFS. The faults of an operand its caller got wrong (R57, R153): a view with too few cells, an unwritten byte of a payload
(R99), an unwritten header cell that PC.PARSE reaches (R110), an unwritten cell among BS.LIMIT's pixels (R119). -/

namespace Sys2Proof.Machine

variable {s : State} {v : View} {n k : Nat} {f : Fault}

/-! The operands. -/

theorem State.checkView_of_lt (h : s.viewCells v < n) : s.checkView v n = .error (.fault .bufferTooSmall) :=
  if_neg (Nat.not_le.mpr h)

theorem State.viewByte_of_written {b : Byte} (h : Memory.read (s.buf v.buf).cells (v.base + k) = some b) :
    s.viewByte v k = .ok b := by
  simp only [State.viewByte, h]

theorem State.viewByte_of_unwritten (h : Memory.read (s.buf v.buf).cells (v.base + k) = none) :
    s.viewByte v k = .error (.fault .readUnwritten) := by
  simp only [State.viewByte, h]

/-- One unwritten cell spoils the whole span. -/
theorem State.viewBytes_of_unwritten (hk : k < n) (h : Memory.read (s.buf v.buf).cells (v.base + k) = none) :
    s.viewBytes v n = .error (.fault .readUnwritten) := by
  unfold State.viewBytes
  split
  · next bs hbs =>
    have hheld := Memory.readCells_held_iff.mp ⟨bs, hbs⟩ k hk
    rw [h] at hheld
    cases hheld
  · rfl

theorem payloadBytes_of_unwritten {cs : List (Option Byte)} (h : none ∈ cs) :
    payloadBytes cs = .error (.fault .readUnwritten) := by
  induction cs with
  | nil => cases h
  | cons c cs ih =>
    cases c with
    | none => rfl
    | some b => simp only [payloadBytes, ih (by simpa using h)]

/-! FQ.WRITE and FQ.READ. -/

/-- The length checks pass, and then the payload is read (R99, R155). -/
theorem Fq.write_of_unwritten {c : Config} {q : Fq} {cs : List (Option Byte)} (h1 : 1 ≤ cs.length)
    (h2 : cs.length + 2 ≤ c.qCap - q.used) (h : none ∈ cs) : q.write c cs = .error (.fault .readUnwritten) := by
  simp only [Fq.write, fqWriteReason_none.mpr ⟨h1, h2⟩, payloadBytes_of_unwritten h]

theorem exec_fqWrite_of_fault (hr : s.ready .fqWrite = true) (h : s.fq.write s.cfg s.ports.wrData = .error (.fault f)) :
    exec .fqWrite s = .fault f := by
  simp only [exec_of_ready hr, opBody, fqWrite, State.fqWrite, h, outcomeOf_fault]

theorem exec_fqRead_of_tooSmall (hr : s.ready .fqRead = true) (h : s.viewCells s.ports.rdDst < s.ports.rdMax) :
    exec .fqRead s = .fault .bufferTooSmall := by
  simp only [exec_of_ready hr, opBody, fqRead, State.fqRead, State.checkView_of_lt h, outcomeOf_fault]

/-! PC.PARSE, in R117's order. -/

theorem State.parse_of_tooSmall (h : s.viewCells v < n) : s.parse v n = .error (.fault .bufferTooSmall) := by
  simp only [State.parse, State.checkView_of_lt h]

theorem State.parseHeader_of_unwritten_flags (hn : hdrSize ≤ n) (hf : s.viewByte v 0 = .error (.fault .readUnwritten)) :
    s.parseHeader v n = .error (.fault .readUnwritten) := by
  simp only [State.parseHeader, if_neg (Nat.not_lt.mpr hn), hf]

theorem State.parseHeader_of_unwritten_dataType {flags : Byte} (hn : hdrSize ≤ n) (hf : s.viewByte v 0 = .ok flags)
    (hv : flagsVersion flags = versionMarker) (hd : s.viewByte v 2 = .error (.fault .readUnwritten)) :
    s.parseHeader v n = .error (.fault .readUnwritten) := by
  simp only [State.parseHeader, if_neg (Nat.not_lt.mpr hn), hf, if_neg (not_not.mpr hv), hd]

theorem State.parseLengths_of_unwritten_length {flags dtype : Byte}
    (h : s.viewByte v 8 = .error (.fault .readUnwritten) ∨ s.viewByte v 9 = .error (.fault .readUnwritten)) :
    s.parseLengths v n flags dtype = .error (.fault .readUnwritten) := by
  unfold State.parseLengths
  split
  · next h8 h9 =>
    rcases h with h | h
    · exact nomatch h.symm.trans h8
    · exact nomatch h.symm.trans h9
  · rfl

/-- A Packet needs each of the six bytes no check has read (R79). -/
theorem State.packetOf_of_unwritten {flags dtype : Byte} {plen : Nat} (hk : k ∈ [1, 3, 4, 5, 6, 7])
    (h : s.viewByte v k = .error (.fault .readUnwritten)) :
    s.packetOf v flags dtype plen = .error (.fault .readUnwritten) := by
  unfold State.packetOf
  split
  · next h1 h3 h4 h5 h6 h7 =>
    have hread : ∀ j ∈ [1, 3, 4, 5, 6, 7], ∃ b, s.viewByte v j = .ok b := by
      simp [h1, h3, h4, h5, h6, h7]
    obtain ⟨b, hb⟩ := hread k hk
    exact nomatch h.symm.trans hb
  · rfl

theorem State.parseLengths_of_unwritten_packet {flags dtype h l : Byte} (hh : s.viewByte v 8 = .ok h)
    (hl : s.viewByte v 9 = .ok l) (hp : payloadLenOk (be16 h l) = true) (hn : hdrSize + be16 h l ≤ n)
    (hk : s.packetOf v flags dtype (be16 h l) = .error (.fault .readUnwritten)) :
    s.parseLengths v n flags dtype = .error (.fault .readUnwritten) := by
  simp only [State.parseLengths, hh, hl, if_pos hp, if_neg (Nat.not_lt.mpr hn), hk]

theorem exec_pcParse_of_fault (hr : s.ready .pcParse = true)
    (h : s.parse s.ports.pcBuf s.ports.pcLength = .error (.fault f)) : exec .pcParse s = .fault f := by
  simp only [exec_of_ready hr, opBody, pcParse, h, outcomeOf_fault]

/-! BS.LIMIT. -/

theorem State.limit_of_tooSmall {count total thr mx mn : Nat} (hp : scaleParamsOk mx mn = true)
    (h : s.viewCells v < 3 * count) : s.limit v count total thr mx mn = .error (.fault .bufferTooSmall) := by
  simp only [State.limit, if_pos hp, State.checkView_of_lt h]

theorem State.limit_of_unwritten {count total thr mx mn : Nat} (hp : scaleParamsOk mx mn = true)
    (hc : 3 * count ≤ s.viewCells v) (hk : k < 3 * count)
    (h : Memory.read (s.buf v.buf).cells (v.base + k) = none) :
    s.limit v count total thr mx mn = .error (.fault .readUnwritten) := by
  simp only [State.limit, if_pos hp, State.checkView_of_le hc, State.viewBytes_of_unwritten hk h]

theorem exec_bsLimit_of_fault (hr : s.ready .bsLimit = true)
    (h : s.limit s.ports.bsPix s.ports.bsCount s.ports.bsTotal s.ports.bsThreshold s.ports.bsMaxScale
      s.ports.bsMinScale = .error (.fault f)) : exec .bsLimit s = .fault f := by
  simp only [exec_of_ready hr, opBody, bsLimit, h, outcomeOf_fault]

end Sys2Proof.Machine

section

open Sys2Proof Sys2Proof.Machine

/-- Settles O45: sizes are checked before any cell is read, FQ.WRITE and BS.LIMIT read all their cells after that, and PC.PARSE
reads a header cell only when the checks before it pass. -/
theorem brokenBufferContractsFault : Obligations.BrokenBufferContractsFault := by
  intro s
  refine ⟨exec_fqRead_of_tooSmall, fun hr hlt => exec_pcParse_of_fault hr (State.parse_of_tooSmall hlt),
    fun hr hle hmax hlt => exec_bsLimit_of_fault hr (State.limit_of_tooSmall (scaleParamsOk_iff.mpr ⟨hle, hmax⟩) hlt),
    fun hr h1 h2 hnone => exec_fqWrite_of_fault hr (Fq.write_of_unwritten h1 h2 hnone),
    fun hr hc hn cell hcell => ?_,
    fun hr hle hmax hc ⟨k, hk, hnone⟩ =>
      exec_bsLimit_of_fault hr (State.limit_of_unwritten (scaleParamsOk_iff.mpr ⟨hle, hmax⟩) hc hk hnone)⟩
  have hunwritten {k : Nat} (hk : cell k = none) : s.viewByte s.ports.pcBuf k = .error (.fault .readUnwritten) :=
    State.viewByte_of_unwritten ((hcell k).symm.trans hk)
  have hwritten {k : Nat} {b : Byte} (hk : cell k = some b) : s.viewByte s.ports.pcBuf k = .ok b :=
    State.viewByte_of_written ((hcell k).symm.trans hk)
  have hfault (hp : s.parseHeader s.ports.pcBuf s.ports.pcLength = .error (.fault .readUnwritten)) :
      exec .pcParse s = .fault .readUnwritten :=
    exec_pcParse_of_fault hr ((State.parse_of_checkView (State.checkView_of_le hc)).trans hp)
  refine ⟨fun h0 => hfault (State.parseHeader_of_unwritten_flags hn (hunwritten h0)), fun b0 h0 hv => ?_⟩
  have hv := flagsVersion_eq_marker.mpr hv
  refine ⟨fun h2 => hfault (State.parseHeader_of_unwritten_dataType hn (hwritten h0) hv (hunwritten h2)),
    fun b2 h2 ht => ?_⟩
  have hlengths := State.parseHeader_of_checks hn (hwritten h0) hv (hwritten h2) (dataTypeOk_iff.mpr ht)
  refine ⟨fun h89 => hfault (hlengths.trans (State.parseLengths_of_unwritten_length (h89.imp hunwritten hunwritten))),
    fun b8 b9 h8 h9 hlo hhi hlen ⟨k, hk, hnone⟩ => hfault (hlengths.trans ?_)⟩
  exact State.parseLengths_of_unwritten_packet (hwritten h8) (hwritten h9) (payloadLenOk_iff.mpr ⟨hlo, hhi⟩) hlen
    (State.packetOf_of_unwritten hk (hunwritten hnone))

end
end

section
/-! PROOFS. What each element of the state holds at reset (R166). -/

namespace Sys2Proof.Machine

@[simp] theorem Memory.read_nil (a : Nat) : Memory.read [] a = none := rfl

end Sys2Proof.Machine

section

open Sys2Proof Sys2Proof.Machine

/-- Settles O7: every memory is empty at reset, so no cell of it holds a value, and every other element is given its own reset
value. -/
theorem resetValuesOfEveryElement : Obligations.ResetValuesOfEveryElement := fun _ =>
  ⟨rfl,
    Memory.read_nil, rfl, Memory.read_nil, rfl, rfl, -- dec
    Memory.read_nil, rfl, rfl, rfl, rfl, -- fq
    rfl, rfl, rfl, Memory.read_nil, -- host
    rfl, rfl, rfl, rfl, -- stats
    rfl, rfl⟩ -- env

end
end
